-- ==== Sys2Proof/Word.lean ====
section
/-! DEFINITION. The words and names the block's interfaces use: bytes, addresses, text, the enumerations of the spec
(00_scope.md R9, R14, 30_encoding.md R80, R87, R96, R99), the inputs of the outside and the operation words a decoder
reads. Types only. -/

namespace Sys2Proof

/-- A byte of the bitbang stream (20_memory.md R63). -/
abbrev Byte := BitVec 8

/-- A traced address, "unsigned 64-bit" (20_memory.md R61). -/
abbrev Addr := BitVec 64

/-- A text string: a cache spec or a label (30_encoding.md R81). -/
abbrev Text := List Char

/-- The three cache instances of the machine (10_state.md R21). -/
inductive CacheId
  | ic
  | dc
  | l2
deriving DecidableEq, Repr

/-- The kind of a traced access (30_encoding.md R87). -/
inductive Kind
  | fetch
  | load
  | store
deriving DecidableEq, Repr

/-- The 16 TAP states, by the abbreviations of 00_scope.md R14. -/
inductive TapState
  | tlr
  | rti
  | selDR
  | capDR
  | shDR
  | ex1DR
  | pauDR
  | ex2DR
  | updDR
  | selIR
  | capIR
  | shIR
  | ex1IR
  | pauIR
  | ex2IR
  | updIR
deriving DecidableEq, Repr

/-- Step 1 of `clock` (41_tap_fsm.md R150): what an edge does by the state it starts in. -/
inductive ShiftAction
  | none
  | dr
  | ir
deriving DecidableEq, Repr

/-- Step 3 of `clock` (41_tap_fsm.md R150): what an edge does by the state it ends in. -/
inductive EntryAction
  | none
  | reset
  | captureDR
  | captureIR
  | latchIR
  | updateDR
deriving DecidableEq, Repr

/-- The three outcomes of one `access`, which the operation table lists as rows of their own (30_encoding.md R108). -/
inductive AccessRow
  | hit
  | miss
  | missForward
deriving DecidableEq, Repr

/-- What the selected instruction asks for (30_encoding.md R96, R97). -/
inductive DtmAccess
  | idle
  | read (a : Nat)
  | write (a : Nat)
deriving DecidableEq, Repr

/-- A decoded bitbang command (30_encoding.md R99). -/
inductive BbCommand
  | clock (tms tdi : Bool)
  | sysReset
  | tapReset
  | malformed
deriving DecidableEq, Repr

/-- One call the DTM makes on the debug module (42_dtm_registers.md R190 to R193). -/
inductive DmCall
  | read (a : Nat)
  | write (a d : Nat)
  | reset
deriving DecidableEq, Repr

/-- Why `construct` raises `ConfigError` (60_exceptions.md R222). -/
inductive ConfigCause
  | malformedCacheSpec
  | nonPowerOfTwoGeometry
  | zeroWays
deriving DecidableEq, Repr

/-- The causes of `TransportError` (60_exceptions.md R224). -/
inductive TransportCause
  | malformedByte
  | clientDisconnect
deriving DecidableEq, Repr

/-- What the outside presents to the block, one event each, in the form it arrives in (30_encoding.md R80, R106).
`instrEdge` is a TAP edge like `clock`, named not by the TAP state it starts in but by the instruction word it acts on:
the table lists such an edge under both rows (DESIGN CHOICE, log 7). Both reach the TAP only while a client is connected
(43_remote_bitbang.md R211). -/
inductive Input
  | construct (c : CacheId) (spec label : Text)
  | attach (lower upper : CacheId)
  | register (h : Nat) (t : CacheId)
  | notify (h : Nat) (a : Addr) (k : Kind)
  | access (c : CacheId) (a : Addr) (isWrite : Bool)
  | stats (c : CacheId)
  | clock (tms tdi : Bool)
  | byte (b : Byte)
  | connect
  | disconnect
  | instrEdge
deriving DecidableEq, Repr

/-- An operation as the operation table encodes it (30_encoding.md R108): a call by its signature, a `clock` row by its
state name and `tms`, an `access` row by its outcome, a client or response byte by its 8 bits, an instruction word by
its bits. `Machine.observe` forms it from an input and the state. -/
inductive OpWord
  | construct (c : CacheId) (spec label : Text)
  | attach (lower upper : CacheId)
  | register (h : Nat) (t : CacheId)
  | notify (h : Nat) (a : Addr) (k : Kind)
  | access (c : CacheId) (a : Addr) (isWrite : Bool) (row : AccessRow)
  | stats (c : CacheId)
  | clock (st : TapState) (tms tdi : Bool)
  | byte (b : Byte)
  | response (b : Byte)
  | connect
  | disconnect
  | irWord (w : Nat)
deriving DecidableEq, Repr

/-- Why no instruction is read from an operation word. -/
inductive Reject
  /-- A response byte that encodes neither value of `tdo` (30_encoding.md R101). -/
  | badResponse
  /-- An instruction word wider than `IR_LEN` bits (30_encoding.md R96). -/
  | irWordTooWide
  /-- The state selects no row: a direct `access` to a cache that was not constructed, or an `instrEdge` from a state
  whose edges act on no instruction word. -/
  | noRowSelected
deriving DecidableEq, Repr

end Sys2Proof
end

