-- ==== Sys2Proof/Config.lean ====
section
/-! DEFINITION. What one machine fixes at construction (00_scope.md R9, R10; the open parameters of
92_eei_decisions.md) as plain data, its reference values, and the one free value of the model: what the out-of-scope
debug module answers. -/

namespace Sys2Proof

/-- One hart, `{index, hartid}` (60_exceptions.md R240). -/
structure HartConfig where
  index : Nat
  hartid : Nat
deriving DecidableEq, Repr

/-- The parameters of the machine. No operation writes them (10_state.md R49). -/
structure Params where
  /-- `ABITS`, the width of a debug-module register address (R10, OPEN). -/
  abits : Nat
  /-- `DBITS`, the width of debug-module data and of DR (R10, OPEN). -/
  dbits : Nat
  /-- `IDLE_IR` (30_encoding.md R98). -/
  idleIr : Nat
  /-- `IDLE_DR` (30_encoding.md R98). -/
  idleDr : Nat
  /-- Where the machine's `InstrDecode` departs from the layout of 30_encoding.md R96 (OPEN parameter, log 5). -/
  irOverride : List (Nat × DtmAccess)
  /-- Where the machine's `BbDecode` departs from the reference codec of 30_encoding.md R100 (OPEN parameter, log 5). -/
  bbOverride : List (Byte × BbCommand)
  /-- The byte that answers `tdo = 0` (30_encoding.md R101, OPEN). -/
  resp0 : Byte
  /-- The byte that answers `tdo = 1` (30_encoding.md R101, OPEN). -/
  resp1 : Byte
  /-- For each of the `NHARTS` hart slots the hartid the configuration supplies, if it supplies one (R9,
  60_exceptions.md R240). -/
  hartids : List (Option Nat)
  /-- Whether a remote debug transport is requested. Without one the TAP half does not exist (70_reset_and_hazards.md
  R257; log 16). -/
  remote : Bool
  /-- Debug-module configuration, passed through (R10, 42_dtm_registers.md R194). An integer (10_state.md R45), of any
  value: the source says nothing of an invalid one, a negative `progsize` say (60_exceptions.md R223), and the model
  refuses none (DESIGN CHOICE, log 26). -/
  progsize : Int
  /-- Debug-module configuration, passed through (R10, 42_dtm_registers.md R194). An integer of any value, like
  `progsize` (DESIGN CHOICE, log 26). -/
  maxBusMasterBits : Int
  /-- Debug-module configuration, passed through (R10, 60_exceptions.md R236). -/
  requireAuthentication : Bool
deriving DecidableEq, Repr

/-- `NHARTS` (00_scope.md R9). -/
def Params.nharts (p : Params) : Nat := p.hartids.length

/-- The hartid of a slot: "if not explicitly supplied, hartid defaults to slot index" (60_exceptions.md R240). -/
def Params.hartid (p : Params) (h : Nat) : Nat := (p.hartids.getD h none).getD h

/-- The harts of the machine, by slot (60_exceptions.md R240). No rule of the block reads a hartid. -/
def Params.harts (p : Params) : List HartConfig := (List.range p.nharts).map fun h => ⟨h, p.hartid h⟩

/-- `IR_LEN = ABITS + 2` (00_scope.md R10, 30_encoding.md R96). -/
def Params.irLen (p : Params) : Nat := p.abits + 2

/-- The reference instance of 95_test_vectors.md section 0 with the defaults of R10, two harts of which no
hartid is supplied, and a remote debug transport (DESIGN CHOICE, log 4). -/
def Params.reference : Params where
  abits := 7
  dbits := 32
  idleIr := 0
  idleDr := 0
  irOverride := []
  bbOverride := []
  resp0 := 0x30#8
  resp1 := 0x31#8
  hartids := [none, none]
  remote := true
  progsize := 2
  maxBusMasterBits := 0
  requireAuthentication := false

/-- The small instance of 95_test_vectors.md section 0: `ABITS = 2`, `DBITS = 4`. -/
def Params.small : Params := { Params.reference with abits := 2, dbits := 4 }

/-- The debug module's answer to a `DmRead` of register `a`, given its configuration and every call made on it before
(42_dtm_registers.md R190: "assumes nothing of it"). A FREE VALUE: it has no body, so no statement can rest on what it
is (log 2). The history of calls is the debug module's state, so two reads of one register may differ. -/
opaque Config.dmData : Params → List DmCall → Nat → Nat

end Sys2Proof
end

