-- ==== Sys2Proof/Syntax.lean ====
section
/-! DEFINITION. The operations of the block as syntax: one constructor for each of the 58 rows of
spec/opcode_table.json (30_encoding.md R108). -/

namespace Sys2Proof

/-- One row of the operation table with its operands. -/
inductive Instr
  /-- `construct(spec, label)`, building the instance of the given name (40_cache.md R110). -/
  | construct (c : CacheId) (spec label : Text)
  /-- `attach(lower, upper)` (40_cache.md R113). -/
  | attach (lower upper : CacheId)
  /-- `register(h, t)` (40_cache.md R115). -/
  | register (h : Nat) (t : CacheId)
  /-- `notify(h, address, fetch)` (40_cache.md R116). -/
  | notifyFetch (h : Nat) (a : Addr)
  /-- `notify(h, address, load)` (40_cache.md R116). -/
  | notifyLoad (h : Nat) (a : Addr)
  /-- `notify(h, address, store)` (40_cache.md R116). -/
  | notifyStore (h : Nat) (a : Addr)
  /-- `access` that finds a valid line with the tag (40_cache.md R120). -/
  | accessHit (c : CacheId) (a : Addr) (isWrite : Bool)
  /-- `access` that misses in a cache with no miss handler (40_cache.md R121, R123). -/
  | accessMiss (c : CacheId) (a : Addr) (isWrite : Bool)
  /-- `access` that misses and forwards (40_cache.md R122). -/
  | accessMissForward (c : CacheId) (a : Addr) (isWrite : Bool)
  /-- `stats(c)` (40_cache.md R126). -/
  | stats (c : CacheId)
  /-- An edge from TLR with `tms = 0` (41_tap_fsm.md R151). -/
  | clockTLR0 (tdi : Bool)
  /-- An edge from TLR with `tms = 1` (41_tap_fsm.md R151). -/
  | clockTLR1 (tdi : Bool)
  /-- An edge from RTI with `tms = 0` (41_tap_fsm.md R152). -/
  | clockRTI0 (tdi : Bool)
  /-- An edge from RTI with `tms = 1` (41_tap_fsm.md R152). -/
  | clockRTI1 (tdi : Bool)
  /-- An edge from SelDR with `tms = 0` (41_tap_fsm.md R153). -/
  | clockSelDR0 (tdi : Bool)
  /-- An edge from SelDR with `tms = 1` (41_tap_fsm.md R153). -/
  | clockSelDR1 (tdi : Bool)
  /-- An edge from CapDR with `tms = 0` (41_tap_fsm.md R154). -/
  | clockCapDR0 (tdi : Bool)
  /-- An edge from CapDR with `tms = 1` (41_tap_fsm.md R154). -/
  | clockCapDR1 (tdi : Bool)
  /-- An edge from ShDR with `tms = 0` (41_tap_fsm.md R155). -/
  | clockShDR0 (tdi : Bool)
  /-- An edge from ShDR with `tms = 1` (41_tap_fsm.md R155). -/
  | clockShDR1 (tdi : Bool)
  /-- An edge from Ex1DR with `tms = 0` (41_tap_fsm.md R156). -/
  | clockEx1DR0 (tdi : Bool)
  /-- An edge from Ex1DR with `tms = 1` (41_tap_fsm.md R156). -/
  | clockEx1DR1 (tdi : Bool)
  /-- An edge from PauDR with `tms = 0` (41_tap_fsm.md R157). -/
  | clockPauDR0 (tdi : Bool)
  /-- An edge from PauDR with `tms = 1` (41_tap_fsm.md R157). -/
  | clockPauDR1 (tdi : Bool)
  /-- An edge from Ex2DR with `tms = 0` (41_tap_fsm.md R158). -/
  | clockEx2DR0 (tdi : Bool)
  /-- An edge from Ex2DR with `tms = 1` (41_tap_fsm.md R158). -/
  | clockEx2DR1 (tdi : Bool)
  /-- An edge from UpdDR with `tms = 0` (41_tap_fsm.md R159). -/
  | clockUpdDR0 (tdi : Bool)
  /-- An edge from UpdDR with `tms = 1` (41_tap_fsm.md R159). -/
  | clockUpdDR1 (tdi : Bool)
  /-- An edge from SelIR with `tms = 0` (41_tap_fsm.md R160). -/
  | clockSelIR0 (tdi : Bool)
  /-- An edge from SelIR with `tms = 1` (41_tap_fsm.md R160). -/
  | clockSelIR1 (tdi : Bool)
  /-- An edge from CapIR with `tms = 0` (41_tap_fsm.md R161). -/
  | clockCapIR0 (tdi : Bool)
  /-- An edge from CapIR with `tms = 1` (41_tap_fsm.md R161). -/
  | clockCapIR1 (tdi : Bool)
  /-- An edge from ShIR with `tms = 0` (41_tap_fsm.md R162). -/
  | clockShIR0 (tdi : Bool)
  /-- An edge from ShIR with `tms = 1` (41_tap_fsm.md R162). -/
  | clockShIR1 (tdi : Bool)
  /-- An edge from Ex1IR with `tms = 0` (41_tap_fsm.md R163). -/
  | clockEx1IR0 (tdi : Bool)
  /-- An edge from Ex1IR with `tms = 1` (41_tap_fsm.md R163). -/
  | clockEx1IR1 (tdi : Bool)
  /-- An edge from PauIR with `tms = 0` (41_tap_fsm.md R164). -/
  | clockPauIR0 (tdi : Bool)
  /-- An edge from PauIR with `tms = 1` (41_tap_fsm.md R164). -/
  | clockPauIR1 (tdi : Bool)
  /-- An edge from Ex2IR with `tms = 0` (41_tap_fsm.md R165). -/
  | clockEx2IR0 (tdi : Bool)
  /-- An edge from Ex2IR with `tms = 1` (41_tap_fsm.md R165). -/
  | clockEx2IR1 (tdi : Bool)
  /-- An edge from UpdIR with `tms = 0` (41_tap_fsm.md R166). -/
  | clockUpdIR0 (tdi : Bool)
  /-- An edge from UpdIR with `tms = 1` (41_tap_fsm.md R166). -/
  | clockUpdIR1 (tdi : Bool)
  /-- Client byte `'0'`, `Clock(0, 0)` (43_remote_bitbang.md R201). -/
  | bbClock0
  /-- Client byte `'1'`, `Clock(0, 1)` (43_remote_bitbang.md R201). -/
  | bbClock1
  /-- Client byte `'2'`, `Clock(1, 0)` (43_remote_bitbang.md R201). -/
  | bbClock2
  /-- Client byte `'3'`, `Clock(1, 1)` (43_remote_bitbang.md R201). -/
  | bbClock3
  /-- The class row of the clock commands, `Clock(tms, tdi)` whatever byte carries it (43_remote_bitbang.md R201). -/
  | bbClock (tms tdi : Bool)
  /-- Client byte `'s'`, `SysReset` (43_remote_bitbang.md R204). -/
  | bbSysreset
  /-- Client byte `'t'`, `TapReset` (43_remote_bitbang.md R205). -/
  | bbTapreset
  /-- A client byte that is no command (43_remote_bitbang.md R206). -/
  | bbMalformed (b : Byte)
  /-- The response byte for `tdo = 0` (30_encoding.md R101). -/
  | bbResponse0
  /-- The response byte for `tdo = 1` (30_encoding.md R101). -/
  | bbResponse1
  /-- The server accepts a client (43_remote_bitbang.md R209). -/
  | connect
  /-- The client goes (43_remote_bitbang.md R210). -/
  | disconnect
  /-- The instruction word `{addr, 0}` (30_encoding.md R96). -/
  | dtmIdle (addr : Nat)
  /-- The instruction word `{addr, 1}` (30_encoding.md R96). -/
  | dtmRead (addr : Nat)
  /-- The instruction word `{addr, 2}` (30_encoding.md R96). -/
  | dtmWrite (addr : Nat)
  /-- The instruction word `{addr, 3}` (30_encoding.md R96). -/
  | dtmReserved (addr : Nat)
deriving DecidableEq, Repr

end Sys2Proof
end

