-- ==== Sys2Proof/Decode.lean ====
section
/-! DEFINITION. Decoding: the cache spec string (30_encoding.md R81, R82), the instruction word (R96), the client and
response bytes (R99 to R101), and every operation word of the table (R108), total and rejecting by name. AFTER it the
encoder, written from the same rows. Last, the host's reading of a bare table word. -/

namespace Sys2Proof

/-! ### The cache spec string -/

/-- The value of an ASCII decimal digit (30_encoding.md R82). -/
def digit (c : Char) : Option Nat :=
  if 48 ≤ c.toNat ∧ c.toNat ≤ 57 then some (c.toNat - 48) else none

/-- Reads digits on from the value `acc`; `none` at the first character that is no digit. -/
def digits (acc : Nat) : Text → Option Nat
  | [] => some acc
  | c :: cs =>
    match digit c with
    | some d => digits (10 * acc + d) cs
    | none => none

/-- A numeral: a non-empty string of decimal digits, leading zeros allowed (30_encoding.md R82). -/
def numeral : Text → Option Nat
  | [] => none
  | c :: cs => digits 0 (c :: cs)

/-- The fields of a text between its colons. -/
def splitColons : Text → List Text
  | [] => [[]]
  | c :: cs =>
    match c == ':', splitColons cs with
    | true, fs => [] :: fs
    | false, f :: fs => (c :: f) :: fs
    | false, [] => [[c]]

/-- The three numerals `(S, W, B)` of a spec string; `none` when it is malformed (30_encoding.md R81, R82). -/
def parseSpec (t : Text) : Option (Nat × Nat × Nat) :=
  match splitColons t with
  | [s, w, b] =>
    match numeral s, numeral w, numeral b with
    | some s, some w, some b => some (s, w, b)
    | _, _, _ => none
  | _ => none

/-- `isPow2` (00_scope.md R12): 0 is no power of two, 1 is. -/
def isPow2 (n : Nat) : Bool := 2 ^ n.log2 == n

/-! ### Words of the serial registers -/

/-- `trunc_N(v)` (00_scope.md R12). -/
def trunc (n v : Nat) : Nat := v % 2 ^ n

/-- The `op` field, bits 1..0 of an instruction word (30_encoding.md R96). -/
def irOp (w : Nat) : Nat := w % 4

/-- The `addr` field, bits `IR_LEN-1..2` of an instruction word (30_encoding.md R96). -/
def irAddr (p : Params) (w : Nat) : Nat := trunc p.abits (w / 4)

/-- The instruction word `{addr, op}` (30_encoding.md R96). -/
def irWord (addr op : Nat) : Nat := 4 * addr + op

/-- The spec's own layout of the instruction word: 1 is READ, 2 is WRITE, 0 and 3 are idle (30_encoding.md R96). -/
def layoutDecode (p : Params) (w : Nat) : DtmAccess :=
  match irOp w with
  | 1 => .read (irAddr p w)
  | 2 => .write (irAddr p w)
  | _ => .idle

/-- What the machine's `InstrDecode` makes of a word to which its row of the table gives an access: that access, but
where the machine's parameter says otherwise (30_encoding.md R96; log 5). -/
def accessOf (p : Params) (w : Nat) (row : DtmAccess) : DtmAccess :=
  match p.irOverride.lookup w with
  | some d => d
  | none => row

/-- `InstrDecode` (30_encoding.md R96): the layout, but where the machine's parameter says otherwise (log 5). -/
def instrDecode (p : Params) (w : Nat) : DtmAccess := accessOf p w (layoutDecode p w)

/-! ### Client bytes -/

/-- The reference codec (30_encoding.md R100). -/
def referenceDecode (b : Byte) : BbCommand :=
  match b.toNat with
  | 0x30 => .clock false false
  | 0x31 => .clock false true
  | 0x32 => .clock true false
  | 0x33 => .clock true true
  | 0x73 => .sysReset
  | 0x74 => .tapReset
  | _ => .malformed

/-- `BbDecode` (30_encoding.md R99): the reference codec, but where the machine's parameter says otherwise (log 5). -/
def bbDecode (p : Params) (b : Byte) : BbCommand :=
  match p.bbOverride.lookup b with
  | some c => c
  | none => referenceDecode b

/-- The byte that answers a clock command (30_encoding.md R101). -/
def respByte (p : Params) (tdo : Bool) : Byte := if tdo then p.resp1 else p.resp0

/-- The byte of the reference codec for `Clock(tms, tdi)`: `0x30 + 2*tms + tdi` (30_encoding.md R100). -/
def clockByte (tms tdi : Bool) : Byte := BitVec.ofNat 8 (0x30 + 2 * tms.toNat + tdi.toNat)

/-! ### Decoding an operation word -/

/-- What the decoder answers. -/
inductive Decoded
  | ok (i : Instr)
  | reject (r : Reject)
deriving DecidableEq, Repr

/-- The row of a client byte, total on all 256 values (30_encoding.md R99, 43_remote_bitbang.md R200). The four byte
rows are selected by their own bytes, the class row by any other byte that the codec maps to a clock command (log 9). -/
def decodeByte (p : Params) (b : Byte) : Instr :=
  match bbDecode p b with
  | .clock tms tdi =>
    if b = clockByte tms tdi then
      match tms, tdi with
      | false, false => .bbClock0
      | false, true => .bbClock1
      | true, false => .bbClock2
      | true, true => .bbClock3
    else .bbClock tms tdi
  | .sysReset => .bbSysreset
  | .tapReset => .bbTapreset
  | .malformed => .bbMalformed b

/-- The row of a response byte (30_encoding.md R101). -/
def decodeResponse (p : Params) (b : Byte) : Decoded :=
  if b = p.resp0 then .ok .bbResponse0
  else if b = p.resp1 then .ok .bbResponse1
  else .reject .badResponse

/-- The row of an instruction word, by its two low bits (30_encoding.md R96, R108). -/
def decodeIrWord (p : Params) (w : Nat) : Decoded :=
  if w < 2 ^ p.irLen then
    match irOp w with
    | 0 => .ok (.dtmIdle (w / 4))
    | 1 => .ok (.dtmRead (w / 4))
    | 2 => .ok (.dtmWrite (w / 4))
    | _ => .ok (.dtmReserved (w / 4))
  else .reject .irWordTooWide

/-- The row of a clock edge, one per `(state, tms)` pair (30_encoding.md R90, R108). -/
def decodeClock (st : TapState) (tms tdi : Bool) : Instr :=
  match st, tms with
  | .tlr, false => .clockTLR0 tdi
  | .tlr, true => .clockTLR1 tdi
  | .rti, false => .clockRTI0 tdi
  | .rti, true => .clockRTI1 tdi
  | .selDR, false => .clockSelDR0 tdi
  | .selDR, true => .clockSelDR1 tdi
  | .capDR, false => .clockCapDR0 tdi
  | .capDR, true => .clockCapDR1 tdi
  | .shDR, false => .clockShDR0 tdi
  | .shDR, true => .clockShDR1 tdi
  | .ex1DR, false => .clockEx1DR0 tdi
  | .ex1DR, true => .clockEx1DR1 tdi
  | .pauDR, false => .clockPauDR0 tdi
  | .pauDR, true => .clockPauDR1 tdi
  | .ex2DR, false => .clockEx2DR0 tdi
  | .ex2DR, true => .clockEx2DR1 tdi
  | .updDR, false => .clockUpdDR0 tdi
  | .updDR, true => .clockUpdDR1 tdi
  | .selIR, false => .clockSelIR0 tdi
  | .selIR, true => .clockSelIR1 tdi
  | .capIR, false => .clockCapIR0 tdi
  | .capIR, true => .clockCapIR1 tdi
  | .shIR, false => .clockShIR0 tdi
  | .shIR, true => .clockShIR1 tdi
  | .ex1IR, false => .clockEx1IR0 tdi
  | .ex1IR, true => .clockEx1IR1 tdi
  | .pauIR, false => .clockPauIR0 tdi
  | .pauIR, true => .clockPauIR1 tdi
  | .ex2IR, false => .clockEx2IR0 tdi
  | .ex2IR, true => .clockEx2IR1 tdi
  | .updIR, false => .clockUpdIR0 tdi
  | .updIR, true => .clockUpdIR1 tdi

/-- The row of a notification, by its kind (40_cache.md R116). -/
def decodeNotify (h : Nat) (a : Addr) (k : Kind) : Instr :=
  match k with
  | .fetch => .notifyFetch h a
  | .load => .notifyLoad h a
  | .store => .notifyStore h a

/-- The row of an access, by its outcome (30_encoding.md R108). -/
def decodeAccess (c : CacheId) (a : Addr) (isWrite : Bool) (row : AccessRow) : Instr :=
  match row with
  | .hit => .accessHit c a isWrite
  | .miss => .accessMiss c a isWrite
  | .missForward => .accessMissForward c a isWrite

/-- The instruction an operation word stands for: total, rejecting by name. -/
def decode (p : Params) (w : OpWord) : Decoded :=
  match w with
  | .construct c spec label => .ok (.construct c spec label)
  | .attach lower upper => .ok (.attach lower upper)
  | .register h t => .ok (.register h t)
  | .notify h a k => .ok (decodeNotify h a k)
  | .access c a isWrite row => .ok (decodeAccess c a isWrite row)
  | .stats c => .ok (.stats c)
  | .clock st tms tdi => .ok (decodeClock st tms tdi)
  | .byte b => .ok (decodeByte p b)
  | .response b => decodeResponse p b
  | .connect => .ok .connect
  | .disconnect => .ok .disconnect
  | .irWord w => decodeIrWord p w

/-! ### Encoding -/

/-- The decimal digits of a number, most significant first; `fuel` bounds their count. -/
def decimalFrom : Nat → Nat → Text
  | 0, _ => []
  | fuel + 1, n =>
    (if n < 10 then [] else decimalFrom fuel (n / 10)) ++ [Char.ofNat (48 + n % 10)]

/-- The decimal numeral of a number (30_encoding.md R82). -/
def decimal (n : Nat) : Text := decimalFrom (n + 1) n

/-- The spec string `S:W:B` (30_encoding.md R81). -/
def specText (s w b : Nat) : Text := decimal s ++ ':' :: (decimal w ++ ':' :: decimal b)

/-- The operation word of an instruction, row by row of the operation table (client bytes by the reference codec). -/
def encode (p : Params) (i : Instr) : OpWord :=
  match i with
  | .construct c spec label => .construct c spec label
  | .attach lower upper => .attach lower upper
  | .register h t => .register h t
  | .notifyFetch h a => .notify h a .fetch
  | .notifyLoad h a => .notify h a .load
  | .notifyStore h a => .notify h a .store
  | .accessHit c a isWrite => .access c a isWrite .hit
  | .accessMiss c a isWrite => .access c a isWrite .miss
  | .accessMissForward c a isWrite => .access c a isWrite .missForward
  | .stats c => .stats c
  | .clockTLR0 tdi => .clock .tlr false tdi
  | .clockTLR1 tdi => .clock .tlr true tdi
  | .clockRTI0 tdi => .clock .rti false tdi
  | .clockRTI1 tdi => .clock .rti true tdi
  | .clockSelDR0 tdi => .clock .selDR false tdi
  | .clockSelDR1 tdi => .clock .selDR true tdi
  | .clockCapDR0 tdi => .clock .capDR false tdi
  | .clockCapDR1 tdi => .clock .capDR true tdi
  | .clockShDR0 tdi => .clock .shDR false tdi
  | .clockShDR1 tdi => .clock .shDR true tdi
  | .clockEx1DR0 tdi => .clock .ex1DR false tdi
  | .clockEx1DR1 tdi => .clock .ex1DR true tdi
  | .clockPauDR0 tdi => .clock .pauDR false tdi
  | .clockPauDR1 tdi => .clock .pauDR true tdi
  | .clockEx2DR0 tdi => .clock .ex2DR false tdi
  | .clockEx2DR1 tdi => .clock .ex2DR true tdi
  | .clockUpdDR0 tdi => .clock .updDR false tdi
  | .clockUpdDR1 tdi => .clock .updDR true tdi
  | .clockSelIR0 tdi => .clock .selIR false tdi
  | .clockSelIR1 tdi => .clock .selIR true tdi
  | .clockCapIR0 tdi => .clock .capIR false tdi
  | .clockCapIR1 tdi => .clock .capIR true tdi
  | .clockShIR0 tdi => .clock .shIR false tdi
  | .clockShIR1 tdi => .clock .shIR true tdi
  | .clockEx1IR0 tdi => .clock .ex1IR false tdi
  | .clockEx1IR1 tdi => .clock .ex1IR true tdi
  | .clockPauIR0 tdi => .clock .pauIR false tdi
  | .clockPauIR1 tdi => .clock .pauIR true tdi
  | .clockEx2IR0 tdi => .clock .ex2IR false tdi
  | .clockEx2IR1 tdi => .clock .ex2IR true tdi
  | .clockUpdIR0 tdi => .clock .updIR false tdi
  | .clockUpdIR1 tdi => .clock .updIR true tdi
  | .bbClock0 => .byte 0x30#8
  | .bbClock1 => .byte 0x31#8
  | .bbClock2 => .byte 0x32#8
  | .bbClock3 => .byte 0x33#8
  | .bbClock tms tdi => .byte (clockByte tms tdi)
  | .bbSysreset => .byte 0x73#8
  | .bbTapreset => .byte 0x74#8
  | .bbMalformed b => .byte b
  | .bbResponse0 => .response p.resp0
  | .bbResponse1 => .response p.resp1
  | .connect => .connect
  | .disconnect => .disconnect
  | .dtmIdle addr => .irWord (irWord addr 0)
  | .dtmRead addr => .irWord (irWord addr 1)
  | .dtmWrite addr => .irWord (irWord addr 2)
  | .dtmReserved addr => .irWord (irWord addr 3)

/-- The row that a row's own encoding selects: the class row of the clock commands covers the words of the four byte
rows (30_encoding.md R108), every other row has its encoding to itself. -/
def Instr.canonical (i : Instr) : Instr :=
  match i with
  | .bbClock false false => .bbClock0
  | .bbClock false true => .bbClock1
  | .bbClock true false => .bbClock2
  | .bbClock true true => .bbClock3
  | i => i

/-! ### The host's reading of a bare table word -/

/-- The operation word a bare word of spec/opcode_table.json stands for. The table numbers two spaces from bit 0, the
client bytes and the instruction words, and does not say which one a word is of: a word of up to 8 bits below 0x30, and
every longer word, is read as an instruction word, any other as a client byte (DESIGN CHOICE, log 8). -/
def tableOpWord (nbits w : Nat) : OpWord :=
  if nbits ≤ 8 ∧ 0x30 ≤ w then .byte (BitVec.ofNat 8 w) else .irWord w

/-- The instruction the decoder reads from a bare table word, under the reference parameters (log 8). -/
def decodeTableWord (nbits w : Nat) : Option Instr :=
  match decode Params.reference (tableOpWord nbits w) with
  | .ok i => some i
  | .reject _ => none

end Sys2Proof
end

