-- ==== Sys2Proof/Machine/State.lean ====
section
/-! DEFINITION. The state of the block as one record of plain data (10_state.md), why a step can stop, and the state
after reset, which is construction (10_state.md R48, 70_reset_and_hazards.md R250). -/

namespace Sys2Proof.Machine

/-- One entry of a cache's line table, "exactly `{tag, valid, last_used}`" (10_state.md R26 to R28, R34). -/
structure Line where
  valid : Bool
  tag : Nat
  lastUsed : Nat
deriving DecidableEq, Repr

/-- A line as `construct` leaves it (10_state.md R48). -/
def Line.invalid : Line := ⟨false, 0, 0⟩

/-- The line table as the sets that were touched: `(set index, lines of its ways)`, in one canonical form (log 18). -/
abbrev SetTable := List (Nat × List Line)

/-- A cache instance (10_state.md R22 to R30). -/
structure Cache where
  /-- `c.S` (R22). -/
  sets : Nat
  /-- `c.W` (R22). -/
  ways : Nat
  /-- `c.B` (R22). -/
  blockBytes : Nat
  /-- `c.label` (R23). -/
  label : Text
  /-- `c.next`, the miss handler (R24). -/
  next : Option CacheId
  /-- `c.line` (R25), read through `Cache.line`. -/
  table : SetTable
  /-- `c.accesses` (R29). -/
  accesses : Nat
  /-- `c.hits` (R30). -/
  hits : Nat
deriving DecidableEq, Repr

/-- The TAP and DTM registers (10_state.md R36 to R40). `ir` and `sel` are `IR_LEN` bits, `dr` is `DBITS` bits; the
widths are parameters, so the values are naturals and the widths an invariant (log 3). -/
structure Tap where
  state : TapState
  ir : Nat
  dr : Nat
  sel : Nat
  tdo : Bool
deriving DecidableEq, Repr

/-- The TAP and DTM as construction leaves them (10_state.md R48). -/
def Tap.idle (p : Params) : Tap where
  state := .tlr
  ir := p.idleIr
  dr := p.idleDr
  sel := p.idleIr
  tdo := false

/-- The bitbang session (10_state.md R43). -/
structure Session where
  connected : Bool
  lastTdo : Bool
deriving DecidableEq, Repr

/-- The debug module as the DTM sees it: the calls made on it, in order (42_dtm_registers.md R193), and the answers it
is going to give. The model's own fields (log 2). -/
structure DebugPort where
  log : List DmCall
  answers : List Nat
deriving DecidableEq, Repr

/-- What the last operation returned (40_cache.md R118, R126, 41_tap_fsm.md R150). The model's own field (log 13). -/
inductive Returned
  | nothing
  | cache (c : CacheId)
  | hit (hit : Bool)
  | stats (accesses hits : Nat)
  | tdo (tdo : Bool)
deriving DecidableEq, Repr

/-- The whole state: parameters (R49), the cache half (R21 to R33), the debug half (R36 to R43), and the model's own
input, output, result and phase fields (log 1, log 13, log 14, log 15). -/
structure State where
  params : Params
  ic : Option Cache
  dc : Option Cache
  l2 : Option Cache
  /-- `tracers[h]` for each hart slot `h` (10_state.md R33). -/
  tracers : List (List CacheId)
  /-- The TAP and DTM registers; `none` in a machine without a remote debug transport, whose TAP half does not exist
  (70_reset_and_hazards.md R257; log 16). Read through `State.tap`, written through `State.setTap`. -/
  tapHalf : Option Tap
  bb : Session
  dm : DebugPort
  /-- The bytes sent to the client so far (43_remote_bitbang.md R207; log 14). -/
  sent : List Byte
  /-- The events not taken yet, in their merged order (20_memory.md R72, R73; log 1). -/
  inputs : List Input
  ret : Returned
  /-- Whether the run has begun, after which nothing is built or registered any more (43_remote_bitbang.md R216,
  70_reset_and_hazards.md R256 step 5). The model's own field (log 15). -/
  running : Bool
deriving DecidableEq, Repr

/-- Why the machine stops with a fault. -/
inductive Fault
  /-- Raised by `construct` on a bad spec string (60_exceptions.md R221, R222): the source's fatal error, after which no
  machine exists. Safe: nothing is claimed of a run after it. -/
  | configError (cause : ConfigCause)
  /-- Raised by `access` and `notify` when the miss-handler chain does not end, to which the spec gives no meaning
  (40_cache.md R113, 70_reset_and_hazards.md R262). Safe: no run reaches it, since `attach` refuses cycles (log 19). -/
  | cyclicChain
deriving DecidableEq, Repr

/-- Why an operation is not admitted as a step. Each is safe: the model stops where the spec says no step exists. -/
inductive Refusal
  /-- An instruction that has no meaning in this model: raised by `exec` only. -/
  | notModelled (mnemonic : String)
  /-- `construct`, `attach` or `register` after the run has begun (43_remote_bitbang.md R216, 70_reset_and_hazards.md
  R256): raised by these three (log 15). -/
  | runStarted
  /-- An edge or a client in a machine whose TAP half does not exist (70_reset_and_hazards.md R257): raised by the
  `clock` and instruction-word rows and by `connect` (log 16). -/
  | noTapHalf
  /-- No instruction could be read from the input: raised by `step`. -/
  | undecodable (r : Reject)
  /-- An operand outside its range (`Instr.wf`): raised by `step`. -/
  | illFormed
  /-- A row of the operation table in a state that selects another row (30_encoding.md R108): raised by the `access`,
  `clock` and instruction-word rows, never on behalf of `step` (log 6). -/
  | rowNotSelected
  /-- An operation on a cache that was not constructed (10_state.md R21): raised by `attach`, `register`, `access`,
  `stats`. -/
  | noSuchCache
  /-- A second `construct` of one of the three instances, of which there is one each (10_state.md R21): `construct`. -/
  | cacheExists
  /-- `attach` that would close a cycle (40_cache.md R113 step 1): raised by `attach`. -/
  | cyclicAttach
  /-- `attach` of a cache that has a miss handler (40_cache.md R113, D12, U14): raised by `attach`. -/
  | alreadyAttached
  /-- `attach` after the first access (40_cache.md R113, 70_reset_and_hazards.md R262, U14): raised by `attach`. -/
  | attachAfterAccess
  /-- A tracer registered twice on one hart (40_cache.md R115, D35, U14): raised by `register`. -/
  | alreadyRegistered
  /-- `L2` as a tracer (10_state.md R33, D10): raised by `register`. -/
  | notATracer
  /-- A hart index that is no hart (10_state.md R33): raised by `register` and `notify`. -/
  | noSuchHart
  /-- A client byte, a response, a disconnect or a TAP edge with no client (43_remote_bitbang.md R211): raised by the
  rows of the first three, and by `step` for an edge (log 27). -/
  | noSession
  /-- A second `connect` while a client is connected (43_remote_bitbang.md R209, U4): raised by `connect`. -/
  | sessionActive
deriving DecidableEq, Repr

/-- The machine with the given parameters right after construction of the debug half, if it has one, and before any
cache is built (10_state.md R48, 70_reset_and_hazards.md R250, R257). -/
def State.init (p : Params) : State where
  params := p
  ic := none
  dc := none
  l2 := none
  tracers := List.replicate p.nharts []
  tapHalf := if p.remote then some (Tap.idle p) else none
  bb := { connected := false, lastTdo := false }
  dm := { log := [], answers := [] }
  sent := []
  inputs := []
  ret := .nothing
  running := false

/-- The reset state, under the reference parameters (log 4, log 20). -/
def State.reset : State := State.init Params.reference

end Sys2Proof.Machine
end

