-- ==== Sys2Proof/Machine/Operands.lean ====
section
/-! DEFINITION. The operand forms: the split of an address (30_encoding.md R84), which tracer accepts which kind
(R87, R88), and reading and writing the state by instance name and hart index. -/

namespace Sys2Proof.Machine

/-- `offset(c, a)`: computed and never used (30_encoding.md R84, 20_memory.md R66). -/
def Cache.offset (k : Cache) (a : Addr) : Nat := a.toNat % k.blockBytes

/-- `index(c, a)` (30_encoding.md R84). -/
def Cache.index (k : Cache) (a : Addr) : Nat := a.toNat / k.blockBytes % k.sets

/-- `tag(c, a)` (30_encoding.md R84). -/
def Cache.tag (k : Cache) (a : Addr) : Nat := a.toNat / (k.blockBytes * k.sets)

/-- The number of the block that holds a byte address: two addresses are in one block of `c` exactly when these agree
(30_encoding.md R85 (iv)). -/
def Cache.block (k : Cache) (a : Addr) : Nat := a.toNat / k.blockBytes

/-- The first address of the block at a set index and tag (30_encoding.md R85 (iv)). -/
def Cache.blockBase (k : Cache) (index tag : Nat) : Nat := (tag * k.sets + index) * k.blockBytes

/-- Whether a registered tracer takes a kind, and with which `is_write` (30_encoding.md R87, R88, 40_cache.md R116):
`IC` takes fetches, `DC` takes loads and stores, anything else nothing. -/
def accepts (t : CacheId) (k : Kind) : Option Bool :=
  match t, k with
  | .ic, .fetch => some false
  | .dc, .load => some false
  | .dc, .store => some true
  | _, _ => none

/-- The instance of a name, if it was constructed (10_state.md R21). -/
def State.cache (s : State) (c : CacheId) : Option Cache :=
  match c with
  | .ic => s.ic
  | .dc => s.dc
  | .l2 => s.l2

/-- Writes the instance of a name. -/
def State.setCache (s : State) (c : CacheId) (k : Cache) : State :=
  match c with
  | .ic => { s with ic := some k }
  | .dc => { s with dc := some k }
  | .l2 => { s with l2 := some k }

/-- Records what an operation returns (log 13). -/
def State.withRet (s : State) (r : Returned) : State := { s with ret := r }

/-- The TAP and DTM registers of a machine that has them. Where the TAP half does not exist no operation reads this. -/
def State.tap (s : State) : Tap := s.tapHalf.getD (Tap.idle s.params)

/-- Writes the TAP registers. -/
def State.setTap (s : State) (t : Tap) : State := { s with tapHalf := some t }

/-- Writes the session. -/
def State.setSession (s : State) (b : Session) : State := { s with bb := b }

/-- Writes the debug port. -/
def State.setDm (s : State) (d : DebugPort) : State := { s with dm := d }

/-- Writes `tracers[h]` (40_cache.md R115). -/
def State.setTracers (s : State) (h : Nat) (ts : List CacheId) : State := { s with tracers := s.tracers.set h ts }

/-- Sends one byte to the client (20_memory.md R63). -/
def State.send (s : State) (b : Byte) : State := { s with sent := s.sent ++ [b] }

/-- Writes the inputs that are still to be taken. -/
def State.withInputs (s : State) (xs : List Input) : State := { s with inputs := xs }

/-- Whether an input belongs to the run: everything but the orchestrator's three building calls and the query `stats`,
which is admitted "at any time" (43_remote_bitbang.md R216, 60_exceptions.md R237; log 15). -/
def startsRun (x : Input) : Bool :=
  match x with
  | .construct _ _ _ => false
  | .attach _ _ => false
  | .register _ _ => false
  | .stats _ => false
  | .notify _ _ _ => true
  | .access _ _ _ => true
  | .clock _ _ => true
  | .byte _ => true
  | .connect => true
  | .disconnect => true
  | .instrEdge => true

/-- The state in which an input is executed: the input is taken off, and the first input of the run begins it
(70_reset_and_hazards.md R256 step 5; log 15). -/
def State.take (s : State) (x : Input) (rest : List Input) : State :=
  { s with inputs := rest, running := s.running || startsRun x }

end Sys2Proof.Machine
end

