-- ==== Sys2Proof/Machine/Flags.lean ====
section
/-! DEFINITION. The one-bit status of the block (10_state.md R44) and the arithmetic that sets it: the scan for a valid
matching line, the victim choice, and the bit a shift register gives out. -/

namespace Sys2Proof.Machine

/-- The way of a set that holds a tag: "a valid line whose tag matches" (40_cache.md R119). An invalid line never
matches. -/
def findWay (lines : List Line) (tag : Nat) : Option Nat :=
  lines.findIdx? fun l => l.valid && l.tag == tag

/-- The victim way: "the line in the set with the smallest recency counter; ties broken by lowest way index", over all
ways, valid or not (40_cache.md R121): the lowest way whose stamp is at most every stamp of the set. -/
def victimWay (lines : List Line) : Nat :=
  lines.findIdx fun l => lines.all fun l' => decide (l.lastUsed ≤ l'.lastUsed)

/-- The bit an `n`-bit register gives out on a shift, its high bit (42_dtm_registers.md R175, R176). -/
def highBit (n v : Nat) : Bool := v.testBit (n - 1)

/-- An `n`-bit register after a shift: `trunc_n((v << 1) | tdi)` (42_dtm_registers.md R175, R176). -/
def shiftIn (n v : Nat) (tdi : Bool) : Nat := trunc n ((v <<< 1) ||| tdi.toNat)

end Sys2Proof.Machine
end

