-- ==== Sys2Proof/Machine/Ops.lean ====
section
/-! DEFINITION. The shared operations: the line table, `access` and its forwarding chain (40_cache.md R118 to R123), the
parts of `clock` (41_tap_fsm.md R150, 42_dtm_registers.md R175 to R183), the debug-module calls (R190 to R193), the two
error operations (60_exceptions.md R221, R224), and what an input is to the state. -/

namespace Sys2Proof.Machine

/-- What a step or an operation answers. -/
abbrev Result := Host.Outcome State Fault Refusal

/-- Goes on from a next state; a fault or a refusal stays. -/
def andThen (o : Result) (f : State → Result) : Result :=
  match o with
  | .next s => f s
  | .fault r => .fault r
  | .refused r => .refused r

/-! ### Errors -/

/-- `raise ConfigError(cause)` (60_exceptions.md R221, R231): nothing is saved and no operation can follow, so the
outcome carries the cause and no state (log 11). -/
def raiseConfigError (cause : ConfigCause) : Result := .fault (.configError cause)

/-- `ignore TransportError(cause)` (60_exceptions.md R224): a malformed byte changes nothing, a disconnect drops the
session; service goes on. There is no return operation, since nothing was saved (R233). -/
def ignoreTransportError (cause : TransportCause) (s : State) : State :=
  match cause with
  | .malformedByte => s
  | .clientDisconnect => s.setSession { connected := false, lastTdo := false }

/-! ### The line table -/

/-- The lines of a set; `blank` where the table lists none. -/
def readSet (blank : List Line) : SetTable → Nat → List Line
  | [], _ => blank
  | (k, v) :: t, i => if k = i then v else readSet blank t i

/-- Writes the lines of a set and keeps the canonical form. -/
def writeSet (blank : List Line) : SetTable → Nat → List Line → SetTable
  | [], i, v => if v = blank then [] else [(i, v)]
  | (k, u) :: t, i, v =>
    if i < k then (if v = blank then (k, u) :: t else (i, v) :: (k, u) :: t)
    else if i = k then (if v = blank then t else (i, v) :: t)
    else (k, u) :: writeSet blank t i v

/-- The canonical form of a line table: set indexes strictly rising, and no entry equal to what an unlisted set reads as
(log 18). -/
abbrev SetTable.wf (blank : List Line) (t : SetTable) : Prop :=
  t.Pairwise (fun x y => x.1 < y.1) ∧ ∀ e ∈ t, e.2 ≠ blank

/-- A set of a cache that was never written: `W` invalid lines (10_state.md R48). -/
def Cache.blankSet (k : Cache) : List Line := List.replicate k.ways Line.invalid

/-- The lines of set `i`. -/
def Cache.set (k : Cache) (i : Nat) : List Line := readSet k.blankSet k.table i

/-- `c.line[s][w]` (10_state.md R25). -/
def Cache.line (k : Cache) (s w : Nat) : Line := (k.set s).getD w Line.invalid

/-- Writes `c.line[s][w]`. -/
def Cache.setLine (k : Cache) (s w : Nat) (l : Line) : Cache :=
  { k with table := writeSet k.blankSet k.table s ((k.set s).set w l) }

/-- A new instance (40_cache.md R110 step 5). -/
def Cache.fresh (s w b : Nat) (label : Text) : Cache where
  sets := s
  ways := w
  blockBytes := b
  label := label
  next := none
  table := []
  accesses := 0
  hits := 0

/-! ### One access -/

/-- The way that holds an address's block, if any: the scan of 40_cache.md R119. -/
def Cache.lookup (k : Cache) (a : Addr) : Option Nat := findWay (k.set (k.index a)) (k.tag a)

/-- The hit path (40_cache.md R118 steps 1 and 3, R120): the access and the hit are counted and the line becomes the
most recently used. -/
def Cache.hitAt (k : Cache) (a : Addr) (w : Nat) : Cache :=
  { k.setLine (k.index a) w { k.line (k.index a) w with lastUsed := k.accesses + 1 } with
    accesses := k.accesses + 1
    hits := k.hits + 1 }

/-- The miss path (40_cache.md R118 steps 1 and 4, R121): the access is counted, the victim line takes the new tag and
becomes the most recently used. -/
def Cache.install (k : Cache) (a : Addr) : Cache :=
  { k.setLine (k.index a) (victimWay (k.set (k.index a)))
      { valid := true, tag := k.tag a, lastUsed := k.accesses + 1 } with
    accesses := k.accesses + 1 }

/-- One access to one instance, its forwarding aside: the new instance and whether it hit (40_cache.md R118). -/
def Cache.touch (k : Cache) (a : Addr) : Cache × Bool :=
  match k.lookup a with
  | some w => (k.hitAt a w, true)
  | none => (k.install a, false)

/-- `access(c, address, is_write)` with the forwarding of 40_cache.md R122, its result ignored. `fuel` bounds the
levels; a chain that does not end has no meaning (R113) and is a fault (log 19). `is_write` is passed on and never read
(R124). -/
def accessChain : Nat → CacheId → Addr → Bool → State → Result
  | 0, _, _, _, _ => .fault .cyclicChain
  | fuel + 1, c, a, isWrite, s =>
    match s.cache c with
    | none => .refused .noSuchCache
    | some k =>
      match k.touch a with
      | (k', true) => .next (s.setCache c k')
      | (k', false) =>
        match k.next with
        | none => .next (s.setCache c k')
        | some u => accessChain fuel u a isWrite (s.setCache c k')

/-- The levels a chain can have: the machine has at most three instances (10_state.md R21). -/
def maxLevels : Nat := 3

/-- Whether an access would hit in an instance (the result of 40_cache.md R118). -/
def wouldHit (s : State) (c : CacheId) (a : Addr) : Bool :=
  match s.cache c with
  | some k => (k.lookup a).isSome
  | none => false

/-- The operation `access(c, address, is_write) -> hit` (40_cache.md R118). -/
def access (c : CacheId) (a : Addr) (isWrite : Bool) (s : State) : Result :=
  andThen (accessChain maxLevels c a isWrite s) fun t => .next (t.withRet (.hit (wouldHit s c a)))

/-- The row of the operation table that the state selects for an access (30_encoding.md R108). -/
def accessRow (s : State) (c : CacheId) (a : Addr) : Option AccessRow :=
  match s.cache c with
  | none => none
  | some k =>
    match k.lookup a, k.next with
    | some _, _ => some .hit
    | none, none => some .miss
    | none, some _ => some .missForward

/-- The accesses of one notification: each registered tracer in order takes the kinds it accepts (40_cache.md R116); the
results go nowhere (R117). -/
def notifyAll (a : Addr) (k : Kind) : List CacheId → State → Result
  | [], s => .next s
  | t :: ts, s =>
    match accepts t k with
    | some isWrite => andThen (access t a isWrite s) (notifyAll a k ts)
    | none => notifyAll a k ts s

/-- `notify(h, address, kind)`, which returns nothing (40_cache.md R116, R117). -/
def notify (h : Nat) (a : Addr) (k : Kind) (s : State) : Result :=
  match s.tracers[h]? with
  | none => .refused .noSuchHart
  | some ts => andThen (notifyAll a k ts s) fun t => .next (t.withRet .nothing)

/-- Whether `target` is on the miss-handler chain that begins at `c` (40_cache.md R113 step 1), `fuel` levels deep. -/
def chainReaches (s : State) : Nat → CacheId → CacheId → Bool
  | 0, _, _ => false
  | fuel + 1, c, target =>
    c == target ||
      match (s.cache c).bind Cache.next with
      | some u => chainReaches s fuel u target
      | none => false

/-! ### The debug module -/

/-- `DmRead(a) -> d` (42_dtm_registers.md R190): the debug module's next answer, of `DBITS` bits, and the call recorded.
Where no answer is scripted it is a free value (log 2). -/
def dmRead (a : Nat) (s : State) : Nat × State :=
  let raw :=
    match s.dm.answers with
    | d :: _ => d
    | [] => Config.dmData s.params s.dm.log a
  (trunc s.params.dbits raw, s.setDm { log := s.dm.log ++ [.read a], answers := s.dm.answers.tail })

/-- `DmWrite(a, d)`, its status discarded (42_dtm_registers.md R181, R191). -/
def dmWrite (a d : Nat) (s : State) : State := s.setDm { s.dm with log := s.dm.log ++ [.write a d] }

/-- `DmReset()` (42_dtm_registers.md R192). -/
def dmReset (s : State) : State := s.setDm { s.dm with log := s.dm.log ++ [.reset] }

/-! ### The parts of a TAP edge -/

/-- The next-state table of 30_encoding.md R90 (log 17). -/
def nextTap (st : TapState) (tms : Bool) : TapState :=
  match st, tms with
  | .tlr, false => .rti
  | .tlr, true => .tlr
  | .rti, false => .rti
  | .rti, true => .selDR
  | .selDR, false => .capDR
  | .selDR, true => .selIR
  | .capDR, false => .shDR
  | .capDR, true => .ex1DR
  | .shDR, false => .shDR
  | .shDR, true => .ex1DR
  | .ex1DR, false => .pauDR
  | .ex1DR, true => .updDR
  | .pauDR, false => .pauDR
  | .pauDR, true => .ex2DR
  | .ex2DR, false => .shDR
  | .ex2DR, true => .updDR
  | .updDR, false => .rti
  | .updDR, true => .selDR
  | .selIR, false => .capIR
  | .selIR, true => .tlr
  | .capIR, false => .shIR
  | .capIR, true => .ex1IR
  | .shIR, false => .shIR
  | .shIR, true => .ex1IR
  | .ex1IR, false => .pauIR
  | .ex1IR, true => .updIR
  | .pauIR, false => .pauIR
  | .pauIR, true => .ex2IR
  | .ex2IR, false => .shIR
  | .ex2IR, true => .updIR
  | .updIR, false => .rti
  | .updIR, true => .selDR

/-- Step 1 of `clock`, by the starting state (41_tap_fsm.md R150). -/
def shiftActionOf (st : TapState) : ShiftAction :=
  match st with
  | .shDR => .dr
  | .shIR => .ir
  | _ => .none

/-- Step 3 of `clock`, by the new state (41_tap_fsm.md R150). -/
def entryActionOf (st : TapState) : EntryAction :=
  match st with
  | .tlr => .reset
  | .capDR => .captureDR
  | .capIR => .captureIR
  | .updIR => .latchIR
  | .updDR => .updateDR
  | _ => .none

/-- The shift of DR or IR, or none (42_dtm_registers.md R175 to R177). -/
def runShift (act : ShiftAction) (tdi : Bool) (s : State) : State :=
  match act with
  | .none => s
  | .dr => s.setTap { s.tap with
      tdo := highBit s.params.dbits s.tap.dr
      dr := shiftIn s.params.dbits s.tap.dr tdi }
  | .ir => s.setTap { s.tap with
      tdo := highBit s.params.irLen s.tap.ir
      ir := shiftIn s.params.irLen s.tap.ir tdi }

/-- The reset action of Test-Logic-Reset: IR, DR and the selected instruction, not `tdo` (42_dtm_registers.md R183). -/
def resetRegs (s : State) : State :=
  s.setTap { s.tap with ir := s.params.idleIr, dr := s.params.idleDr, sel := s.params.idleIr }

/-- The DR capture for an instruction: one `DmRead` for READ and for WRITE, the idle value otherwise
(42_dtm_registers.md R178). -/
def captureDR (acc : DtmAccess) (s : State) : State :=
  match acc with
  | .idle => s.setTap { s.tap with dr := s.params.idleDr }
  | .read a => (dmRead a s).2.setTap { s.tap with dr := (dmRead a s).1 }
  | .write a => (dmRead a s).2.setTap { s.tap with dr := (dmRead a s).1 }

/-- The DR update for an instruction: the access record is committed, status and data are dropped
(42_dtm_registers.md R181). -/
def updateDR (acc : DtmAccess) (s : State) : State :=
  match acc with
  | .idle => s
  | .read a => (dmRead a s).2
  | .write a => dmWrite a s.tap.dr s

/-- Step 3 of `clock` (42_dtm_registers.md R178 to R183), for the selected instruction. -/
def runEntry (act : EntryAction) (s : State) : State :=
  match act with
  | .none => s
  | .reset => resetRegs s
  | .captureDR => captureDR (instrDecode s.params s.tap.sel) s
  | .captureIR => s.setTap { s.tap with ir := s.tap.sel }
  | .latchIR => s.setTap { s.tap with sel := s.tap.ir }
  | .updateDR => updateDR (instrDecode s.params s.tap.sel) s

/-- Moves the TAP to a state. -/
def State.setTapState (s : State) (st : TapState) : State := s.setTap { s.tap with state := st }

/-- The operation `clock(tms, tdi)`, its four steps in order (41_tap_fsm.md R150); it returns the `tdo` of the state it
leaves. -/
def clock (tms tdi : Bool) (s : State) : State :=
  let st' := nextTap s.tap.state tms
  runEntry (entryActionOf st') ((runShift (shiftActionOf s.tap.state) tdi s).setTapState st')

/-- An operation of the TAP half, refused by a machine that has none (70_reset_and_hazards.md R257; log 16). -/
def withTapHalf (s : State) (o : Result) : Result := if s.tapHalf.isSome then o else .refused .noTapHalf

/-! ### What an input is to the state -/

/-- The edge on which the TAP acts on an instruction word, from a given state: its `tms` and the word. Update-IR latches
the word in IR; Capture-DR and Update-DR act on the selected one (30_encoding.md R97, 42_dtm_registers.md R178 to R181).
No such edge starts in a shift state, so its `tdi` has no effect. -/
def instrEdge (t : Tap) : Option (Bool × Nat) :=
  match t.state with
  | .ex1IR => some (true, t.ir)
  | .ex2IR => some (true, t.ir)
  | .selDR => some (false, t.sel)
  | .ex1DR => some (true, t.sel)
  | .ex2DR => some (true, t.sel)
  | _ => none

/-- The operation word of an input: a bare edge is a row of the present TAP state, or of the instruction word it acts
on, and a direct access is the row that its outcome selects (30_encoding.md R108). `none` where no row is selected. -/
def observe (s : State) (x : Input) : Option OpWord :=
  match x with
  | .construct c spec label => some (.construct c spec label)
  | .attach lower upper => some (.attach lower upper)
  | .register h t => some (.register h t)
  | .notify h a k => some (.notify h a k)
  | .access c a isWrite =>
    match accessRow s c a with
    | some row => some (.access c a isWrite row)
    | none => none
  | .stats c => some (.stats c)
  | .clock tms tdi => some (.clock s.tap.state tms tdi)
  | .byte b => some (.byte b)
  | .connect => some .connect
  | .disconnect => some .disconnect
  | .instrEdge => (instrEdge s.tap).map fun e => .irWord e.2

/-- Whether an event can reach the block: "while no client is connected the TAP receives no edges"
(43_remote_bitbang.md R211; log 27). The operation `clock` itself is total (41_tap_fsm.md R150), so `step` asks this of
the event. A client byte and a `disconnect` are asked the same by their own rows. -/
def State.admits (s : State) (x : Input) : Bool :=
  match x with
  | .construct _ _ _ => true
  | .attach _ _ => true
  | .register _ _ => true
  | .notify _ _ _ => true
  | .access _ _ _ => true
  | .stats _ => true
  | .clock _ _ => s.bb.connected
  | .byte _ => true
  | .connect => true
  | .disconnect => true
  | .instrEdge => s.bb.connected

/-- The instruction the machine reads from an input. -/
def fetch (s : State) (x : Input) : Decoded :=
  match observe s x with
  | some w => decode s.params w
  | none => .reject .noRowSelected

end Sys2Proof.Machine
end

