-- ==== Sys2Proof/Machine/Access.lean ====
section
/-! DEFINITION. The three rows of `access`, each written from its own row, and `stats` (40_cache.md R118 to R126). A row
in a state that selects another row is no step (30_encoding.md R108; log 6). -/

namespace Sys2Proof.Machine

/-- `access` that hits (40_cache.md R120): the next level is not consulted. -/
def execAccessHit (c : CacheId) (a : Addr) (_isWrite : Bool) (s : State) : Result :=
  match s.cache c with
  | none => .refused .noSuchCache
  | some k =>
    match k.lookup a with
    | some w => .next ((s.setCache c (k.hitAt a w)).withRet (.hit true))
    | none => .refused .rowNotSelected

/-- `access` that misses in a last level (40_cache.md R121, R123). -/
def execAccessMiss (c : CacheId) (a : Addr) (_isWrite : Bool) (s : State) : Result :=
  match s.cache c with
  | none => .refused .noSuchCache
  | some k =>
    match k.lookup a, k.next with
    | none, none => .next ((s.setCache c (k.install a)).withRet (.hit false))
    | _, _ => .refused .rowNotSelected

/-- `access` that misses and forwards the same access, after the install, its result ignored (40_cache.md R122). -/
def execAccessMissForward (c : CacheId) (a : Addr) (isWrite : Bool) (s : State) : Result :=
  match s.cache c with
  | none => .refused .noSuchCache
  | some k =>
    match k.lookup a, k.next with
    | none, some u =>
      andThen (accessChain (maxLevels - 1) u a isWrite (s.setCache c (k.install a)))
        fun t => .next (t.withRet (.hit false))
    | _, _ => .refused .rowNotSelected

/-- `stats(c) -> (accesses, hits)`; it changes no state (40_cache.md R126). -/
def execStats (c : CacheId) (s : State) : Result :=
  match s.cache c with
  | none => .refused .noSuchCache
  | some k => .next (s.withRet (.stats k.accesses k.hits))

end Sys2Proof.Machine
end

