-- ==== Sys2Proof/Machine/Bitbang.lean ====
section
/-! DEFINITION. The remote-bitbang command layer: the client bytes, the response bytes, `connect` and `disconnect`
(43_remote_bitbang.md R200 to R210). -/

namespace Sys2Proof.Machine

/-- A client byte or a response exists only while a client is connected (43_remote_bitbang.md R211; log 12). -/
def inSession (s : State) (t : State) : Result := if s.bb.connected then .next t else .refused .noSession

/-- Sends the response byte for a `tdo` (30_encoding.md R101). -/
def respond (tdo : Bool) (s : State) : State := s.send (respByte s.params tdo)

/-- `Clock(tms, tdi)`: one TAP edge with every side effect it has, `bb.last_tdo`, and exactly one response byte
(43_remote_bitbang.md R201). -/
def bbClock (tms tdi : Bool) (s : State) : State :=
  let t := clock tms tdi s
  (respond t.tap.tdo (t.setSession { t.bb with lastTdo := t.tap.tdo })).withRet .nothing

/-- Sets `bb.last_tdo` to 0, as either reset command does (43_remote_bitbang.md R204, R205). -/
def clearLastTdo (s : State) : State := s.setSession { s.bb with lastTdo := false }

/-- `'0'` (43_remote_bitbang.md R201). -/
def execBbClock0 (s : State) : Result := inSession s (bbClock false false s)

/-- `'1'` (43_remote_bitbang.md R201). -/
def execBbClock1 (s : State) : Result := inSession s (bbClock false true s)

/-- `'2'` (43_remote_bitbang.md R201). -/
def execBbClock2 (s : State) : Result := inSession s (bbClock true false s)

/-- `'3'` (43_remote_bitbang.md R201). -/
def execBbClock3 (s : State) : Result := inSession s (bbClock true true s)

/-- The class row of the clock commands (43_remote_bitbang.md R201). -/
def execBbClock (tms tdi : Bool) (s : State) : Result := inSession s (bbClock tms tdi s)

/-- `SysReset`: `DmReset()`, the TAP and the caches untouched, nothing sent (43_remote_bitbang.md R204). -/
def execBbSysreset (s : State) : Result := inSession s ((clearLastTdo (dmReset s)).withRet .nothing)

/-- `TapReset`: the effect of arriving in Test-Logic-Reset, through no other state; no debug-module call, `tap.tdo`
kept, nothing sent (43_remote_bitbang.md R205). -/
def execBbTapreset (s : State) : Result :=
  inSession s ((clearLastTdo (resetRegs (s.setTapState .tlr))).withRet .nothing)

/-- A malformed byte: ignored (43_remote_bitbang.md R206). -/
def execBbMalformed (_b : Byte) (s : State) : Result :=
  inSession s ((ignoreTransportError .malformedByte s).withRet .nothing)

/-- The response byte for `tdo = 0` is sent (30_encoding.md R101; log 10). -/
def execBbResponse0 (s : State) : Result := inSession s ((respond false s).withRet .nothing)

/-- The response byte for `tdo = 1` is sent (30_encoding.md R101; log 10). -/
def execBbResponse1 (s : State) : Result := inSession s ((respond true s).withRet .nothing)

/-- `connect`: `bb.connected <- true`, `bb.last_tdo <- 0`, the TAP as the last client left it. While a client is
connected no second one is (43_remote_bitbang.md R209, U4; log 12), and without the TAP half there is no server to
connect to (70_reset_and_hazards.md R257). -/
def execConnect (s : State) : Result :=
  if s.bb.connected then .refused .sessionActive
  else withTapHalf s (.next ((s.setSession { connected := true, lastTdo := false }).withRet .nothing))

/-- `disconnect`: the session state is dropped, the TAP kept (43_remote_bitbang.md R210). -/
def execDisconnect (s : State) : Result :=
  inSession s ((ignoreTransportError .clientDisconnect s).withRet .nothing)

end Sys2Proof.Machine
end

