-- ==== Sys2Proof/Machine/Build.lean ====
section
/-! DEFINITION. Building the hierarchy: `construct`, `attach`, `register` (40_cache.md R110 to R115), which
the orchestrator calls before the run and nobody during it (43_remote_bitbang.md R216, 70_reset_and_hazards.md R256; log
15). -/

namespace Sys2Proof.Machine

/-- A call of the orchestrator, admitted only before the run (43_remote_bitbang.md R216). -/
def beforeRun (s : State) (o : Result) : Result := if s.running then .refused .runStarted else o

/-- `construct(spec, label)` (40_cache.md R110), its checks in order (60_exceptions.md R230). The machine has one
instance of each name (10_state.md R21), so building it again is no step (log 12). -/
def execConstruct (c : CacheId) (spec label : Text) (s : State) : Result :=
  beforeRun s <|
    match parseSpec spec with
    | none => raiseConfigError .malformedCacheSpec
    | some (sets, ways, block) =>
      if !isPow2 sets || !isPow2 block then raiseConfigError .nonPowerOfTwoGeometry
      else if ways = 0 then raiseConfigError .zeroWays
      else
        match s.cache c with
        | some _ => .refused .cacheExists
        | none => .next ((s.setCache c (Cache.fresh sets ways block label)).withRet (.cache c))

/-- `attach(lower, upper)` (40_cache.md R113) with the preconditions of D12: both constructed, no cycle, `lower` has no
miss handler and has not been accessed (70_reset_and_hazards.md R262, U14; log 12). -/
def execAttach (lower upper : CacheId) (s : State) : Result :=
  beforeRun s <|
    match s.cache lower, s.cache upper with
    | some k, some _ =>
      if upper = lower ∨ chainReaches s maxLevels upper lower = true then .refused .cyclicAttach
      else if k.next ≠ none then .refused .alreadyAttached
      else if k.accesses ≠ 0 then .refused .attachAfterAccess
      else .next ((s.setCache lower { k with next := some upper }).withRet .nothing)
    | _, _ => .refused .noSuchCache

/-- `register(h, t)`: `tracers[h] <- tracers[h] ++ [t]` (40_cache.md R115), at most once per hart (D35), for `IC` and
`DC` only (D10). -/
def execRegister (h : Nat) (t : CacheId) (s : State) : Result :=
  beforeRun s <|
    if t = .l2 then .refused .notATracer
    else
      match s.tracers[h]?, s.cache t with
      | none, _ => .refused .noSuchHart
      | some _, none => .refused .noSuchCache
      | some ts, some _ =>
        if t ∈ ts then .refused .alreadyRegistered
        else .next ((s.setTracers h (ts ++ [t])).withRet .nothing)

end Sys2Proof.Machine
end

