-- ==== Sys2Proof/Machine/Dtm.lean ====
section
/-! DEFINITION. The instruction words of the DTM (30_encoding.md R96, R97). A word has no effect of its own: it acts on
the TAP edges that enter Update-IR, Capture-DR and Update-DR, and a row of an instruction word is such an edge, written
from the word's side (log 7). That it is the edge of the `clock` row of the same state is a statement of its own. -/

namespace Sys2Proof.Machine

/-- An edge that shifts nothing: the move, the action in the new state, and the held `tdo` (41_tap_fsm.md R150). -/
def edgeInto (st' : TapState) (act : State → State) (s : State) : Result :=
  let t := act (s.setTapState st')
  .next (t.withRet (.tdo t.tap.tdo))

/-- The row of a word to which the table gives an access: the edge into Update-IR with the word in IR latches it
(42_dtm_registers.md R180); with the word selected the edge into Capture-DR loads DR for its access (R178) and the edge
into Update-DR commits it (R181). From any other state, or with another word there, no edge acts on the word, and the
row is not the one the state selects (log 6). -/
def dtmRow (addr op : Nat) (access : DtmAccess) (s : State) : Result :=
  withTapHalf s <|
    let w := irWord addr op
    let acc := accessOf s.params w access
    match s.tap.state with
    | .ex1IR => if s.tap.ir = w then edgeInto .updIR (runEntry .latchIR) s else .refused .rowNotSelected
    | .ex2IR => if s.tap.ir = w then edgeInto .updIR (runEntry .latchIR) s else .refused .rowNotSelected
    | .selDR => if s.tap.sel = w then edgeInto .capDR (captureDR acc) s else .refused .rowNotSelected
    | .ex1DR => if s.tap.sel = w then edgeInto .updDR (updateDR acc) s else .refused .rowNotSelected
    | .ex2DR => if s.tap.sel = w then edgeInto .updDR (updateDR acc) s else .refused .rowNotSelected
    | _ => .refused .rowNotSelected

/-- `dtm.instr.IDLE`: Capture-DR loads the idle value, Update-DR does nothing (42_dtm_registers.md R178). -/
def execDtmIdle (addr : Nat) (s : State) : Result := dtmRow addr 0 .idle s

/-- `dtm.instr.READ`: Capture-DR reads the register, Update-DR reads it and drops the data (42_dtm_registers.md R178,
R181). -/
def execDtmRead (addr : Nat) (s : State) : Result := dtmRow addr 1 (.read addr) s

/-- `dtm.instr.WRITE`: Capture-DR reads the register, Update-DR writes DR to it (42_dtm_registers.md R178, R181). -/
def execDtmWrite (addr : Nat) (s : State) : Result := dtmRow addr 2 (.write addr) s

/-- `dtm.instr.RESERVED`: latched like any word, behaves as IDLE (42_dtm_registers.md R180, U6). -/
def execDtmReserved (addr : Nat) (s : State) : Result := dtmRow addr 3 .idle s

end Sys2Proof.Machine
end

