-- ==== Sys2Proof/Machine/Tap.lean ====
section
/-! DEFINITION. The 32 `clock` rows of the operation table, each written from its own row: the state it starts in, its
shift action, its next state and its entry action (41_tap_fsm.md R151 to R166). That they are the master operation
`clock` of R150 is a statement of its own, not a definition. -/

namespace Sys2Proof.Machine

/-- One `clock` row: in the state the row starts in, the shift, the move, the entry action, and the returned `tdo`
(41_tap_fsm.md R150). In any other state the row is not the one the state selects (30_encoding.md R108; log 6). A
machine without the TAP half has no edges (70_reset_and_hazards.md R257). -/
def clockRow (st : TapState) (sh : ShiftAction) (st' : TapState) (en : EntryAction) (tdi : Bool) (s : State) : Result :=
  withTapHalf s <|
    if s.tap.state = st then
      let t := runEntry en ((runShift sh tdi s).setTapState st')
      .next (t.withRet (.tdo t.tap.tdo))
    else .refused .rowNotSelected

/-- `clock.TLR.tms0` (41_tap_fsm.md R151). -/
def execClockTLR0 (tdi : Bool) (s : State) : Result :=
  clockRow .tlr .none .rti .none tdi s

/-- `clock.TLR.tms1` (41_tap_fsm.md R151). -/
def execClockTLR1 (tdi : Bool) (s : State) : Result :=
  clockRow .tlr .none .tlr .reset tdi s

/-- `clock.RTI.tms0` (41_tap_fsm.md R152). -/
def execClockRTI0 (tdi : Bool) (s : State) : Result :=
  clockRow .rti .none .rti .none tdi s

/-- `clock.RTI.tms1` (41_tap_fsm.md R152). -/
def execClockRTI1 (tdi : Bool) (s : State) : Result :=
  clockRow .rti .none .selDR .none tdi s

/-- `clock.SelDR.tms0` (41_tap_fsm.md R153). -/
def execClockSelDR0 (tdi : Bool) (s : State) : Result :=
  clockRow .selDR .none .capDR .captureDR tdi s

/-- `clock.SelDR.tms1` (41_tap_fsm.md R153). -/
def execClockSelDR1 (tdi : Bool) (s : State) : Result :=
  clockRow .selDR .none .selIR .none tdi s

/-- `clock.CapDR.tms0` (41_tap_fsm.md R154). -/
def execClockCapDR0 (tdi : Bool) (s : State) : Result :=
  clockRow .capDR .none .shDR .none tdi s

/-- `clock.CapDR.tms1` (41_tap_fsm.md R154). -/
def execClockCapDR1 (tdi : Bool) (s : State) : Result :=
  clockRow .capDR .none .ex1DR .none tdi s

/-- `clock.ShDR.tms0` (41_tap_fsm.md R155). -/
def execClockShDR0 (tdi : Bool) (s : State) : Result :=
  clockRow .shDR .dr .shDR .none tdi s

/-- `clock.ShDR.tms1` (41_tap_fsm.md R155). -/
def execClockShDR1 (tdi : Bool) (s : State) : Result :=
  clockRow .shDR .dr .ex1DR .none tdi s

/-- `clock.Ex1DR.tms0` (41_tap_fsm.md R156). -/
def execClockEx1DR0 (tdi : Bool) (s : State) : Result :=
  clockRow .ex1DR .none .pauDR .none tdi s

/-- `clock.Ex1DR.tms1` (41_tap_fsm.md R156). -/
def execClockEx1DR1 (tdi : Bool) (s : State) : Result :=
  clockRow .ex1DR .none .updDR .updateDR tdi s

/-- `clock.PauDR.tms0` (41_tap_fsm.md R157). -/
def execClockPauDR0 (tdi : Bool) (s : State) : Result :=
  clockRow .pauDR .none .pauDR .none tdi s

/-- `clock.PauDR.tms1` (41_tap_fsm.md R157). -/
def execClockPauDR1 (tdi : Bool) (s : State) : Result :=
  clockRow .pauDR .none .ex2DR .none tdi s

/-- `clock.Ex2DR.tms0` (41_tap_fsm.md R158). -/
def execClockEx2DR0 (tdi : Bool) (s : State) : Result :=
  clockRow .ex2DR .none .shDR .none tdi s

/-- `clock.Ex2DR.tms1` (41_tap_fsm.md R158). -/
def execClockEx2DR1 (tdi : Bool) (s : State) : Result :=
  clockRow .ex2DR .none .updDR .updateDR tdi s

/-- `clock.UpdDR.tms0` (41_tap_fsm.md R159). -/
def execClockUpdDR0 (tdi : Bool) (s : State) : Result :=
  clockRow .updDR .none .rti .none tdi s

/-- `clock.UpdDR.tms1` (41_tap_fsm.md R159). -/
def execClockUpdDR1 (tdi : Bool) (s : State) : Result :=
  clockRow .updDR .none .selDR .none tdi s

/-- `clock.SelIR.tms0` (41_tap_fsm.md R160). -/
def execClockSelIR0 (tdi : Bool) (s : State) : Result :=
  clockRow .selIR .none .capIR .captureIR tdi s

/-- `clock.SelIR.tms1` (41_tap_fsm.md R160). -/
def execClockSelIR1 (tdi : Bool) (s : State) : Result :=
  clockRow .selIR .none .tlr .reset tdi s

/-- `clock.CapIR.tms0` (41_tap_fsm.md R161). -/
def execClockCapIR0 (tdi : Bool) (s : State) : Result :=
  clockRow .capIR .none .shIR .none tdi s

/-- `clock.CapIR.tms1` (41_tap_fsm.md R161). -/
def execClockCapIR1 (tdi : Bool) (s : State) : Result :=
  clockRow .capIR .none .ex1IR .none tdi s

/-- `clock.ShIR.tms0` (41_tap_fsm.md R162). -/
def execClockShIR0 (tdi : Bool) (s : State) : Result :=
  clockRow .shIR .ir .shIR .none tdi s

/-- `clock.ShIR.tms1` (41_tap_fsm.md R162). -/
def execClockShIR1 (tdi : Bool) (s : State) : Result :=
  clockRow .shIR .ir .ex1IR .none tdi s

/-- `clock.Ex1IR.tms0` (41_tap_fsm.md R163). -/
def execClockEx1IR0 (tdi : Bool) (s : State) : Result :=
  clockRow .ex1IR .none .pauIR .none tdi s

/-- `clock.Ex1IR.tms1` (41_tap_fsm.md R163). -/
def execClockEx1IR1 (tdi : Bool) (s : State) : Result :=
  clockRow .ex1IR .none .updIR .latchIR tdi s

/-- `clock.PauIR.tms0` (41_tap_fsm.md R164). -/
def execClockPauIR0 (tdi : Bool) (s : State) : Result :=
  clockRow .pauIR .none .pauIR .none tdi s

/-- `clock.PauIR.tms1` (41_tap_fsm.md R164). -/
def execClockPauIR1 (tdi : Bool) (s : State) : Result :=
  clockRow .pauIR .none .ex2IR .none tdi s

/-- `clock.Ex2IR.tms0` (41_tap_fsm.md R165). -/
def execClockEx2IR0 (tdi : Bool) (s : State) : Result :=
  clockRow .ex2IR .none .shIR .none tdi s

/-- `clock.Ex2IR.tms1` (41_tap_fsm.md R165). -/
def execClockEx2IR1 (tdi : Bool) (s : State) : Result :=
  clockRow .ex2IR .none .updIR .latchIR tdi s

/-- `clock.UpdIR.tms0` (41_tap_fsm.md R166). -/
def execClockUpdIR0 (tdi : Bool) (s : State) : Result :=
  clockRow .updIR .none .rti .none tdi s

/-- `clock.UpdIR.tms1` (41_tap_fsm.md R166). -/
def execClockUpdIR1 (tdi : Bool) (s : State) : Result :=
  clockRow .updIR .none .selDR .none tdi s

end Sys2Proof.Machine
end

