-- ==== Sys2Proof/Machine/Trace.lean ====
section
/-! DEFINITION. The memory access tracer interface: `notify` by kind (40_cache.md R116, R117). -/

namespace Sys2Proof.Machine

/-- `notify(h, address, fetch)`: `IC` takes it, with `is_write = false` (40_cache.md R116). -/
def execNotifyFetch (h : Nat) (a : Addr) (s : State) : Result := notify h a .fetch s

/-- `notify(h, address, load)`: `DC` takes it, with `is_write = false` (40_cache.md R116). -/
def execNotifyLoad (h : Nat) (a : Addr) (s : State) : Result := notify h a .load s

/-- `notify(h, address, store)`: `DC` takes it, with `is_write = true` (40_cache.md R116). -/
def execNotifyStore (h : Nat) (a : Addr) (s : State) : Result := notify h a .store s

end Sys2Proof.Machine
end

