-- ==== Sys2Proof/Machine/Dispatch.lean ====
section
/-! DEFINITION. The dispatch from an instruction to its meaning, one arm per row of the operation table. -/

namespace Sys2Proof.Machine

def exec (i : Instr) (s : State) : Host.Outcome State Fault Refusal :=
  match i with
  | .construct c spec label => Sys2Proof.Machine.execConstruct c spec label s
  | .attach lower upper => Sys2Proof.Machine.execAttach lower upper s
  | .register h t => Sys2Proof.Machine.execRegister h t s
  | .notifyFetch h a => Sys2Proof.Machine.execNotifyFetch h a s
  | .notifyLoad h a => Sys2Proof.Machine.execNotifyLoad h a s
  | .notifyStore h a => Sys2Proof.Machine.execNotifyStore h a s
  | .accessHit c a isWrite => Sys2Proof.Machine.execAccessHit c a isWrite s
  | .accessMiss c a isWrite => Sys2Proof.Machine.execAccessMiss c a isWrite s
  | .accessMissForward c a isWrite => Sys2Proof.Machine.execAccessMissForward c a isWrite s
  | .stats c => Sys2Proof.Machine.execStats c s
  | .clockTLR0 tdi => Sys2Proof.Machine.execClockTLR0 tdi s
  | .clockTLR1 tdi => Sys2Proof.Machine.execClockTLR1 tdi s
  | .clockRTI0 tdi => Sys2Proof.Machine.execClockRTI0 tdi s
  | .clockRTI1 tdi => Sys2Proof.Machine.execClockRTI1 tdi s
  | .clockSelDR0 tdi => Sys2Proof.Machine.execClockSelDR0 tdi s
  | .clockSelDR1 tdi => Sys2Proof.Machine.execClockSelDR1 tdi s
  | .clockCapDR0 tdi => Sys2Proof.Machine.execClockCapDR0 tdi s
  | .clockCapDR1 tdi => Sys2Proof.Machine.execClockCapDR1 tdi s
  | .clockShDR0 tdi => Sys2Proof.Machine.execClockShDR0 tdi s
  | .clockShDR1 tdi => Sys2Proof.Machine.execClockShDR1 tdi s
  | .clockEx1DR0 tdi => Sys2Proof.Machine.execClockEx1DR0 tdi s
  | .clockEx1DR1 tdi => Sys2Proof.Machine.execClockEx1DR1 tdi s
  | .clockPauDR0 tdi => Sys2Proof.Machine.execClockPauDR0 tdi s
  | .clockPauDR1 tdi => Sys2Proof.Machine.execClockPauDR1 tdi s
  | .clockEx2DR0 tdi => Sys2Proof.Machine.execClockEx2DR0 tdi s
  | .clockEx2DR1 tdi => Sys2Proof.Machine.execClockEx2DR1 tdi s
  | .clockUpdDR0 tdi => Sys2Proof.Machine.execClockUpdDR0 tdi s
  | .clockUpdDR1 tdi => Sys2Proof.Machine.execClockUpdDR1 tdi s
  | .clockSelIR0 tdi => Sys2Proof.Machine.execClockSelIR0 tdi s
  | .clockSelIR1 tdi => Sys2Proof.Machine.execClockSelIR1 tdi s
  | .clockCapIR0 tdi => Sys2Proof.Machine.execClockCapIR0 tdi s
  | .clockCapIR1 tdi => Sys2Proof.Machine.execClockCapIR1 tdi s
  | .clockShIR0 tdi => Sys2Proof.Machine.execClockShIR0 tdi s
  | .clockShIR1 tdi => Sys2Proof.Machine.execClockShIR1 tdi s
  | .clockEx1IR0 tdi => Sys2Proof.Machine.execClockEx1IR0 tdi s
  | .clockEx1IR1 tdi => Sys2Proof.Machine.execClockEx1IR1 tdi s
  | .clockPauIR0 tdi => Sys2Proof.Machine.execClockPauIR0 tdi s
  | .clockPauIR1 tdi => Sys2Proof.Machine.execClockPauIR1 tdi s
  | .clockEx2IR0 tdi => Sys2Proof.Machine.execClockEx2IR0 tdi s
  | .clockEx2IR1 tdi => Sys2Proof.Machine.execClockEx2IR1 tdi s
  | .clockUpdIR0 tdi => Sys2Proof.Machine.execClockUpdIR0 tdi s
  | .clockUpdIR1 tdi => Sys2Proof.Machine.execClockUpdIR1 tdi s
  | .bbClock0 => Sys2Proof.Machine.execBbClock0 s
  | .bbClock1 => Sys2Proof.Machine.execBbClock1 s
  | .bbClock2 => Sys2Proof.Machine.execBbClock2 s
  | .bbClock3 => Sys2Proof.Machine.execBbClock3 s
  | .bbClock tms tdi => Sys2Proof.Machine.execBbClock tms tdi s
  | .bbSysreset => Sys2Proof.Machine.execBbSysreset s
  | .bbTapreset => Sys2Proof.Machine.execBbTapreset s
  | .bbMalformed b => Sys2Proof.Machine.execBbMalformed b s
  | .bbResponse0 => Sys2Proof.Machine.execBbResponse0 s
  | .bbResponse1 => Sys2Proof.Machine.execBbResponse1 s
  | .connect => Sys2Proof.Machine.execConnect s
  | .disconnect => Sys2Proof.Machine.execDisconnect s
  | .dtmIdle addr => Sys2Proof.Machine.execDtmIdle addr s
  | .dtmRead addr => Sys2Proof.Machine.execDtmRead addr s
  | .dtmWrite addr => Sys2Proof.Machine.execDtmWrite addr s
  | .dtmReserved addr => Sys2Proof.Machine.execDtmReserved addr s

end Sys2Proof.Machine
end

