-- ==== Sys2Proof/WellFormed.lean ====
section
/-! DEFINITION. Which instructions are well formed for a machine with given parameters, and which parameters are legal
(00_scope.md R9, R10, 92_eei_decisions.md last table). -/

namespace Sys2Proof

/-- An instruction whose operands lie in their ranges: a tracer is `IC` or `DC` and never `L2` (10_state.md R33, D10), a
hart index is below `NHARTS` (R33), a debug-module address has `ABITS` bits (20_memory.md R62), and a malformed byte is
one that `BbDecode` calls so (30_encoding.md R99). Every other operand has no constraint. -/
def Instr.wf (p : Params) (i : Instr) : Bool :=
  match i with
  | .register h t => decide (h < p.nharts) && (t != .l2)
  | .notifyFetch h _ => decide (h < p.nharts)
  | .notifyLoad h _ => decide (h < p.nharts)
  | .notifyStore h _ => decide (h < p.nharts)
  | .bbMalformed b => bbDecode p b == .malformed
  | .dtmIdle addr => decide (addr < 2 ^ p.abits)
  | .dtmRead addr => decide (addr < 2 ^ p.abits)
  | .dtmWrite addr => decide (addr < 2 ^ p.abits)
  | .dtmReserved addr => decide (addr < 2 ^ p.abits)
  | _ => true

/-- The six commands that a `BbDecode` has in its range (30_encoding.md R99). -/
def requiredCommands : List BbCommand :=
  [.clock false false, .clock false true, .clock true false, .clock true true, .sysReset, .tapReset]

/-- Some byte decodes to the command. -/
def Params.reaches (p : Params) (c : BbCommand) : Bool :=
  (List.range 256).any fun n => bbDecode p (BitVec.ofNat 8 n) == c

/-- A debug-module access within the `ABITS`-bit register space (20_memory.md R62). -/
def DtmAccess.within (n : Nat) : DtmAccess → Bool
  | .idle => true
  | .read a => decide (a < n)
  | .write a => decide (a < n)

/-- Legal parameters: positive widths (D15), idle values that fit and select no access (U8), a total codec with all its
commands (R99), an injective response encoding (D22), at least one hart (R9) and hartids unique after the default is
applied (R240). -/
def Params.wf (p : Params) : Bool :=
  decide (1 ≤ p.abits) && decide (1 ≤ p.dbits)
    && decide (p.idleIr < 2 ^ p.irLen) && decide (p.idleDr < 2 ^ p.dbits)
    && (instrDecode p p.idleIr == .idle)
    && p.irOverride.all (fun e => e.2.within (2 ^ p.abits))
    && requiredCommands.all p.reaches
    && (p.resp0 != p.resp1)
    && decide (1 ≤ p.nharts) && decide (p.harts.map HartConfig.hartid).Nodup

end Sys2Proof
end

