-- ==== Sys2Proof/Machine/Step.lean ====
section
/-! DEFINITION. One step of the machine: the next input is taken, decoded and executed (20_memory.md R72); a TAP edge
needs a client (43_remote_bitbang.md R211). With no input pending nothing happens and the state is held (R211,
60_exceptions.md R242). -/

namespace Sys2Proof.Machine

/-- One step (log 1). -/
def step (s : State) : Host.Outcome State Fault Refusal :=
  match s.inputs with
  | [] => .next s
  | x :: rest =>
    if s.admits x then
      match fetch s x with
      | .reject r => .refused (.undecodable r)
      | .ok i => if i.wf s.params then exec i (s.take x rest) else .refused .illFormed
    else .refused .noSession

/-- `n` steps, stopping at the first fault or refusal. -/
def run : Nat → State → Host.Outcome State Fault Refusal
  | 0, s => .next s
  | n + 1, s => andThen (step s) (run n)

/-- `s` with the event that a bare word of the operation table stands for as the next one taken. A client byte and
a TAP edge need a connected client to arrive (43_remote_bitbang.md R211). An instruction word acts on an edge with the
word in its register: it is put into IR with the TAP before Update-IR, where an instruction "takes effect"
(42_dtm_registers.md R180; log 8). -/
def State.withFetchWord (s : State) (nbits w : Nat) : State :=
  match tableOpWord nbits w with
  | .byte b => { s with inputs := .byte b :: s.inputs, bb := { s.bb with connected := true } }
  | _ =>
    { (s.setTap { s.tap with state := .ex1IR, ir := w }).withInputs (.instrEdge :: s.inputs) with
      bb := { s.bb with connected := true } }

end Sys2Proof.Machine
end

