-- ==== Sys2Proof/Machine/Sequences.lean ====
section
/-! DEFINITION. The sequences of operations the spec names: what the orchestrator builds (40_cache.md R114,
70_reset_and_hazards.md R256) and the scans (30_encoding.md R107), as lists of inputs. -/

namespace Sys2Proof.Machine

/-- Which caches the configuration asks for, each with its spec string (00_scope.md R9, `HAS_IC`, `HAS_DC`, `HAS_L2`).
-/
structure Plan where
  l2 : Option Text
  ic : Option Text
  dc : Option Text
deriving DecidableEq, Repr

/-- The construction of one L1 and its attachment to an `L2` that exists (70_reset_and_hazards.md R256 steps 2, 3). -/
def buildL1 (c : CacheId) (label : Text) (spec : Option Text) (hasL2 : Bool) : List Input :=
  match spec with
  | none => []
  | some t => .construct c t label :: (if hasL2 then [.attach c .l2] else [])

/-- The registrations on hart `h` (70_reset_and_hazards.md R256 step 4). -/
def registerHart (plan : Plan) (h : Nat) : List Input :=
  (if plan.ic.isSome then [.register h .ic] else []) ++ (if plan.dc.isSome then [.register h .dc] else [])

/-- What the orchestrator does, in its order (40_cache.md R114, 70_reset_and_hazards.md R256). -/
def bootInputs (p : Params) (plan : Plan) : List Input :=
  (match plan.l2 with
    | none => []
    | some t => [.construct .l2 t "L2$".toList])
    ++ buildL1 .ic "I$".toList plan.ic plan.l2.isSome
    ++ buildL1 .dc "D$".toList plan.dc plan.l2.isSome
    ++ (List.range p.nharts).flatMap (registerHart plan)

/-- The machine the orchestrator builds, or the error it ends with (60_exceptions.md R221). -/
def boot (p : Params) (plan : Plan) : Result :=
  let xs := bootInputs p plan
  run xs.length ((State.init p).withInputs xs)

/-- The `n` shift edges that present the low `n` bits of `v`, most significant bit first, `tms = 1` on the last
(30_encoding.md R107). -/
def shiftEdges : Nat → Nat → List (Bool × Bool)
  | 0, _ => []
  | n + 1, v => (n == 0, v.testBit n) :: shiftEdges n v

/-- `IRSCAN(v)`, as `(tms, tdi)` pairs (30_encoding.md R107). -/
def irScan (p : Params) (v : Nat) : List (Bool × Bool) :=
  [(true, false), (true, false), (false, false), (false, false)] ++ shiftEdges p.irLen v
    ++ [(true, false), (false, false)]

/-- `DRSCAN(v)`, as `(tms, tdi)` pairs (30_encoding.md R107). -/
def drScan (p : Params) (v : Nat) : List (Bool × Bool) :=
  [(true, false), (false, false), (false, false)] ++ shiftEdges p.dbits v ++ [(true, false), (false, false)]

/-- Edges as bare `clock` calls. -/
def asEdges (es : List (Bool × Bool)) : List Input := es.map fun e => .clock e.1 e.2

/-- Edges as the client bytes of the reference codec (30_encoding.md R100). -/
def asBytes (es : List (Bool × Bool)) : List Input := es.map fun e => .byte (clockByte e.1 e.2)

end Sys2Proof.Machine
end

