-- ==== Sys2Proof/Safety.lean ====
section
/-! DEFINITION. What a safe state and a safe run are: the invariants the spec states for the block (10_state.md R22, R24,
R32, R33, R37 to R39), and the words the statements use (the LRU law, the bare TAP, the calls an input makes). -/

namespace Sys2Proof.Machine

/-! ### Invariants -/

/-- The number of valid lines of an instance. -/
def Cache.validCount (k : Cache) : Nat := (k.table.map fun e => e.2.countP Line.valid).sum

/-- The invariants of one instance: its geometry (10_state.md R22), the canonical form of its table (log 18), and
R32 (i) to (vi). -/
structure Cache.Inv (k : Cache) : Prop where
  /-- R22: `isPow2(c.S)`. -/
  setsPow2 : isPow2 k.sets = true
  /-- R22: `isPow2(c.B)`. -/
  blockPow2 : isPow2 k.blockBytes = true
  /-- R22: `c.W >= 1`. -/
  waysPos : 1 ≤ k.ways
  /-- The table's form (log 18). -/
  canonical : SetTable.wf k.blankSet k.table
  /-- R25: the table is `S * W` lines. -/
  inRange : ∀ e ∈ k.table, e.1 < k.sets ∧ e.2.length = k.ways
  /-- R32 (i). -/
  hitsLe : k.hits ≤ k.accesses
  /-- R32 (ii). -/
  invalidZero : ∀ s w, (k.line s w).valid = false → (k.line s w).lastUsed = 0 ∧ (k.line s w).tag = 0
  /-- R32 (iii). -/
  validStamp : ∀ s w, (k.line s w).valid = true → 1 ≤ (k.line s w).lastUsed ∧ (k.line s w).lastUsed ≤ k.accesses
  /-- R32 (iv). -/
  stampsDiffer : ∀ s w s' w', (k.line s w).valid = true → (k.line s' w').valid = true →
    (k.line s w).lastUsed = (k.line s' w').lastUsed → s = s' ∧ w = w'
  /-- R32 (v). -/
  tagsDiffer : ∀ s w w', (k.line s w).valid = true → (k.line s w').valid = true →
    (k.line s w).tag = (k.line s w').tag → w = w'
  /-- R32 (vi), first half. -/
  countMisses : k.validCount ≤ k.accesses - k.hits
  /-- R32 (vi), second half. -/
  countLines : k.validCount ≤ k.sets * k.ways

/-- Every instance that exists keeps its invariants. -/
def State.CachesInv (s : State) : Prop := ∀ c k, s.cache c = some k → k.Inv

/-- The chain from `c` ends within `fuel` levels, all of them constructed (10_state.md R24). -/
def chainEnds (s : State) : Nat → CacheId → Bool
  | 0, _ => false
  | fuel + 1, c =>
    match s.cache c with
    | none => false
    | some k =>
      match k.next with
      | none => true
      | some u => chainEnds s fuel u

/-- "a cache cannot be its own eventual miss handler": every chain ends (10_state.md R24, 40_cache.md R113). -/
def State.ChainsInv (s : State) : Prop := ∀ c, (s.cache c).isSome → chainEnds s maxLevels c = true

/-- One tracer list per hart; each names constructed caches, never `L2`, none twice (10_state.md R33, D10, D35). -/
def State.TracersInv (s : State) : Prop :=
  s.tracers.length = s.params.nharts ∧
    ∀ ts ∈ s.tracers, ts.Nodup ∧ ∀ t ∈ ts, t ≠ .l2 ∧ (s.cache t).isSome

/-- The TAP half exists exactly where a remote debug transport was requested, and a client only where it exists
(70_reset_and_hazards.md R257; log 16). -/
def State.TapHalfInv (s : State) : Prop :=
  s.tapHalf.isSome = s.params.remote ∧ (s.bb.connected = true → s.tapHalf.isSome = true)

/-- The serial registers hold values of their widths (10_state.md R37 to R39; log 3). -/
def State.WidthsInv (s : State) : Prop :=
  s.tap.ir < 2 ^ s.params.irLen ∧ s.tap.sel < 2 ^ s.params.irLen ∧ s.tap.dr < 2 ^ s.params.dbits

/-- The invariant of the whole state. -/
structure State.Inv (s : State) : Prop where
  params : s.params.wf = true
  caches : s.CachesInv
  chains : s.ChainsInv
  tracers : s.TracersInv
  tapHalf : s.TapHalfInv
  widths : s.WidthsInv

/-- A run that never stops with a fault. -/
def NeverFaults (s : State) : Prop := ∀ n r, run n s ≠ .fault r

/-! ### The LRU law (40_cache.md R127) -/

/-- An instance after a sequence of accesses, forwarding aside (20_memory.md R71). -/
def Cache.touchAll (k : Cache) (as : List Addr) : Cache := as.foldl (fun k a => (k.touch a).1) k

/-- The accesses made since the last access to the block of `a`, the most recent first. -/
def sinceLast (k : Cache) (history : List Addr) (a : Addr) : List Addr :=
  history.reverse.takeWhile fun x => k.block x != k.block a

/-- R127 (ii): the block of `a` was accessed before, and since then fewer than `c.W` distinct other blocks of its set.
-/
def lruHits (k : Cache) (history : List Addr) (a : Addr) : Prop :=
  (∃ x ∈ history, k.block x = k.block a) ∧
    ((((sinceLast k history a).filter fun x => k.index x == k.index a).map k.block).dedup).length < k.ways

/-! ### The bare TAP (43_remote_bitbang.md R214) -/

/-- A TAP driven with `(tms, tdi)` pairs: the state after them and the `tdo` values returned, in order. -/
def bareTap : List (Bool × Bool) → State → State × List Bool
  | [], s => (s, [])
  | e :: es, s =>
    let t := clock e.1 e.2 s
    let r := bareTap es t
    (r.1, t.tap.tdo :: r.2)

/-- The `n` low bits of a value, most significant first: what `n` shift edges give out (20_memory.md R65). -/
def msbFirst : Nat → Nat → List Bool
  | 0, _ => []
  | n + 1, v => v.testBit n :: msbFirst n v

/-- The pair of a byte that decodes to a clock command. -/
def clockPair (p : Params) (b : Byte) : Option (Bool × Bool) :=
  match bbDecode p b with
  | .clock tms tdi => some (tms, tdi)
  | _ => none

/-! ### Debug-module calls (42_dtm_registers.md R193) -/

/-- The debug-module calls of the entry action of a state, for an instruction and a value of DR. -/
def entryCalls (st : TapState) (acc : DtmAccess) (dr : Nat) : List DmCall :=
  match st, acc with
  | .capDR, .read a => [.read a]
  | .capDR, .write a => [.read a]
  | .updDR, .read a => [.read a]
  | .updDR, .write a => [.write a dr]
  | _, _ => []

/-- The `tms` of the TAP edge that an input causes, if it causes one (42_dtm_registers.md R193, 43_remote_bitbang.md
R201). -/
def edgeTms (s : State) (x : Input) : Option Bool :=
  match x with
  | .clock tms _ => some tms
  | .byte b =>
    match bbDecode s.params b with
    | .clock tms _ => some tms
    | _ => none
  | .instrEdge => (instrEdge s.tap).map Prod.fst
  | _ => none

/-- The calls that one input makes on the debug module: those of the edge it causes, `DmReset` for the system-reset
command, nothing else (42_dtm_registers.md R193). -/
def inputCalls (s : State) (x : Input) : List DmCall :=
  match edgeTms s x, x with
  | some tms, _ => entryCalls (nextTap s.tap.state tms) (instrDecode s.params s.tap.sel) s.tap.dr
  | none, .byte b => if bbDecode s.params b = .sysReset then [.reset] else []
  | none, _ => []

/-! ### Words of the statements -/

/-- A numeral and its value: a non-empty string of ASCII digits read in base ten (30_encoding.md R82). -/
def IsNumeral (t : Text) (n : Nat) : Prop :=
  t ≠ [] ∧ (∀ c ∈ t, '0' ≤ c ∧ c ≤ '9') ∧ n = t.foldl (fun m c => 10 * m + (c.toNat - '0'.toNat)) 0

/-- Why a spec string is refused, the first check that fails (60_exceptions.md R222, R230). -/
def specError (t : Text) : Option ConfigCause :=
  match parseSpec t with
  | none => some .malformedCacheSpec
  | some (s, w, b) =>
    if !isPow2 s || !isPow2 b then some .nonPowerOfTwoGeometry else if w = 0 then some .zeroWays else none

/-- The instance the orchestrator builds from an optional spec string (40_cache.md R114). -/
def builtCache (label : Text) (next : Option CacheId) (spec : Option Text) : Option Cache :=
  match spec with
  | none => none
  | some t =>
    match parseSpec t with
    | none => none
    | some (s, w, b) => some { Cache.fresh s w b label with next := next }

/-- Two instances alike in all that only `construct` and `attach` write (10_state.md R22 to R24). -/
def Cache.sameShape (k k' : Cache) : Prop :=
  k'.sets = k.sets ∧ k'.ways = k.ways ∧ k'.blockBytes = k.blockBytes ∧ k'.label = k.label ∧ k'.next = k.next

/-- `k'` is `k` after a miss on `a` that took way `v`: the way has the smallest stamp of its set and is the lowest such
way, it now holds the tag with the new stamp, and no other line changed (40_cache.md R118, R121). -/
def Cache.missedInto (k : Cache) (a : Addr) (v : Nat) (k' : Cache) : Prop :=
  v < k.ways ∧
    (∀ w, w < k.ways → (k.line (k.index a) v).lastUsed ≤ (k.line (k.index a) w).lastUsed) ∧
    (∀ w, w < v → (k.line (k.index a) v).lastUsed < (k.line (k.index a) w).lastUsed) ∧
    k.sameShape k' ∧ k'.accesses = k.accesses + 1 ∧ k'.hits = k.hits ∧
    ∀ i j, k'.line i j = if i = k.index a ∧ j = v then ⟨true, k.tag a, k.accesses + 1⟩ else k.line i j

/-- `target` is reached from `c` by following `next` (40_cache.md R113 step 1). -/
inductive NextReaches (s : State) : CacheId → CacheId → Prop
  | here (c : CacheId) : NextReaches s c c
  | step {c u target : CacheId} {k : Cache} (hc : s.cache c = some k) (hn : k.next = some u)
      (h : NextReaches s u target) : NextReaches s c target

/-- The miss count of an instance, 0 for one that does not exist (10_state.md R31, R32 (vii)). -/
def misses : Option Cache → Nat
  | none => 0
  | some k => k.accesses - k.hits

/-- The orchestrator's tree: `L2` is the unique sink, every L1 that exists is attached to it (10_state.md R24). -/
structure State.Wired (s : State) : Prop where
  sink : ∃ k, s.l2 = some k ∧ k.next = none
  ic : ∀ k, s.ic = some k → k.next = some .l2
  dc : ∀ k, s.dc = some k → k.next = some .l2

/-- R32 (vii): the accesses of `L2` are the misses of the L1s. -/
def State.L2Counts (s : State) : Prop := ∀ k, s.l2 = some k → k.accesses = misses s.ic + misses s.dc

/-- The calls the orchestrator makes before the run (43_remote_bitbang.md R216, 70_reset_and_hazards.md R256). -/
def isBuilding : Input → Bool
  | .construct _ _ _ => true
  | .attach _ _ => true
  | .register _ _ => true
  | .notify _ _ _ => false
  | .access _ _ _ => false
  | .stats _ => false
  | .clock _ _ => false
  | .byte _ => false
  | .connect => false
  | .disconnect => false
  | .instrEdge => false

/-- The inputs of the cache half (00_scope.md R2); the others are those of the debug half. -/
def isCacheInput : Input → Bool
  | .construct _ _ _ => true
  | .attach _ _ => true
  | .register _ _ => true
  | .notify _ _ _ => true
  | .access _ _ _ => true
  | .stats _ => true
  | .clock _ _ => false
  | .byte _ => false
  | .connect => false
  | .disconnect => false
  | .instrEdge => false

/-! ### Frames -/

/-- What the cache operations of a run leave alone: parameters, TAP, session, debug port, bytes sent, inputs, phase. -/
def sameDebugHalf (s t : State) : Prop :=
  t.params = s.params ∧ t.tapHalf = s.tapHalf ∧ t.bb = s.bb ∧ t.dm = s.dm ∧ t.sent = s.sent ∧ t.inputs = s.inputs ∧
    t.running = s.running

/-- What the TAP, DTM and bitbang operations leave alone: parameters, caches, tracers, inputs, phase. -/
def sameCacheHalf (s t : State) : Prop :=
  t.params = s.params ∧ t.ic = s.ic ∧ t.dc = s.dc ∧ t.l2 = s.l2 ∧ t.tracers = s.tracers ∧ t.inputs = s.inputs ∧
    t.running = s.running

end Sys2Proof.Machine
end

