-- ==== Sys2Proof/Certificates/Slice0/Obligations.lean ====
section
/-! DEFINITION. The statements for the provers. Each docstring says which rule of spec/ it formalises; a value that is the
model's or the spec's own choice is named as such. -/

open Sys2Proof Sys2Proof.Machine

/-! ### Reset and the step -/

/-- R48, R250, R257: the block right after construction of its debug half: the TAP in Test-Logic-Reset with the idle
values in its registers, no client and one empty tracer list per hart. That the values are 0 is the spec's decision
(D16, D20, D23). The model's choices: that no cache is built yet, since `construct` runs after reset (log 20); that the
reset machine has a remote transport, and so a TAP (log 4); that the model's own fields start empty and the run has not
begun (log 1, log 2, log 13, log 14, log 15). The widths and codecs (log 4) are not named. -/
def Obligations.ResetIsTheUnbuiltBlock : Prop :=
  (∀ c, State.reset.cache c = none) ∧ State.reset.tapHalf.isSome = true ∧
    State.reset.tap.state = .tlr ∧ State.reset.tap.ir = 0 ∧ State.reset.tap.dr = 0 ∧ State.reset.tap.sel = 0 ∧
    State.reset.tap.tdo = false ∧ State.reset.bb.connected = false ∧ State.reset.bb.lastTdo = false ∧
    State.reset.tracers.length = State.reset.params.nharts ∧ (∀ ts ∈ State.reset.tracers, ts = []) ∧
    State.reset.dm.log = [] ∧ State.reset.dm.answers = [] ∧ State.reset.sent = [] ∧ State.reset.inputs = [] ∧
    State.reset.ret = .nothing ∧ State.reset.running = false

/-- The invariant of the whole state holds at reset (10_state.md R22, R24, R32, R33, R37 to R39, 70 R257). -/
def Obligations.ResetMeetsTheInvariant : Prop := State.reset.Inv

/-- 20_memory.md R72: a step takes the next input, reads an instruction from it and executes it in the state with that
input gone. With no client no TAP edge arrives (43_remote_bitbang.md R211). The model's choices: an input of the run
begins the run (log 15), the state is held when no input is pending (log 1), and an edge with no client, an input from
which no instruction can be read, or one whose operands are out of range, stops by name (log 12, log 27). -/
def Obligations.StepRunsTheDecodedInstruction : Prop :=
  (∀ (s : State) (x : Input) (rest : List Input) (i : Instr), s.inputs = x :: rest → s.admits x = true →
    fetch s x = .ok i → i.wf s.params = true →
    step s = exec i { s with inputs := rest, running := s.running || startsRun x }) ∧
  (∀ (s : State) (x : Input) (rest : List Input) (i : Instr), s.inputs = x :: rest → s.admits x = true →
    fetch s x = .ok i → i.wf s.params = false → step s = .refused .illFormed) ∧
  (∀ (s : State) (x : Input) (rest : List Input) (r : Reject), s.inputs = x :: rest → s.admits x = true →
    fetch s x = .reject r → step s = .refused (.undecodable r)) ∧
  (∀ (s : State) (x : Input) (rest : List Input), s.inputs = x :: rest → s.admits x = false →
    step s = .refused .noSession) ∧
  (∀ (s : State) (x : Input), s.admits x = false ↔
    s.bb.connected = false ∧ ((∃ tms tdi, x = .clock tms tdi) ∨ x = .instrEdge)) ∧
  (∀ s : State, s.inputs = [] → step s = .next s)

/-- 30_encoding.md R90, R96, R100, R101, R108: a few words written out from their rows decode to those rows. That
`decodeTableWord` reads a bare word of at least 0x30 as a client byte and any other as an instruction word is the
model's choice (log 8). -/
def Obligations.TableWordsDecodeToTheirRows : Prop :=
  decodeTableWord 8 0b00110000 = some .bbClock0 ∧ decodeTableWord 8 0b00110011 = some .bbClock3 ∧
    decodeTableWord 8 0b01110011 = some .bbSysreset ∧ decodeTableWord 8 0b01110100 = some .bbTapreset ∧
    decodeTableWord 8 0b00000010 = some (.dtmWrite 0) ∧ decodeTableWord 16 0b001000010 = some (.dtmWrite 0x10) ∧
    decodeTableWord 16 0b001000001 = some (.dtmRead 0x10) ∧
    decode Params.reference (.byte 0xff#8) = .ok (.bbMalformed 0xff#8) ∧
    decode Params.reference (.response 0x31#8) = .ok .bbResponse1 ∧
    decode Params.reference (.clock .shDR true false) = .ok (.clockShDR1 false) ∧
    decode Params.reference (.access .dc 0x1000#64 true .miss) = .ok (.accessMiss .dc 0x1000#64 true)

/-! ### Encoding -/

/-- 30_encoding.md R108: under the reference codec the encoding of every well-formed instruction decodes to it, the
class row of the clock commands to the byte row whose word it shares (log 9). -/
def Obligations.EncodeThenDecodeGivesTheInstruction : Prop :=
  ∀ (p : Params) (i : Instr), p.bbOverride = [] → p.resp0 ≠ p.resp1 → i.wf p = true →
    decode p (encode p i) = .ok i.canonical

/-- 30_encoding.md R108: under the reference codec no two operation words decode to one instruction: the word is the
encoding of what it decodes to. -/
def Obligations.DecodeThenEncodeGivesTheWord : Prop :=
  ∀ (p : Params) (w : OpWord) (i : Instr), p.bbOverride = [] → decode p w = .ok i →
    encode p i = w ∧ i.canonical = i

/-- 30_encoding.md R81, R82 (the numeral syntax is the spec's decision D3): a spec string parses to `(S, W, B)` exactly
when it is three numerals with these values separated by two colons. -/
def Obligations.SpecStringsAreThreeNumerals : Prop :=
  ∀ (t : Text) (S W B : Nat), parseSpec t = some (S, W, B) ↔
    ∃ x y z : Text, t = x ++ ':' :: (y ++ ':' :: z) ∧ IsNumeral x S ∧ IsNumeral y W ∧ IsNumeral z B

/-- 30_encoding.md R99, R100 (the reference codec is the spec's decision D22, log 5): a byte is a clock command exactly
when its bits 7..2 are 0b001100, with `tms` in bit 1 and `tdi` in bit 0; 0x73 is the system reset, 0x74 the TAP reset,
and every other byte is malformed. -/
def Obligations.ReferenceCodecByItsBits : Prop :=
  ∀ (p : Params) (b : Byte), p.bbOverride = [] →
    (∀ tms tdi, bbDecode p b = .clock tms tdi ↔
      b.extractLsb' 2 6 = 0b001100#6 ∧ b.getLsbD 1 = tms ∧ b.getLsbD 0 = tdi) ∧
    (bbDecode p b = .sysReset ↔ b = 0x73#8) ∧ (bbDecode p b = .tapReset ↔ b = 0x74#8) ∧
    (bbDecode p b = .malformed ↔ b.extractLsb' 2 6 ≠ 0b001100#6 ∧ b ≠ 0x73#8 ∧ b ≠ 0x74#8)

/-! ### Building -/

/-- 40_cache.md R110, 60 R222, R230 (the order of the checks is D26, the check of `W` is D2): what `construct` does for
every spec string: the three errors in their order, each with nothing built, else a new instance of the parsed geometry
with every line invalid and both counters 0, and nothing else changed. A name already built is refused (log 12). This is
before the run (43 R216, log 15); that it is refused later is `BuildingEndsWhenTheRunBegins`. -/
def Obligations.ConstructChecksThenBuilds : Prop :=
  ∀ (s : State) (c : CacheId) (spec label : Text), s.running = false →
    (parseSpec spec = none → exec (.construct c spec label) s = .fault (.configError .malformedCacheSpec)) ∧
    ∀ S W B, parseSpec spec = some (S, W, B) →
      (¬((∃ n, S = 2 ^ n) ∧ ∃ n, B = 2 ^ n) →
        exec (.construct c spec label) s = .fault (.configError .nonPowerOfTwoGeometry)) ∧
      ((∃ n, S = 2 ^ n) → (∃ n, B = 2 ^ n) → W = 0 →
        exec (.construct c spec label) s = .fault (.configError .zeroWays)) ∧
      ((∃ n, S = 2 ^ n) → (∃ n, B = 2 ^ n) → 1 ≤ W → s.cache c = none →
        ∃ k, exec (.construct c spec label) s = .next ((s.setCache c k).withRet (.cache c)) ∧
          k.sets = S ∧ k.ways = W ∧ k.blockBytes = B ∧ k.label = label ∧ k.next = none ∧
          k.accesses = 0 ∧ k.hits = 0 ∧ ∀ i j, k.line i j = ⟨false, 0, 0⟩) ∧
      ((∃ n, S = 2 ^ n) → (∃ n, B = 2 ^ n) → 1 ≤ W → s.cache c ≠ none →
        exec (.construct c spec label) s = .refused .cacheExists)

/-- 30_encoding.md R83, 95 E1: of the strings `S:W:B` written in decimal, `construct` succeeds for exactly those with
`S` and `B` powers of two and `W` at least 1 (the bound on `W` is D2), whatever `W` else is. Before the run (log 15). -/
def Obligations.ConstructAcceptsExactlyPowersOfTwo : Prop :=
  ∀ (s : State) (c : CacheId) (label : Text) (S W B : Nat), s.running = false → s.cache c = none →
    ((∃ t, exec (.construct c (specText S W B) label) s = .next t) ↔ (∃ n, S = 2 ^ n) ∧ (∃ n, B = 2 ^ n) ∧ 1 ≤ W)

/-- 40_cache.md R113 with the preconditions of D12, U14 (log 12): between two built caches `attach` is refused when the
lower one is the upper one or is reached from it, when the lower one has a miss handler, and when it has been accessed;
otherwise it sets the lower one's `next` and nothing else. Before the run (log 15). -/
def Obligations.AttachLinksOrRefuses : Prop :=
  ∀ (s : State) (lower upper : CacheId) (k ku : Cache), s.running = false → s.ChainsInv → s.cache lower = some k →
    s.cache upper = some ku →
    (NextReaches s upper lower → exec (.attach lower upper) s = .refused .cyclicAttach) ∧
    (¬NextReaches s upper lower → k.next ≠ none → exec (.attach lower upper) s = .refused .alreadyAttached) ∧
    (¬NextReaches s upper lower → k.next = none → k.accesses ≠ 0 →
      exec (.attach lower upper) s = .refused .attachAfterAccess) ∧
    (¬NextReaches s upper lower → k.next = none → k.accesses = 0 →
      exec (.attach lower upper) s =
        .next ((s.setCache lower { k with next := some upper }).withRet .nothing))

/-- 40_cache.md R115 with D10, D35 (log 12): `register` appends the tracer to the hart's list and changes nothing else;
it is refused for a tracer already there, for `L2`, for a hart that does not exist and for a cache that was not built.
Before the run (log 15). -/
def Obligations.RegisterAppendsOnce : Prop :=
  (∀ (s : State) (h : Nat) (t : CacheId) (ts : List CacheId), s.running = false → s.tracers[h]? = some ts → t ≠ .l2 →
    (s.cache t).isSome = true → t ∉ ts →
    exec (.register h t) s = .next { s with tracers := s.tracers.set h (ts ++ [t]), ret := .nothing }) ∧
  (∀ (s : State) (h : Nat) (t : CacheId) (ts : List CacheId), s.running = false → s.tracers[h]? = some ts → t ≠ .l2 →
    (s.cache t).isSome = true → t ∈ ts → exec (.register h t) s = .refused .alreadyRegistered) ∧
  (∀ (s : State) (h : Nat), s.running = false → exec (.register h .l2) s = .refused .notATracer) ∧
  (∀ (s : State) (h : Nat) (t : CacheId), s.running = false → t ≠ .l2 → s.tracers[h]? = none →
    exec (.register h t) s = .refused .noSuchHart) ∧
  (∀ (s : State) (h : Nat) (t : CacheId) (ts : List CacheId), s.running = false → s.tracers[h]? = some ts → t ≠ .l2 →
    s.cache t = none → exec (.register h t) s = .refused .noSuchCache)

/-- 40_cache.md R114, 70 R256: whatever caches the configuration asks for, with good spec strings the orchestrator's
sequence completes, every cache is built and fresh, each L1 is attached to `L2` if there is one, every hart has the same
tracers, `IC` then `DC`, the debug half is as after construction, and the run has not begun. The labels are the model's
(R114 calls them an illustration). -/
def Obligations.BootBuildsTheTree : Prop :=
  ∀ (p : Params) (plan : Plan), p.wf = true →
    (∀ t, plan.l2 = some t ∨ plan.ic = some t ∨ plan.dc = some t → specError t = none) →
    ∃ t, boot p plan = .next t ∧ t.params = p ∧
      t.l2 = builtCache "L2$".toList none plan.l2 ∧
      t.ic = builtCache "I$".toList (if plan.l2.isSome then some .l2 else none) plan.ic ∧
      t.dc = builtCache "D$".toList (if plan.l2.isSome then some .l2 else none) plan.dc ∧
      t.tracers = List.replicate p.nharts
        ((if plan.ic.isSome then [.ic] else []) ++ (if plan.dc.isSome then [.dc] else [])) ∧
      t.tapHalf = (State.init p).tapHalf ∧ t.bb = (State.init p).bb ∧ t.dm = (State.init p).dm ∧ t.sent = [] ∧
      t.inputs = [] ∧ t.running = false

/-- 43 R216, 60 R221, 70 R256: `construct`, `attach` and `register` are calls made before the run only: once it has
begun they are refused; the first input but for these three and `stats` begins it, and nothing ends it; so a
`ConfigError` is raised by `construct` alone and never in a machine that runs. Which inputs begin the run is the model's
reading (log 15). -/
def Obligations.BuildingEndsWhenTheRunBegins : Prop :=
  (∀ s : State, s.running = true →
    (∀ c spec label, exec (.construct c spec label) s = .refused .runStarted) ∧
    (∀ lower upper, exec (.attach lower upper) s = .refused .runStarted) ∧
    (∀ h t, exec (.register h t) s = .refused .runStarted)) ∧
  (∀ (s t : State) (x : Input) (rest : List Input), s.inputs = x :: rest → step s = .next t →
    (t.running = true ↔ s.running = true ∨ isBuilding x = false ∧ ∀ c, x ≠ .stats c)) ∧
  (∀ (s t : State) (x : Input) (rest : List Input), s.inputs = x :: rest → step s = .next t → isBuilding x = true →
    s.running = false) ∧
  (∀ (s : State) (cause : ConfigCause), step s = .fault (.configError cause) → s.running = false ∧
    ∃ c spec label rest, s.inputs = .construct c spec label :: rest ∧ specError spec = some cause)

/-- 60 R230, 70 R256 (the order is D26): the error the orchestrator ends with is that of the first bad spec string in
the order `L2`, `IC`, `DC`. -/
def Obligations.BootReportsTheFirstBadSpec : Prop :=
  ∀ (p : Params) (plan : Plan) (cause : ConfigCause),
    [plan.l2, plan.ic, plan.dc].findSome? (fun o => o.bind specError) = some cause →
    boot p plan = .fault (.configError cause)

/-! ### The cache operations -/

/-- 30_encoding.md R84, R85: for powers of two the three fields are the bit fields of the address; they rebuild it; two
addresses are in one block exactly when set index and tag agree; and when the low fields take 64 bits or more every tag
is 0. -/
def Obligations.AddressSplitsIntoFields : Prop :=
  ∀ (k : Cache) (a : Addr) (b n : Nat), k.blockBytes = 2 ^ b → k.sets = 2 ^ n →
    k.offset a = a.toNat % 2 ^ b ∧ k.index a = (a.toNat >>> b) % 2 ^ n ∧ k.tag a = a.toNat >>> (b + n) ∧
    k.blockBase (k.index a) (k.tag a) + k.offset a = a.toNat ∧
    (∀ a' : Addr, (k.index a' = k.index a ∧ k.tag a' = k.tag a) ↔ k.block a' = k.block a) ∧
    (64 ≤ b + n → k.tag a = 0)

/-- R118, R120: an access to an address whose tag a valid line of its set holds reports a hit: the access and the hit
are counted, that line alone gets the new stamp (the count of accesses, the spec's decision D5, log 25), greater than
every other stamp of the instance, and keeps its tag and valid bit; no other line, no other instance and nothing else of
the machine changes. -/
def Obligations.AccessHitRestampsItsLine : Prop :=
  ∀ (s : State) (c : CacheId) (a : Addr) (isWrite : Bool) (k : Cache) (w : Nat), s.cache c = some k → k.Inv →
    (k.line (k.index a) w).valid = true → (k.line (k.index a) w).tag = k.tag a →
    ∃ k', exec (.accessHit c a isWrite) s = .next ((s.setCache c k').withRet (.hit true)) ∧
      k.sameShape k' ∧ k'.accesses = k.accesses + 1 ∧ k'.hits = k.hits + 1 ∧
      (∀ i j, k'.line i j =
        if i = k.index a ∧ j = w then { k.line i j with lastUsed := k.accesses + 1 } else k.line i j) ∧
      ∀ i j, (i ≠ k.index a ∨ j ≠ w) → (k'.line i j).lastUsed < (k'.line (k.index a) w).lastUsed

/-- R121, R123 with R118, R119 (the stamp is D5): an access that no valid line of its set matches, in a cache with no
miss handler: the least recently stamped way, the lowest of several, takes the tag and the new stamp; nothing else of
the machine changes. -/
def Obligations.AccessMissReplacesTheLeastRecent : Prop :=
  ∀ (s : State) (c : CacheId) (a : Addr) (isWrite : Bool) (k : Cache), s.cache c = some k → k.Inv →
    (∀ w, (k.line (k.index a) w).valid = true → (k.line (k.index a) w).tag ≠ k.tag a) → k.next = none →
    ∃ k' v, exec (.accessMiss c a isWrite) s = .next ((s.setCache c k').withRet (.hit false)) ∧ k.missedInto a v k'

/-- R122 with R118, R121 (the order is D11): with a miss handler the miss installs first and then makes the same access,
with the same address and the same `is_write`, on the miss handler, once; its result is ignored and the access reports a
miss. -/
def Obligations.AccessMissForwardsTheSameAccess : Prop :=
  ∀ (s : State) (c u : CacheId) (a : Addr) (isWrite : Bool) (k : Cache), s.ChainsInv → s.cache c = some k → k.Inv →
    (∀ w, (k.line (k.index a) w).valid = true → (k.line (k.index a) w).tag ≠ k.tag a) → k.next = some u →
    ∃ k' v t, k.missedInto a v k' ∧ access u a isWrite (s.setCache c k') = .next t ∧
      exec (.accessMissForward c a isWrite) s = .next (t.withRet (.hit false))

/-- R118, R108: the three rows are the three outcomes of the one operation `access`: the row the state selects does what
`access` does. -/
def Obligations.AccessRowsAreTheAccessOperation : Prop :=
  ∀ (s : State) (c : CacheId) (a : Addr) (isWrite : Bool) (row : AccessRow),
    accessRow s c a = some row → exec (decodeAccess c a isWrite row) s = access c a isWrite s

/-- R124: `is_write` changes nothing, along the whole chain and in every row. -/
def Obligations.IsWriteChangesNothing : Prop :=
  ∀ (s : State) (c : CacheId) (a : Addr) (w w' : Bool),
    access c a w s = access c a w' s ∧ exec (.accessHit c a w) s = exec (.accessHit c a w') s ∧
      exec (.accessMiss c a w) s = exec (.accessMiss c a w') s ∧
      exec (.accessMissForward c a w) s = exec (.accessMissForward c a w') s

/-- R116, R117, R88 (the `is_write` values are D8): a notification is one access of the one cache that takes its kind,
if it is registered on the hart, and nothing otherwise; its result goes nowhere. -/
def Obligations.NotifyRoutesByKind : Prop :=
  ∀ (s : State) (h : Nat) (a : Addr) (ts : List CacheId), s.tracers[h]? = some ts → ts.Nodup →
    exec (.notifyFetch h a) s =
      (if .ic ∈ ts then andThen (access .ic a false s) fun t => .next (t.withRet .nothing)
        else .next (s.withRet .nothing)) ∧
    exec (.notifyLoad h a) s =
      (if .dc ∈ ts then andThen (access .dc a false s) fun t => .next (t.withRet .nothing)
        else .next (s.withRet .nothing)) ∧
    exec (.notifyStore h a) s =
      (if .dc ∈ ts then andThen (access .dc a true s) fun t => .next (t.withRet .nothing)
        else .next (s.withRet .nothing))

/-- R227: in every state of the invariant a notification of an existing hart, an access to a built cache and an edge
of an existing TAP complete, and leave the debug half, or the cache half, alone. -/
def Obligations.OperationsThatCannotFailComplete : Prop :=
  ∀ s : State, s.Inv →
    (∀ h a, h < s.params.nharts →
      (∃ t, exec (.notifyFetch h a) s = .next t ∧ sameDebugHalf s t ∧ t.tracers = s.tracers) ∧
      (∃ t, exec (.notifyLoad h a) s = .next t ∧ sameDebugHalf s t ∧ t.tracers = s.tracers) ∧
      (∃ t, exec (.notifyStore h a) s = .next t ∧ sameDebugHalf s t ∧ t.tracers = s.tracers)) ∧
    (∀ c a w, (s.cache c).isSome = true →
      ∃ t, access c a w s = .next t ∧ sameDebugHalf s t ∧ t.tracers = s.tracers) ∧
    (s.tapHalf.isSome = true →
      ∀ tms tdi, ∃ t, exec (decodeClock s.tap.state tms tdi) s = .next t ∧ sameCacheHalf s t)

/-- R126: `stats` returns the two counters of a built cache and changes no state; a fresh instance reports (0, 0). The
miss count is `accesses - hits`. -/
def Obligations.StatsReturnsTheCounters : Prop :=
  (∀ (s : State) (c : CacheId) (k : Cache), s.cache c = some k →
    exec (.stats c) s = .next { s with ret := .stats k.accesses k.hits } ∧
      misses (s.cache c) = k.accesses - k.hits) ∧
  (∀ (s t : State) (c : CacheId) (spec label : Text), exec (.construct c spec label) s = .next t →
    exec (.stats c) t = .next { t with ret := .stats 0 0 })

/-- 10_state.md R22, R32 (i) to (vi): the invariants of every instance are kept by every step, whatever its input. -/
def Obligations.StepKeepsTheCacheInvariants : Prop :=
  ∀ s t : State, s.CachesInv → step s = .next t → t.CachesInv

/-- 10_state.md R24, R33, 40_cache.md R113, R115: that every miss-handler chain ends and that every tracer list is as
registered, one per hart, is kept by every step. -/
def Obligations.StepKeepsChainsAndTracers : Prop :=
  ∀ s t : State, s.ChainsInv → s.TracersInv → step s = .next t → t.ChainsInv ∧ t.TracersInv

/-- 40_cache.md R127 (i) to (iii), the LRU law: for every instance as constructed and every sequence of accesses, the
next access hits exactly when its block was accessed before and, since then, fewer than `W` distinct other blocks of its
set were. -/
def Obligations.HitsAreExactlyLeastRecentlyUsed : Prop :=
  ∀ (S W B : Nat) (label : Text) (history : List Addr) (a : Addr), isPow2 S = true → isPow2 B = true → 1 ≤ W →
    ((((Cache.fresh S W B label).touchAll history).touch a).2 = true ↔
      lruHits (Cache.fresh S W B label) history a)

/-- 10_state.md R32 (vii): in the orchestrator's tree the accesses of `L2` are the misses of the L1s, and every step but
a direct access to `L2` keeps it so; the tree itself is kept by every step that builds nothing. -/
def Obligations.L2CountsTheMissesOfTheL1s : Prop :=
  ∀ (s t : State) (x : Input) (rest : List Input), s.CachesInv → s.Wired → s.L2Counts → s.inputs = x :: rest →
    (∀ a w, x ≠ .access .l2 a w) → step s = .next t →
    t.L2Counts ∧ ((∀ c spec label, x ≠ .construct c spec label) → t.Wired)

/-- 10_state.md R22, R26, R29, R30, 20_memory.md R78: no step takes a cache away, changes its geometry or label, lowers
a counter or makes a valid line invalid; and no step writes a parameter (R49). -/
def Obligations.NothingClearsACache : Prop :=
  ∀ s t : State, s.CachesInv → step s = .next t →
    t.params = s.params ∧
    ∀ c k, s.cache c = some k →
      ∃ k', t.cache c = some k' ∧ k'.sets = k.sets ∧ k'.ways = k.ways ∧ k'.blockBytes = k.blockBytes ∧
        k'.label = k.label ∧ k.accesses ≤ k'.accesses ∧ k.hits ≤ k'.hits ∧
        ∀ i j, (k.line i j).valid = true → (k'.line i j).valid = true

/-- 60 R221, R227, 40_cache.md R113: from every state of the invariant, however many steps and whatever the inputs, the
only fault a run can end in is a `ConfigError`. -/
def Obligations.RunsFaultOnlyByConfigError : Prop :=
  ∀ (s : State) (n : Nat) (r : Fault), s.Inv → run n s = .fault r → ∃ cause, r = .configError cause

/-! ### The TAP -/

/-- 41_tap_fsm.md R150, R151 to R166: each of the 32 `clock` rows, in the state it starts in, is the one operation
`clock(tms, tdi)` and returns the `tdo` of the state it leaves (clockTLR0, clockTLR1, …, clockUpdIR1). -/
def Obligations.ClockRowsAreTheClockOperation : Prop :=
  ∀ (s : State) (tms tdi : Bool), s.tapHalf.isSome = true →
    exec (decodeClock s.tap.state tms tdi) s =
      .next { clock tms tdi s with ret := .tdo (clock tms tdi s).tap.tdo }

/-- R108 (log 6): a `clock` or `access` row in a state that selects another row is no operation and stops by name; no
step ever meets it, since the row is read from the state. -/
def Obligations.UnselectedRowsStopByName : Prop :=
  (∀ (s : State) (st : TapState) (tms tdi : Bool), s.tapHalf.isSome = true → st ≠ s.tap.state →
    exec (decodeClock st tms tdi) s = .refused .rowNotSelected) ∧
  (∀ (s : State) (c : CacheId) (a : Addr) (w : Bool) (row row' : AccessRow), accessRow s c a = some row →
    row' ≠ row → exec (decodeAccess c a w row') s = .refused .rowNotSelected) ∧
  (∀ s : State, step s ≠ .refused .rowNotSelected)

/-- R177 with R152 to R166: the 20 rows that neither start in a shift state nor end in a state with an entry action move
the TAP along the table of R90 and change nothing else; the returned bit is the held `tap.tdo` (D20). -/
def Obligations.HoldingEdgesOnlyMove : Prop :=
  ∀ (s : State) (tdi : Bool), s.tapHalf.isSome = true →
    let moved := fun st' : TapState =>
      (Host.Outcome.next ((s.setTap { s.tap with state := st' }).withRet (.tdo s.tap.tdo)) : Result)
    (s.tap.state = .tlr → exec (.clockTLR0 tdi) s = moved .rti) ∧
    (s.tap.state = .rti → exec (.clockRTI0 tdi) s = moved .rti ∧ exec (.clockRTI1 tdi) s = moved .selDR) ∧
    (s.tap.state = .selDR → exec (.clockSelDR1 tdi) s = moved .selIR) ∧
    (s.tap.state = .capDR → exec (.clockCapDR0 tdi) s = moved .shDR ∧ exec (.clockCapDR1 tdi) s = moved .ex1DR) ∧
    (s.tap.state = .ex1DR → exec (.clockEx1DR0 tdi) s = moved .pauDR) ∧
    (s.tap.state = .pauDR → exec (.clockPauDR0 tdi) s = moved .pauDR ∧ exec (.clockPauDR1 tdi) s = moved .ex2DR) ∧
    (s.tap.state = .ex2DR → exec (.clockEx2DR0 tdi) s = moved .shDR) ∧
    (s.tap.state = .updDR → exec (.clockUpdDR0 tdi) s = moved .rti ∧ exec (.clockUpdDR1 tdi) s = moved .selDR) ∧
    (s.tap.state = .capIR → exec (.clockCapIR0 tdi) s = moved .shIR ∧ exec (.clockCapIR1 tdi) s = moved .ex1IR) ∧
    (s.tap.state = .ex1IR → exec (.clockEx1IR0 tdi) s = moved .pauIR) ∧
    (s.tap.state = .pauIR → exec (.clockPauIR0 tdi) s = moved .pauIR ∧ exec (.clockPauIR1 tdi) s = moved .ex2IR) ∧
    (s.tap.state = .ex2IR → exec (.clockEx2IR0 tdi) s = moved .shIR) ∧
    (s.tap.state = .updIR → exec (.clockUpdIR0 tdi) s = moved .rti ∧ exec (.clockUpdIR1 tdi) s = moved .selDR)

/-- R183, R151 (that `tdo` is kept is D20): an edge into Test-Logic-Reset puts the idle values in IR, DR and the
selected instruction, makes no debug-module call and changes nothing else. -/
def Obligations.EnteringResetIdlesTheRegisters : Prop :=
  ∀ (s : State) (tdi : Bool), s.tapHalf.isSome = true →
    let regs : Tap :=
      { state := .tlr, ir := s.params.idleIr, dr := s.params.idleDr, sel := s.params.idleIr, tdo := s.tap.tdo }
    let idled := (Host.Outcome.next ((s.setTap regs).withRet (.tdo s.tap.tdo)) : Result)
    (s.tap.state = .tlr → exec (.clockTLR1 tdi) s = idled) ∧ (s.tap.state = .selIR → exec (.clockSelIR1 tdi) s = idled)

/-- R175, with R155 for where the edges end (the table of R90, log 17; the order of the actions is D17, log 25): an edge
that starts in Shift-DR, whichever way it leaves: `tdo` is the previous high bit of DR, `tdi` enters at bit 0, and
nothing but the state, DR, `tdo` and the returned bit changes. -/
def Obligations.DrShiftEdges : Prop :=
  ∀ (s : State) (tdi : Bool), s.tapHalf.isSome = true → s.tap.state = .shDR →
    let tdo' := s.tap.dr.testBit (s.params.dbits - 1)
    let dr' := ((s.tap.dr <<< 1) ||| tdi.toNat) % 2 ^ s.params.dbits
    exec (.clockShDR0 tdi) s =
      .next ((s.setTap { s.tap with state := .shDR, dr := dr', tdo := tdo' }).withRet (.tdo tdo')) ∧
    exec (.clockShDR1 tdi) s =
      .next ((s.setTap { s.tap with state := .ex1DR, dr := dr', tdo := tdo' }).withRet (.tdo tdo'))

/-- R176, with R162 for where the edges end (the table of R90, log 17; the order of the actions is D17, log 25): an edge
that starts in Shift-IR: `tdo` is the previous high bit of IR, `tdi` enters at bit 0; the selected instruction and DR
are untouched. -/
def Obligations.IrShiftEdges : Prop :=
  ∀ (s : State) (tdi : Bool), s.tapHalf.isSome = true → s.tap.state = .shIR →
    let tdo' := s.tap.ir.testBit (s.params.irLen - 1)
    let ir' := ((s.tap.ir <<< 1) ||| tdi.toNat) % 2 ^ s.params.irLen
    exec (.clockShIR0 tdi) s =
      .next ((s.setTap { s.tap with state := .shIR, ir := ir', tdo := tdo' }).withRet (.tdo tdo')) ∧
    exec (.clockShIR1 tdi) s =
      .next ((s.setTap { s.tap with state := .ex1IR, ir := ir', tdo := tdo' }).withRet (.tdo tdo'))

/-- R178 (D18): an edge into Capture-DR loads the idle value for an idle instruction, with no debug-module call; for
READ and for WRITE it makes one `DmRead` of the selected register and loads its answer, of `DBITS` bits. The answer is
the next scripted one; where none is scripted it is a free value, and the statement holds for each (log 2). -/
def Obligations.DrCaptureEdges : Prop :=
  ∀ (s : State) (tdi : Bool), s.tapHalf.isSome = true → s.tap.state = .selDR →
    (instrDecode s.params s.tap.sel = .idle → exec (.clockSelDR0 tdi) s =
      .next ((s.setTap { s.tap with state := .capDR, dr := s.params.idleDr }).withRet (.tdo s.tap.tdo))) ∧
    ∀ a, instrDecode s.params s.tap.sel = .read a ∨ instrDecode s.params s.tap.sel = .write a →
      ∃ d, d < 2 ^ s.params.dbits ∧
        (∀ x xs, s.dm.answers = x :: xs → d = x % 2 ^ s.params.dbits) ∧
        exec (.clockSelDR0 tdi) s =
          .next { s.setTap { s.tap with state := .capDR, dr := d } with
            dm := { log := s.dm.log ++ [.read a], answers := s.dm.answers.tail }
            ret := .tdo s.tap.tdo }

/-- R179: an edge into Capture-IR loads IR from the selected instruction; no debug-module call, nothing else changed. -/
def Obligations.IrCaptureEdge : Prop :=
  ∀ (s : State) (tdi : Bool), s.tapHalf.isSome = true → s.tap.state = .selIR →
    exec (.clockSelIR0 tdi) s =
      .next ((s.setTap { s.tap with state := .capIR, ir := s.tap.sel }).withRet (.tdo s.tap.tdo))

/-- R180: an edge into Update-IR latches all of IR as the selected instruction, whatever its bits; no debug-module call,
nothing else changed. -/
def Obligations.IrUpdateEdges : Prop :=
  ∀ (s : State) (tdi : Bool), s.tapHalf.isSome = true →
    let latched := (Host.Outcome.next
      ((s.setTap { s.tap with state := .updIR, sel := s.tap.ir }).withRet (.tdo s.tap.tdo)) : Result)
    (s.tap.state = .ex1IR → exec (.clockEx1IR1 tdi) s = latched) ∧
      (s.tap.state = .ex2IR → exec (.clockEx2IR1 tdi) s = latched)

/-- R181 (D19): an edge into Update-DR commits the access of the selected instruction: `DmWrite(a, tap.dr)` for WRITE,
one `DmRead(a)` whose data is dropped for READ, nothing for an idle instruction; DR keeps its value. -/
def Obligations.DrUpdateEdges : Prop :=
  ∀ (s : State) (tdi : Bool), s.tapHalf.isSome = true →
    let moved := (s.setTap { s.tap with state := .updDR }).withRet (.tdo s.tap.tdo)
    let after := fun (log : List DmCall) (answers : List Nat) =>
      (Host.Outcome.next { moved with dm := { log := log, answers := answers } } : Result)
    ∀ i, (i = .clockEx1DR1 tdi ∧ s.tap.state = .ex1DR ∨ i = .clockEx2DR1 tdi ∧ s.tap.state = .ex2DR) →
      (instrDecode s.params s.tap.sel = .idle → exec i s = after s.dm.log s.dm.answers) ∧
      (∀ a, instrDecode s.params s.tap.sel = .write a →
        exec i s = after (s.dm.log ++ [.write a s.tap.dr]) s.dm.answers) ∧
      (∀ a, instrDecode s.params s.tap.sel = .read a →
        exec i s = after (s.dm.log ++ [.read a]) s.dm.answers.tail)

/-- R167, R91: from any state five edges with `tms = 1`, whatever `tdi`, end in Test-Logic-Reset with the registers
idle; four are not enough from Shift-DR. The edges come from a connected client, without whom none arrives (R211). -/
def Obligations.FiveOnesReachReset : Prop :=
  (∀ (s : State) (b1 b2 b3 b4 b5 : Bool) (rest : List Input), s.tapHalf.isSome = true →
    s.bb.connected = true →
    s.inputs = .clock true b1 :: .clock true b2 :: .clock true b3 :: .clock true b4 :: .clock true b5 :: rest →
    ∃ t, run 5 s = .next t ∧ t.tap.state = .tlr ∧ t.tap.ir = s.params.idleIr ∧ t.tap.dr = s.params.idleDr ∧
      t.tap.sel = s.params.idleIr ∧ t.inputs = rest) ∧
  (∀ (s : State) (b1 b2 b3 b4 : Bool) (rest : List Input), s.tapHalf.isSome = true → s.bb.connected = true →
    s.tap.state = .shDR →
    s.inputs = .clock true b1 :: .clock true b2 :: .clock true b3 :: .clock true b4 :: rest →
    ∃ t, run 4 s = .next t ∧ t.tap.state = .selIR)

/-- R169: the next state is a function of the state and `tms` alone: not of `tdi`, IR, DR, the selected instruction, the
debug module's answers or its parameters. -/
def Obligations.NextStateDependsOnStateAndTms : Prop :=
  ∀ (s s' t t' : State) (tms tdi tdi' : Bool), s.tap.state = s'.tap.state →
    exec (decodeClock s.tap.state tms tdi) s = .next t → exec (decodeClock s'.tap.state tms tdi') s' = .next t' →
    t.tap.state = t'.tap.state

/-- 10_state.md R37 to R39, R20, R40, R45 (log 3 for the widths as an invariant): IR, DR and the selected instruction
keep values of their widths in every step, and the TAP registers are written by TAP edges and by the TAP reset command
only: a step with an edge leaves what `clock` leaves, a step with neither leaves them alone; the selected instruction
changes in Update-IR and in Test-Logic-Reset only, and `tdo` on an edge that starts in a shift state only. -/
def Obligations.StepKeepsTheRegisterWidths : Prop :=
  (∀ s t : State, s.params.wf = true → s.WidthsInv → step s = .next t → t.WidthsInv) ∧
  ∀ (s t : State) (x : Input) (rest : List Input), s.inputs = x :: rest → step s = .next t →
    (∀ tms, edgeTms s x = some tms → ∃ tdi, t.tap = (clock tms tdi s).tap) ∧
    (edgeTms s x = none → (∀ b, x = .byte b → bbDecode s.params b ≠ .tapReset) → t.tapHalf = s.tapHalf) ∧
    (t.tap.sel ≠ s.tap.sel → t.tap.state = .updIR ∧ t.tap.sel = s.tap.ir ∨
      t.tap.state = .tlr ∧ t.tap.sel = s.params.idleIr) ∧
    (t.tap.tdo ≠ s.tap.tdo → (∃ tms, edgeTms s x = some tms) ∧ (s.tap.state = .shDR ∨ s.tap.state = .shIR))

/-- R184, R181, R107, R193, R195, 95 E5: from Run-Test/Idle the client bytes of `DRSCAN(v)` deliver exactly `v`: the
debug-module calls are the capture's and the update's, in this order, the update of a WRITE writing `v`; the bytes sent
spell the captured value, most significant bit first, between the held bits; and the TAP is back in Run-Test/Idle with
`v` in DR. The captured value is free but for the scripted answers (log 2). -/
def Obligations.DrScanDeliversThePattern : Prop :=
  ∀ (s : State) (v : Nat), s.params.wf = true → s.params.bbOverride = [] → s.bb.connected = true →
    s.tap.state = .rti → v < 2 ^ s.params.dbits → s.inputs = asBytes (drScan s.params v) →
    ∃ t c, run (s.params.dbits + 5) s = .next t ∧ c < 2 ^ s.params.dbits ∧
      (instrDecode s.params s.tap.sel = .idle → c = s.params.idleDr) ∧
      (instrDecode s.params s.tap.sel ≠ .idle → ∀ x xs, s.dm.answers = x :: xs → c = x % 2 ^ s.params.dbits) ∧
      t.tap = { s.tap with dr := v, tdo := c.testBit 0 } ∧
      t.dm.log = s.dm.log ++ (match instrDecode s.params s.tap.sel with
        | .idle => []
        | .read a => [.read a, .read a]
        | .write a => [.read a, .write a v]) ∧
      t.sent = s.sent ++ ([s.tap.tdo, s.tap.tdo, s.tap.tdo] ++ msbFirst s.params.dbits c ++
        [c.testBit 0, c.testBit 0]).map (respByte s.params) ∧
      t.inputs = []

/-- R184, R180, R107, R179: from Run-Test/Idle the client bytes of `IRSCAN(v)` select exactly `v`, make no debug-module
call, and the bytes sent spell the instruction selected before, most significant bit first, between the held bits. -/
def Obligations.IrScanSelectsTheInstruction : Prop :=
  ∀ (s : State) (v : Nat), s.params.bbOverride = [] → s.bb.connected = true →
    s.tap.state = .rti → v < 2 ^ s.params.irLen → s.inputs = asBytes (irScan s.params v) →
    ∃ t, run (s.params.irLen + 6) s = .next t ∧
      t.tap = { s.tap with ir := v, sel := v, tdo := s.tap.sel.testBit 0 } ∧ t.dm = s.dm ∧
      t.sent = s.sent ++ ([s.tap.tdo, s.tap.tdo, s.tap.tdo, s.tap.tdo] ++ msbFirst s.params.irLen s.tap.sel ++
        [s.tap.sel.testBit 0, s.tap.sel.testBit 0]).map (respByte s.params) ∧
      t.inputs = []

/-- R184, R185, R187 (the order of the bits is D21): while the TAP stays in Shift-DR or Shift-IR the register and the
bits given out are a delay line: of the captured value, most significant bit first, followed by the presented bits, as
many come out as went in, and the rest is what the register holds. A scan may be cut into pieces: from Ex1 through Pause,
however long, and Ex2 back to Shift nothing but the state changes and the held bit is given out. -/
def Obligations.ShiftRegistersAreDelayLines : Prop :=
  (∀ (s : State) (ds : List Bool), s.tap.state = .shDR → 1 ≤ s.params.dbits →
    let line := msbFirst s.params.dbits s.tap.dr ++ ds
    let after := bareTap (ds.map fun d => (false, d)) s
    after.2 = line.take ds.length ∧ msbFirst s.params.dbits after.1.tap.dr = line.drop ds.length ∧
      after.1.tap.state = .shDR ∧ after.1.tap.ir = s.tap.ir ∧ after.1.tap.sel = s.tap.sel ∧ after.1.dm = s.dm) ∧
  (∀ (s : State) (ds : List Bool), s.tap.state = .shIR →
    let line := msbFirst s.params.irLen s.tap.ir ++ ds
    let after := bareTap (ds.map fun d => (false, d)) s
    after.2 = line.take ds.length ∧ msbFirst s.params.irLen after.1.tap.ir = line.drop ds.length ∧
      after.1.tap.state = .shIR ∧ after.1.tap.dr = s.tap.dr ∧ after.1.tap.sel = s.tap.sel ∧ after.1.dm = s.dm) ∧
  (∀ (s : State) (ds : List Bool) (b b' : Bool), s.tap.state = .ex1DR ∨ s.tap.state = .ex1IR → ds ≠ [] →
    let after := bareTap ((ds.map fun d => (false, d)) ++ [(true, b), (false, b')]) s
    after.2 = List.replicate (ds.length + 2) s.tap.tdo ∧ after.1.dm = s.dm ∧
      after.1.tap = { s.tap with state := if s.tap.state = .ex1DR then .shDR else .shIR })

/-- R186, R167: the five-edge escape makes debug-module calls from exactly five states, those of a DR scan between
capture and update, and there it commits the access of the selected instruction with whatever DR holds, shifted once
more from Shift-DR; from every other state it makes none. The edges come from a connected client (R211). -/
def Obligations.EscapeCommitsAHalfFinishedScan : Prop :=
  ∀ (s : State) (b1 b2 b3 b4 b5 : Bool) (rest : List Input), s.tapHalf.isSome = true →
    s.bb.connected = true →
    s.inputs = .clock true b1 :: .clock true b2 :: .clock true b3 :: .clock true b4 :: .clock true b5 :: rest →
    ∃ t, run 5 s = .next t ∧ t.tap.state = .tlr ∧
      t.dm.log = s.dm.log ++
        (if s.tap.state ∈ [.capDR, .shDR, .ex1DR, .pauDR, .ex2DR] then
          entryCalls .updDR (instrDecode s.params s.tap.sel)
            (if s.tap.state = .shDR then (2 * s.tap.dr + b1.toNat) % 2 ^ s.params.dbits else s.tap.dr)
        else [])

/-- R195, R107 (for the layout of R96): the two procedures of a debugger, over the bitbang stream from Run-Test/Idle. To
write `v` to register `a` the client sends `IRSCAN({a, 2})`, `DRSCAN(v)`: the calls are a read and the write of `v`. To
read it sends `IRSCAN({a, 1})`, `DRSCAN(v)`: the calls are two reads, and the last bits sent spell the first one's
answer. -/
def Obligations.DebuggerReadsAndWritesARegister : Prop :=
  ∀ (s : State) (a v : Nat), s.params.wf = true → s.params.irOverride = [] → s.params.bbOverride = [] →
    s.bb.connected = true → s.tap.state = .rti → a < 2 ^ s.params.abits → v < 2 ^ s.params.dbits →
    (s.inputs = asBytes (irScan s.params (irWord a 2) ++ drScan s.params v) →
      ∃ t, run s.inputs.length s = .next t ∧ t.tap.state = .rti ∧ t.tap.sel = irWord a 2 ∧
        t.dm.log = s.dm.log ++ [.read a, .write a v]) ∧
    (s.inputs = asBytes (irScan s.params (irWord a 1) ++ drScan s.params v) →
      ∃ t c before, run s.inputs.length s = .next t ∧ t.tap.state = .rti ∧ t.tap.sel = irWord a 1 ∧
        t.dm.log = s.dm.log ++ [.read a, .read a] ∧ c < 2 ^ s.params.dbits ∧
        (∀ x xs, s.dm.answers = x :: xs → c = x % 2 ^ s.params.dbits) ∧
        before.length = s.sent.length + (s.params.irLen + 6) + 3 ∧
        t.sent = before ++ (msbFirst s.params.dbits c ++ [c.testBit 0, c.testBit 0]).map (respByte s.params))

/-- R193: the debug-module calls of a step are exactly those of the edge its input causes, or `DmReset` for the system
reset command, and no others, in order. -/
def Obligations.DebugModuleCallsAreExact : Prop :=
  ∀ (s t : State) (x : Input) (rest : List Input), s.inputs = x :: rest → step s = .next t →
    t.dm.log = s.dm.log ++ inputCalls s x

/-! ### The bitbang layer -/

/-- R201: a clock command of a connected client, by each of its four bytes and by the class row: the edge with every
side effect it has, `bb.last_tdo` the `tdo` it returned, one response byte for it, and nothing else. -/
def Obligations.ClockCommandsAnswerOneByte : Prop :=
  ∀ s : State, s.bb.connected = true →
    let clocked := fun tms tdi : Bool =>
      (Host.Outcome.next { clock tms tdi s with
        bb := { connected := true, lastTdo := (clock tms tdi s).tap.tdo }
        sent := s.sent ++ [if (clock tms tdi s).tap.tdo then s.params.resp1 else s.params.resp0]
        ret := .nothing } : Result)
    exec .bbClock0 s = clocked false false ∧ exec .bbClock1 s = clocked false true ∧
      exec .bbClock2 s = clocked true false ∧ exec .bbClock3 s = clocked true true ∧
      ∀ tms tdi, exec (.bbClock tms tdi) s = clocked tms tdi

/-- R204, R205, R206 (D23, D24): of a connected client the system reset calls `DmReset` and leaves the TAP alone, the
TAP reset is the arrival in Test-Logic-Reset without any debug-module call and with `tdo` kept, both clear
`bb.last_tdo`, and a malformed byte changes nothing; none sends a byte. -/
def Obligations.ResetCommandsAndMalformedBytes : Prop :=
  ∀ s : State, s.bb.connected = true →
    let regs : Tap :=
      { state := .tlr, ir := s.params.idleIr, dr := s.params.idleDr, sel := s.params.idleIr, tdo := s.tap.tdo }
    exec .bbSysreset s = .next { s with
      dm := { s.dm with log := s.dm.log ++ [.reset] }, bb := { s.bb with lastTdo := false }, ret := .nothing } ∧
    exec .bbTapreset s = .next { s.setTap regs with
      bb := { s.bb with lastTdo := false }, ret := .nothing } ∧
    ∀ b, exec (.bbMalformed b) s = .next { s with ret := .nothing }

/-- R209, R210 (that the TAP survives is D25; a dropped `bb.last_tdo` reads 0, log 22): `connect` opens a session with
`bb.last_tdo = 0` in a machine that has its TAP half, and is refused while one is open; `disconnect` drops the session;
neither touches the TAP or anything else. -/
def Obligations.SessionsOpenAndClose : Prop :=
  (∀ s : State, s.tapHalf.isSome = true → s.bb.connected = false →
    exec .connect s = .next { s with bb := { connected := true, lastTdo := false }, ret := .nothing }) ∧
  (∀ s : State, s.bb.connected = true → exec .connect s = .refused .sessionActive) ∧
  (∀ s : State, s.bb.connected = true →
    exec .disconnect s = .next { s with bb := { connected := false, lastTdo := false }, ret := .nothing })

/-- R211: with no client no byte arrives and the TAP receives no edge, bare or named by an instruction word, and holds
its state: whatever the step, the TAP registers, the debug module and the bytes sent stay as they are. That the rows of
the client bytes, of `disconnect` and of the responses stop by name, and the edges in `step`, is the model's reading (log
12, log 27; log 10 for the responses). -/
def Obligations.NothingArrivesWithoutASession : Prop :=
  (∀ s t : State, s.bb.connected = false → step s = .next t →
    t.tapHalf = s.tapHalf ∧ t.dm = s.dm ∧ t.sent = s.sent) ∧
  (∀ (s : State) (rest : List Input), s.bb.connected = false →
    (∀ tms tdi, step { s with inputs := .clock tms tdi :: rest } = .refused .noSession) ∧
      step { s with inputs := .instrEdge :: rest } = .refused .noSession ∧
      ∀ b, step { s with inputs := .byte b :: rest } = .refused .noSession) ∧
  ∀ s : State, s.bb.connected = false →
    exec .bbClock0 s = .refused .noSession ∧ exec .bbClock1 s = .refused .noSession ∧
      exec .bbClock2 s = .refused .noSession ∧ exec .bbClock3 s = .refused .noSession ∧
      (∀ tms tdi, exec (.bbClock tms tdi) s = .refused .noSession) ∧ exec .bbSysreset s = .refused .noSession ∧
      exec .bbTapreset s = .refused .noSession ∧ (∀ b, exec (.bbMalformed b) s = .refused .noSession) ∧
      exec .bbResponse0 s = .refused .noSession ∧ exec .bbResponse1 s = .refused .noSession ∧
      exec .disconnect s = .refused .noSession

/-- R101, R201 (log 10): the two response rows send the byte of their `tdo` and change nothing else. -/
def Obligations.ResponseRowsSendTheirByte : Prop :=
  ∀ s : State, s.bb.connected = true →
    exec .bbResponse0 s = .next { s with sent := s.sent ++ [s.params.resp0], ret := .nothing } ∧
      exec .bbResponse1 s = .next { s with sent := s.sent ++ [s.params.resp1], ret := .nothing }

/-- R214, 95 E6: given a sequence of clock-edge command bytes, under any codec, the bytes the server sends are the `tdo`
values of a bare TAP driven with the same pairs, and the TAP and the debug module end as that TAP and its debug module.
-/
def Obligations.BitbangServerIsABareTap : Prop :=
  ∀ (s : State) (bs : List Byte), s.bb.connected = true → s.inputs = bs.map .byte →
    (∀ b ∈ bs, (clockPair s.params b).isSome = true) →
    ∃ t, run bs.length s = .next t ∧
      t.tap = (bareTap (bs.filterMap (clockPair s.params)) s).1.tap ∧
      t.dm = (bareTap (bs.filterMap (clockPair s.params)) s).1.dm ∧
      t.sent = s.sent ++ (bareTap (bs.filterMap (clockPair s.params)) s).2.map (respByte s.params)

/-- R207: after any sequence of received bytes the number of bytes sent is the number that decode to a clock command;
the byte sent for a clock command is that of its own edge and comes after those of the commands before it; and no step
but a clock command's sends a byte. -/
def Obligations.ResponsesAreAccountedFor : Prop :=
  (∀ (s : State) (bs : List Byte), s.bb.connected = true → s.inputs = bs.map .byte →
    ∃ t, run bs.length s = .next t ∧
      t.sent.length = s.sent.length + bs.countP fun b => (clockPair s.params b).isSome) ∧
  (∀ (s t : State) (b : Byte) (rest : List Input), s.inputs = .byte b :: rest → step s = .next t →
    (clockPair s.params b).isSome = true → t.sent = s.sent ++ [respByte s.params t.tap.tdo]) ∧
  (∀ (s t : State) (x : Input) (rest : List Input), s.inputs = x :: rest → step s = .next t →
    (∀ b, x = .byte b → clockPair s.params b = none) → t.sent = s.sent)

/-! ### The instruction words -/

/-- R96, R97, R178, R180, R181, U6, for the layout of R96: what the TAP does with each instruction word on the edges
that act on it: the edge into Update-IR latches the word that IR holds; with the word selected, the edge into Capture-DR
loads the idle value for IDLE and for the reserved `op`, and the answer of one `DmRead` for READ and WRITE, and the edge
into Update-DR writes DR for WRITE, reads for READ, and does nothing for the other two. That the row of a word is such
an edge, and that it is refused where no edge acts on the word, is the model's choice (log 7, log 6). -/
def Obligations.InstructionWordsActWhereTheyTakeEffect : Prop :=
  ∀ (s : State) (addr : Nat), s.tapHalf.isSome = true → s.params.irOverride = [] →
    (s.tap.state = .ex1IR ∨ s.tap.state = .ex2IR →
      let latched := fun w : Nat =>
        (Host.Outcome.next ((s.setTap { s.tap with state := .updIR, sel := w }).withRet (.tdo s.tap.tdo)) : Result)
      (s.tap.ir = 4 * addr → exec (.dtmIdle addr) s = latched (4 * addr)) ∧
        (s.tap.ir = 4 * addr + 1 → exec (.dtmRead addr) s = latched (4 * addr + 1)) ∧
        (s.tap.ir = 4 * addr + 2 → exec (.dtmWrite addr) s = latched (4 * addr + 2)) ∧
        (s.tap.ir = 4 * addr + 3 → exec (.dtmReserved addr) s = latched (4 * addr + 3))) ∧
    (s.tap.state = .selDR →
      let idled := (Host.Outcome.next
        ((s.setTap { s.tap with state := .capDR, dr := s.params.idleDr }).withRet (.tdo s.tap.tdo)) : Result)
      let loaded := fun d : Nat =>
        (Host.Outcome.next { s.setTap { s.tap with state := .capDR, dr := d } with
          dm := { log := s.dm.log ++ [.read addr], answers := s.dm.answers.tail }
          ret := .tdo s.tap.tdo } : Result)
      (s.tap.sel = 4 * addr → exec (.dtmIdle addr) s = idled) ∧
        (s.tap.sel = 4 * addr + 3 → exec (.dtmReserved addr) s = idled) ∧
        ∃ d, d < 2 ^ s.params.dbits ∧ (∀ x xs, s.dm.answers = x :: xs → d = x % 2 ^ s.params.dbits) ∧
          (s.tap.sel = 4 * addr + 1 → exec (.dtmRead addr) s = loaded d) ∧
          (s.tap.sel = 4 * addr + 2 → exec (.dtmWrite addr) s = loaded d)) ∧
    (s.tap.state = .ex1DR ∨ s.tap.state = .ex2DR →
      let after := fun (log : List DmCall) (answers : List Nat) =>
        (Host.Outcome.next { s.setTap { s.tap with state := .updDR } with
          dm := { log := log, answers := answers }, ret := .tdo s.tap.tdo } : Result)
      (s.tap.sel = 4 * addr → exec (.dtmIdle addr) s = after s.dm.log s.dm.answers) ∧
        (s.tap.sel = 4 * addr + 3 → exec (.dtmReserved addr) s = after s.dm.log s.dm.answers) ∧
        (s.tap.sel = 4 * addr + 1 → exec (.dtmRead addr) s = after (s.dm.log ++ [.read addr]) s.dm.answers.tail) ∧
        (s.tap.sel = 4 * addr + 2 →
          exec (.dtmWrite addr) s = after (s.dm.log ++ [.write addr s.tap.dr]) s.dm.answers)) ∧
    ((∀ tms, instrEdge s.tap ≠ some (tms, 4 * addr)) → exec (.dtmIdle addr) s = .refused .rowNotSelected) ∧
    ((∀ tms, instrEdge s.tap ≠ some (tms, 4 * addr + 1)) → exec (.dtmRead addr) s = .refused .rowNotSelected) ∧
    ((∀ tms, instrEdge s.tap ≠ some (tms, 4 * addr + 2)) → exec (.dtmWrite addr) s = .refused .rowNotSelected) ∧
    ((∀ tms, instrEdge s.tap ≠ some (tms, 4 * addr + 3)) → exec (.dtmReserved addr) s = .refused .rowNotSelected)

/-- R150, R178, R180, R181 (log 7): under every `InstrDecode` of the machine the row of the instruction word that an
edge acts on does what the `clock` row of that edge does, and the model's own input `instrEdge` is that edge: a step
with it is a step with a bare edge of the same `tms`, whatever its `tdi`, and with no client both stop (R211). -/
def Obligations.EntryActionsRunTheInstructionWord : Prop :=
  ∀ (s : State) (tms tdi : Bool) (w : Nat), s.tapHalf.isSome = true → instrEdge s.tap = some (tms, w) →
    (∀ i, decodeIrWord s.params w = .ok i → exec i s = exec (decodeClock s.tap.state tms tdi) s) ∧
    (w < 2 ^ s.params.irLen → ∀ rest,
      step { s with inputs := .instrEdge :: rest } = step { s with inputs := .clock tms tdi :: rest })

/-- R257: without a remote debug transport the TAP half does not exist: construction builds none, every edge, every row
of an instruction word and every `connect` is refused (that it is refused by name is log 16), and in every step such a
machine stays without a TAP and without a client and makes no debug-module call and sends no byte; with a transport the
TAP is there from construction on. -/
def Obligations.WithoutATransportNoTapHalf : Prop :=
  (∀ p : Params, (p.remote = false → (State.init p).tapHalf = none) ∧
    (p.remote = true → (State.init p).tapHalf = some ⟨.tlr, p.idleIr, p.idleDr, p.idleIr, false⟩)) ∧
  (∀ s : State, s.tapHalf = none →
    (∀ st tms tdi, exec (decodeClock st tms tdi) s = .refused .noTapHalf) ∧
    (∀ addr, exec (.dtmIdle addr) s = .refused .noTapHalf ∧ exec (.dtmRead addr) s = .refused .noTapHalf ∧
      exec (.dtmWrite addr) s = .refused .noTapHalf ∧ exec (.dtmReserved addr) s = .refused .noTapHalf) ∧
    (s.bb.connected = false → exec .connect s = .refused .noTapHalf)) ∧
  (∀ s t : State, s.TapHalfInv → step s = .next t → t.TapHalfInv ∧
    (s.tapHalf = none → t.tapHalf = none ∧ t.bb = s.bb ∧ t.dm = s.dm ∧ t.sent = s.sent))

/-! ### The two halves -/

/-- 20_memory.md R74, 00_scope.md R8: an input of the cache half and an input of the debug half commute: in either order
they complete or not alike, and end in the same state but for the model's own returned value (log 13). The three
building calls are no inputs of the run and come before it (43 R216, log 15). -/
def Obligations.CacheAndDebugInputsCommute : Prop :=
  ∀ (s t : State) (x y : Input), isCacheInput x ≠ isCacheInput y → isBuilding x = false → isBuilding y = false →
    run 2 { s with inputs := [x, y] } = .next t →
    ∃ t', run 2 { s with inputs := [y, x] } = .next t' ∧ t'.withRet .nothing = t.withRet .nothing
end

