-- ==== Sys2Proof/Laws/State.lean ====
section
/-! SUPPORT. One lemma per field of the state per update, so that no later proof unfolds a record update. -/

namespace Sys2Proof.Machine

variable (s : State)

/-! ### `withRet` -/

@[simp] theorem State.withRet_params (r : Returned) : (s.withRet r).params = s.params := rfl
@[simp] theorem State.withRet_ic (r : Returned) : (s.withRet r).ic = s.ic := rfl
@[simp] theorem State.withRet_dc (r : Returned) : (s.withRet r).dc = s.dc := rfl
@[simp] theorem State.withRet_l2 (r : Returned) : (s.withRet r).l2 = s.l2 := rfl
@[simp] theorem State.withRet_tracers (r : Returned) : (s.withRet r).tracers = s.tracers := rfl
@[simp] theorem State.withRet_tap (r : Returned) : (s.withRet r).tap = s.tap := rfl
@[simp] theorem State.withRet_bb (r : Returned) : (s.withRet r).bb = s.bb := rfl
@[simp] theorem State.withRet_dm (r : Returned) : (s.withRet r).dm = s.dm := rfl
@[simp] theorem State.withRet_sent (r : Returned) : (s.withRet r).sent = s.sent := rfl
@[simp] theorem State.withRet_inputs (r : Returned) : (s.withRet r).inputs = s.inputs := rfl
@[simp] theorem State.withRet_ret (r : Returned) : (s.withRet r).ret = r := rfl
@[simp] theorem State.withRet_tapHalf (r : Returned) : (s.withRet r).tapHalf = s.tapHalf := rfl
@[simp] theorem State.withRet_running (r : Returned) : (s.withRet r).running = s.running := rfl
@[simp] theorem State.withRet_cache (r : Returned) (c : CacheId) : (s.withRet r).cache c = s.cache c := by cases c <;> rfl

/-! ### `setTap` -/

@[simp] theorem State.setTap_params (t : Tap) : (s.setTap t).params = s.params := rfl
@[simp] theorem State.setTap_ic (t : Tap) : (s.setTap t).ic = s.ic := rfl
@[simp] theorem State.setTap_dc (t : Tap) : (s.setTap t).dc = s.dc := rfl
@[simp] theorem State.setTap_l2 (t : Tap) : (s.setTap t).l2 = s.l2 := rfl
@[simp] theorem State.setTap_tracers (t : Tap) : (s.setTap t).tracers = s.tracers := rfl
@[simp] theorem State.setTap_tap (t : Tap) : (s.setTap t).tap = t := rfl
@[simp] theorem State.setTap_bb (t : Tap) : (s.setTap t).bb = s.bb := rfl
@[simp] theorem State.setTap_dm (t : Tap) : (s.setTap t).dm = s.dm := rfl
@[simp] theorem State.setTap_sent (t : Tap) : (s.setTap t).sent = s.sent := rfl
@[simp] theorem State.setTap_inputs (t : Tap) : (s.setTap t).inputs = s.inputs := rfl
@[simp] theorem State.setTap_ret (t : Tap) : (s.setTap t).ret = s.ret := rfl
@[simp] theorem State.setTap_tapHalf (t : Tap) : (s.setTap t).tapHalf = some t := rfl
@[simp] theorem State.setTap_running (t : Tap) : (s.setTap t).running = s.running := rfl
@[simp] theorem State.setTap_cache (t : Tap) (c : CacheId) : (s.setTap t).cache c = s.cache c := by cases c <;> rfl

/-! ### `setSession` -/

@[simp] theorem State.setSession_params (b : Session) : (s.setSession b).params = s.params := rfl
@[simp] theorem State.setSession_ic (b : Session) : (s.setSession b).ic = s.ic := rfl
@[simp] theorem State.setSession_dc (b : Session) : (s.setSession b).dc = s.dc := rfl
@[simp] theorem State.setSession_l2 (b : Session) : (s.setSession b).l2 = s.l2 := rfl
@[simp] theorem State.setSession_tracers (b : Session) : (s.setSession b).tracers = s.tracers := rfl
@[simp] theorem State.setSession_tap (b : Session) : (s.setSession b).tap = s.tap := rfl
@[simp] theorem State.setSession_bb (b : Session) : (s.setSession b).bb = b := rfl
@[simp] theorem State.setSession_dm (b : Session) : (s.setSession b).dm = s.dm := rfl
@[simp] theorem State.setSession_sent (b : Session) : (s.setSession b).sent = s.sent := rfl
@[simp] theorem State.setSession_inputs (b : Session) : (s.setSession b).inputs = s.inputs := rfl
@[simp] theorem State.setSession_ret (b : Session) : (s.setSession b).ret = s.ret := rfl
@[simp] theorem State.setSession_tapHalf (b : Session) : (s.setSession b).tapHalf = s.tapHalf := rfl
@[simp] theorem State.setSession_running (b : Session) : (s.setSession b).running = s.running := rfl
@[simp] theorem State.setSession_cache (b : Session) (c : CacheId) : (s.setSession b).cache c = s.cache c := by cases c <;> rfl

/-! ### `setDm` -/

@[simp] theorem State.setDm_params (d : DebugPort) : (s.setDm d).params = s.params := rfl
@[simp] theorem State.setDm_ic (d : DebugPort) : (s.setDm d).ic = s.ic := rfl
@[simp] theorem State.setDm_dc (d : DebugPort) : (s.setDm d).dc = s.dc := rfl
@[simp] theorem State.setDm_l2 (d : DebugPort) : (s.setDm d).l2 = s.l2 := rfl
@[simp] theorem State.setDm_tracers (d : DebugPort) : (s.setDm d).tracers = s.tracers := rfl
@[simp] theorem State.setDm_tap (d : DebugPort) : (s.setDm d).tap = s.tap := rfl
@[simp] theorem State.setDm_bb (d : DebugPort) : (s.setDm d).bb = s.bb := rfl
@[simp] theorem State.setDm_dm (d : DebugPort) : (s.setDm d).dm = d := rfl
@[simp] theorem State.setDm_sent (d : DebugPort) : (s.setDm d).sent = s.sent := rfl
@[simp] theorem State.setDm_inputs (d : DebugPort) : (s.setDm d).inputs = s.inputs := rfl
@[simp] theorem State.setDm_ret (d : DebugPort) : (s.setDm d).ret = s.ret := rfl
@[simp] theorem State.setDm_tapHalf (d : DebugPort) : (s.setDm d).tapHalf = s.tapHalf := rfl
@[simp] theorem State.setDm_running (d : DebugPort) : (s.setDm d).running = s.running := rfl
@[simp] theorem State.setDm_cache (d : DebugPort) (c : CacheId) : (s.setDm d).cache c = s.cache c := by cases c <;> rfl

/-! ### `setTracers` -/

@[simp] theorem State.setTracers_params (h : Nat) (ts : List CacheId) : (s.setTracers h ts).params = s.params := rfl
@[simp] theorem State.setTracers_ic (h : Nat) (ts : List CacheId) : (s.setTracers h ts).ic = s.ic := rfl
@[simp] theorem State.setTracers_dc (h : Nat) (ts : List CacheId) : (s.setTracers h ts).dc = s.dc := rfl
@[simp] theorem State.setTracers_l2 (h : Nat) (ts : List CacheId) : (s.setTracers h ts).l2 = s.l2 := rfl
@[simp] theorem State.setTracers_tracers (h : Nat) (ts : List CacheId) : (s.setTracers h ts).tracers = s.tracers.set h ts := rfl
@[simp] theorem State.setTracers_tap (h : Nat) (ts : List CacheId) : (s.setTracers h ts).tap = s.tap := rfl
@[simp] theorem State.setTracers_bb (h : Nat) (ts : List CacheId) : (s.setTracers h ts).bb = s.bb := rfl
@[simp] theorem State.setTracers_dm (h : Nat) (ts : List CacheId) : (s.setTracers h ts).dm = s.dm := rfl
@[simp] theorem State.setTracers_sent (h : Nat) (ts : List CacheId) : (s.setTracers h ts).sent = s.sent := rfl
@[simp] theorem State.setTracers_inputs (h : Nat) (ts : List CacheId) : (s.setTracers h ts).inputs = s.inputs := rfl
@[simp] theorem State.setTracers_ret (h : Nat) (ts : List CacheId) : (s.setTracers h ts).ret = s.ret := rfl
@[simp] theorem State.setTracers_tapHalf (h : Nat) (ts : List CacheId) : (s.setTracers h ts).tapHalf = s.tapHalf := rfl
@[simp] theorem State.setTracers_running (h : Nat) (ts : List CacheId) : (s.setTracers h ts).running = s.running := rfl
@[simp] theorem State.setTracers_cache (h : Nat) (ts : List CacheId) (c : CacheId) : (s.setTracers h ts).cache c = s.cache c := by cases c <;> rfl

/-! ### `send` -/

@[simp] theorem State.send_params (b : Byte) : (s.send b).params = s.params := rfl
@[simp] theorem State.send_ic (b : Byte) : (s.send b).ic = s.ic := rfl
@[simp] theorem State.send_dc (b : Byte) : (s.send b).dc = s.dc := rfl
@[simp] theorem State.send_l2 (b : Byte) : (s.send b).l2 = s.l2 := rfl
@[simp] theorem State.send_tracers (b : Byte) : (s.send b).tracers = s.tracers := rfl
@[simp] theorem State.send_tap (b : Byte) : (s.send b).tap = s.tap := rfl
@[simp] theorem State.send_bb (b : Byte) : (s.send b).bb = s.bb := rfl
@[simp] theorem State.send_dm (b : Byte) : (s.send b).dm = s.dm := rfl
@[simp] theorem State.send_sent (b : Byte) : (s.send b).sent = s.sent ++ [b] := rfl
@[simp] theorem State.send_inputs (b : Byte) : (s.send b).inputs = s.inputs := rfl
@[simp] theorem State.send_ret (b : Byte) : (s.send b).ret = s.ret := rfl
@[simp] theorem State.send_tapHalf (b : Byte) : (s.send b).tapHalf = s.tapHalf := rfl
@[simp] theorem State.send_running (b : Byte) : (s.send b).running = s.running := rfl
@[simp] theorem State.send_cache (b : Byte) (c : CacheId) : (s.send b).cache c = s.cache c := by cases c <;> rfl

/-! ### `withInputs` -/

@[simp] theorem State.withInputs_params (xs : List Input) : (s.withInputs xs).params = s.params := rfl
@[simp] theorem State.withInputs_ic (xs : List Input) : (s.withInputs xs).ic = s.ic := rfl
@[simp] theorem State.withInputs_dc (xs : List Input) : (s.withInputs xs).dc = s.dc := rfl
@[simp] theorem State.withInputs_l2 (xs : List Input) : (s.withInputs xs).l2 = s.l2 := rfl
@[simp] theorem State.withInputs_tracers (xs : List Input) : (s.withInputs xs).tracers = s.tracers := rfl
@[simp] theorem State.withInputs_tap (xs : List Input) : (s.withInputs xs).tap = s.tap := rfl
@[simp] theorem State.withInputs_bb (xs : List Input) : (s.withInputs xs).bb = s.bb := rfl
@[simp] theorem State.withInputs_dm (xs : List Input) : (s.withInputs xs).dm = s.dm := rfl
@[simp] theorem State.withInputs_sent (xs : List Input) : (s.withInputs xs).sent = s.sent := rfl
@[simp] theorem State.withInputs_inputs (xs : List Input) : (s.withInputs xs).inputs = xs := rfl
@[simp] theorem State.withInputs_ret (xs : List Input) : (s.withInputs xs).ret = s.ret := rfl
@[simp] theorem State.withInputs_tapHalf (xs : List Input) : (s.withInputs xs).tapHalf = s.tapHalf := rfl
@[simp] theorem State.withInputs_running (xs : List Input) : (s.withInputs xs).running = s.running := rfl
@[simp] theorem State.withInputs_cache (xs : List Input) (c : CacheId) : (s.withInputs xs).cache c = s.cache c := by cases c <;> rfl

/-! ### `take` -/

@[simp] theorem State.take_params (x : Input) (rest : List Input) : (s.take x rest).params = s.params := rfl
@[simp] theorem State.take_ic (x : Input) (rest : List Input) : (s.take x rest).ic = s.ic := rfl
@[simp] theorem State.take_dc (x : Input) (rest : List Input) : (s.take x rest).dc = s.dc := rfl
@[simp] theorem State.take_l2 (x : Input) (rest : List Input) : (s.take x rest).l2 = s.l2 := rfl
@[simp] theorem State.take_tracers (x : Input) (rest : List Input) : (s.take x rest).tracers = s.tracers := rfl
@[simp] theorem State.take_tapHalf (x : Input) (rest : List Input) : (s.take x rest).tapHalf = s.tapHalf := rfl
@[simp] theorem State.take_tap (x : Input) (rest : List Input) : (s.take x rest).tap = s.tap := rfl
@[simp] theorem State.take_bb (x : Input) (rest : List Input) : (s.take x rest).bb = s.bb := rfl
@[simp] theorem State.take_dm (x : Input) (rest : List Input) : (s.take x rest).dm = s.dm := rfl
@[simp] theorem State.take_sent (x : Input) (rest : List Input) : (s.take x rest).sent = s.sent := rfl
@[simp] theorem State.take_ret (x : Input) (rest : List Input) : (s.take x rest).ret = s.ret := rfl
@[simp] theorem State.take_inputs (x : Input) (rest : List Input) : (s.take x rest).inputs = rest := rfl
@[simp] theorem State.take_running (x : Input) (rest : List Input) :
    (s.take x rest).running = (s.running || startsRun x) := rfl
@[simp] theorem State.take_cache (x : Input) (rest : List Input) (c : CacheId) : (s.take x rest).cache c = s.cache c := by
  cases c <;> rfl

/-! ### `setTapState` -/

@[simp] theorem State.setTapState_params (st : TapState) : (s.setTapState st).params = s.params := rfl
@[simp] theorem State.setTapState_ic (st : TapState) : (s.setTapState st).ic = s.ic := rfl
@[simp] theorem State.setTapState_dc (st : TapState) : (s.setTapState st).dc = s.dc := rfl
@[simp] theorem State.setTapState_l2 (st : TapState) : (s.setTapState st).l2 = s.l2 := rfl
@[simp] theorem State.setTapState_tracers (st : TapState) : (s.setTapState st).tracers = s.tracers := rfl
@[simp] theorem State.setTapState_tap (st : TapState) : (s.setTapState st).tap = { s.tap with state := st } := rfl
@[simp] theorem State.setTapState_bb (st : TapState) : (s.setTapState st).bb = s.bb := rfl
@[simp] theorem State.setTapState_dm (st : TapState) : (s.setTapState st).dm = s.dm := rfl
@[simp] theorem State.setTapState_sent (st : TapState) : (s.setTapState st).sent = s.sent := rfl
@[simp] theorem State.setTapState_inputs (st : TapState) : (s.setTapState st).inputs = s.inputs := rfl
@[simp] theorem State.setTapState_ret (st : TapState) : (s.setTapState st).ret = s.ret := rfl
@[simp] theorem State.setTapState_tapHalf (st : TapState) : (s.setTapState st).tapHalf = some { s.tap with state := st } := rfl
@[simp] theorem State.setTapState_running (st : TapState) : (s.setTapState st).running = s.running := rfl
@[simp] theorem State.setTapState_cache (st : TapState) (c : CacheId) : (s.setTapState st).cache c = s.cache c := by cases c <;> rfl

/-! ### `setCache` -/

@[simp] theorem State.setCache_params (c : CacheId) (k : Cache) : (s.setCache c k).params = s.params := by cases c <;> rfl
@[simp] theorem State.setCache_tracers (c : CacheId) (k : Cache) : (s.setCache c k).tracers = s.tracers := by cases c <;> rfl
@[simp] theorem State.setCache_tap (c : CacheId) (k : Cache) : (s.setCache c k).tap = s.tap := by cases c <;> rfl
@[simp] theorem State.setCache_bb (c : CacheId) (k : Cache) : (s.setCache c k).bb = s.bb := by cases c <;> rfl
@[simp] theorem State.setCache_dm (c : CacheId) (k : Cache) : (s.setCache c k).dm = s.dm := by cases c <;> rfl
@[simp] theorem State.setCache_sent (c : CacheId) (k : Cache) : (s.setCache c k).sent = s.sent := by cases c <;> rfl
@[simp] theorem State.setCache_inputs (c : CacheId) (k : Cache) : (s.setCache c k).inputs = s.inputs := by cases c <;> rfl
@[simp] theorem State.setCache_ret (c : CacheId) (k : Cache) : (s.setCache c k).ret = s.ret := by cases c <;> rfl
@[simp] theorem State.setCache_tapHalf (c : CacheId) (k : Cache) : (s.setCache c k).tapHalf = s.tapHalf := by cases c <;> rfl
@[simp] theorem State.setCache_running (c : CacheId) (k : Cache) : (s.setCache c k).running = s.running := by cases c <;> rfl

@[simp] theorem State.setCache_cache_self (c : CacheId) (k : Cache) : (s.setCache c k).cache c = some k := by
  cases c <;> rfl

theorem State.setCache_cache_ne {c d : CacheId} (h : d ≠ c) (k : Cache) : (s.setCache c k).cache d = s.cache d := by
  cases c <;> cases d <;> first | rfl | exact absurd rfl h

theorem State.setCache_cache (c d : CacheId) (k : Cache) :
    (s.setCache c k).cache d = if d = c then some k else s.cache d := by
  cases c <;> cases d <;> rfl

theorem State.tap_of_some {s : State} {t : Tap} (h : s.tapHalf = some t) : s.tap = t := by simp [State.tap, h]

theorem State.tap_congr {s t : State} (hp : t.params = s.params) (h : t.tapHalf = s.tapHalf) : t.tap = s.tap := by
  simp [State.tap, h, hp]

theorem State.cache_ic : s.cache .ic = s.ic := rfl

theorem State.cache_dc : s.cache .dc = s.dc := rfl

theorem State.cache_l2 : s.cache .l2 = s.l2 := rfl

end Sys2Proof.Machine
end

