-- ==== Sys2Proof/Laws/Table.lean ====
section
/-! SUPPORT. The line table: reading after writing, and the canonical form that every write keeps (log 18). -/

namespace Sys2Proof.Machine

theorem readSet_of_lt {blank : List Line} {t : SetTable} {i : Nat} (h : ∀ e ∈ t, i < e.1) : readSet blank t i = blank := by
  induction t with
  | nil => rfl
  | cons e t ih =>
    obtain ⟨k, v⟩ := e
    have hk : i < k := h (k, v) (by simp)
    simp only [readSet, if_neg (Nat.ne_of_gt hk)]
    exact ih fun e he => h e (by simp [he])

theorem readSet_mem {blank : List Line} {t : SetTable} (hs : t.Pairwise fun x y => x.1 < y.1) {e : Nat × List Line}
    (he : e ∈ t) : readSet blank t e.1 = e.2 := by
  induction t with
  | nil => cases he
  | cons d t ih =>
    obtain ⟨k, v⟩ := d
    rw [List.pairwise_cons] at hs
    rcases List.mem_cons.1 he with rfl | he
    · simp [readSet]
    · have : k ≠ e.1 := Nat.ne_of_lt (hs.1 e he)
      simp only [readSet, if_neg this]
      exact ih hs.2 he

theorem readSet_cases (blank : List Line) (t : SetTable) (i : Nat) :
    readSet blank t i = blank ∨ (i, readSet blank t i) ∈ t := by
  induction t with
  | nil => exact .inl rfl
  | cons d t ih =>
    obtain ⟨k, v⟩ := d
    by_cases h : k = i
    · subst h; simp [readSet]
    · simp only [readSet, if_neg h]
      rcases ih with ih | ih
      · exact .inl ih
      · exact .inr (by simp [ih])

/-- Reading any set after a write. -/
theorem readSet_writeSet {blank : List Line} {t : SetTable} (hs : t.Pairwise fun x y => x.1 < y.1) (i j : Nat)
    (v : List Line) : readSet blank (writeSet blank t i v) j = if j = i then v else readSet blank t j := by
  induction t with
  | nil =>
    by_cases hv : v = blank
    · simp [writeSet, readSet, hv]
    · simp [writeSet, readSet, hv, eq_comm]
  | cons d t ih =>
    obtain ⟨k, u⟩ := d
    rw [List.pairwise_cons] at hs
    rcases Nat.lt_trichotomy i k with hik | hik | hik
    · have hl : ∀ e ∈ (k, u) :: t, i < e.1 := by
        intro e he
        rcases List.mem_cons.1 he with rfl | he
        · exact hik
        · exact Nat.lt_trans hik (hs.1 e he)
      by_cases hv : v = blank
      · subst hv
        simp only [writeSet, if_pos hik, if_true]
        by_cases h : j = i
        · subst h; simpa using readSet_of_lt hl
        · simp [h]
      · simp only [writeSet, if_pos hik, if_neg hv]
        by_cases h : j = i
        · subst h; simp [readSet]
        · simp [readSet, h, Ne.symm h]
    · subst hik
      by_cases hv : v = blank
      · subst hv
        simp only [writeSet, Nat.lt_irrefl, if_false, if_true]
        by_cases h : j = i
        · subst h; simpa using readSet_of_lt hs.1
        · simp [readSet, h, Ne.symm h]
      · simp only [writeSet, Nat.lt_irrefl, if_false, if_true, if_neg hv]
        by_cases h : j = i
        · subst h; simp [readSet]
        · simp [readSet, h, Ne.symm h]
    · have h1 : ¬ i < k := by omega
      have h2 : i ≠ k := by omega
      simp only [writeSet, if_neg h1, if_neg h2, readSet]
      by_cases h : j = k
      · subst h; simp [Ne.symm h2]
      · simp only [if_neg (Ne.symm h)]
        exact ih hs.2

/-- An entry of a written table is the written one or an old one. -/
theorem mem_writeSet {blank : List Line} {t : SetTable} {i : Nat} {v : List Line} {e : Nat × List Line}
    (he : e ∈ writeSet blank t i v) : e = (i, v) ∧ v ≠ blank ∨ e ∈ t := by
  induction t with
  | nil =>
    by_cases hv : v = blank
    · simp [writeSet, hv] at he
    · simp only [writeSet, if_neg hv, List.mem_singleton] at he; exact .inl ⟨he, hv⟩
  | cons d t ih =>
    obtain ⟨k, u⟩ := d
    simp only [writeSet] at he
    split at he
    · split at he
      · exact .inr he
      · rcases List.mem_cons.1 he with rfl | he
        · exact .inl ⟨rfl, ‹_›⟩
        · exact .inr he
    · split at he
      · split at he
        · exact .inr (by simp [he])
        · rcases List.mem_cons.1 he with rfl | he
          · exact .inl ⟨rfl, ‹_›⟩
          · exact .inr (by simp [he])
      · rcases List.mem_cons.1 he with rfl | he
        · simp
        · rcases ih he with h | h
          · exact .inl h
          · exact .inr (by simp [h])

/-- Every write keeps the canonical form. -/
theorem writeSet_wf {blank : List Line} {t : SetTable} (h : SetTable.wf blank t) (i : Nat) (v : List Line) :
    SetTable.wf blank (writeSet blank t i v) := by
  refine ⟨?_, ?_⟩
  · obtain ⟨hs, -⟩ := h
    induction t with
    | nil => by_cases hv : v = blank <;> simp [writeSet, hv]
    | cons d t ih =>
      obtain ⟨k, u⟩ := d
      have hs' := List.pairwise_cons.1 hs
      simp only [writeSet]
      split
      · next hik =>
        split
        · exact hs
        · refine List.pairwise_cons.2 ⟨?_, hs⟩
          intro e he
          rcases List.mem_cons.1 he with rfl | he
          · exact hik
          · exact Nat.lt_trans hik (hs'.1 e he)
      · split
        · next _ hik =>
          subst hik
          split
          · exact hs'.2
          · exact List.pairwise_cons.2 hs'
        · refine List.pairwise_cons.2 ⟨?_, ih hs'.2⟩
          intro e he
          rcases mem_writeSet he with ⟨rfl, -⟩ | he
          · simp; omega
          · exact hs'.1 e he
  · intro e he
    rcases mem_writeSet he with ⟨rfl, hv⟩ | he
    · exact hv
    · exact h.2 e he

end Sys2Proof.Machine
end

