-- ==== Sys2Proof/Laws/Word.lean ====
section
/-! SUPPORT. Words and encodings: truncation, the shift, the instruction word, the codec, the spec string. -/

namespace Sys2Proof

theorem trunc_lt (n v : Nat) : trunc n v < 2 ^ n := Nat.mod_lt _ (by positivity)

theorem trunc_of_lt {n v : Nat} (h : v < 2 ^ n) : trunc n v = v := Nat.mod_eq_of_lt h

@[simp] theorem irOp_irWord (addr op : Nat) (h : op < 4) : irOp (irWord addr op) = op := by
  simp [irOp, irWord]; omega

theorem irWord_div (addr op : Nat) (h : op < 4) : irWord addr op / 4 = addr := by
  simp [irWord]; omega

theorem irWord_lt {p : Params} {addr op : Nat} (h : addr < 2 ^ p.abits) (ho : op < 4) :
    irWord addr op < 2 ^ p.irLen := by
  simp only [irWord, Params.irLen, pow_add]; omega

theorem irWord_split (w : Nat) : irWord (w / 4) (irOp w) = w := by
  simp [irWord, irOp]; omega

theorem isPow2_iff (n : Nat) : isPow2 n = true ↔ ∃ k, n = 2 ^ k := by
  simp only [isPow2, beq_iff_eq]
  constructor
  · intro h; exact ⟨_, h.symm⟩
  · rintro ⟨k, rfl⟩; rw [Nat.log2_two_pow]

theorem isPow2_pos {n : Nat} (h : isPow2 n = true) : 1 ≤ n := by
  obtain ⟨k, rfl⟩ := (isPow2_iff n).1 h
  exact Nat.one_le_two_pow

theorem bbDecode_reference {p : Params} (h : p.bbOverride = []) (b : Byte) : bbDecode p b = referenceDecode b := by
  simp [bbDecode, h]

@[simp] theorem referenceDecode_clockByte (tms tdi : Bool) :
    referenceDecode (clockByte tms tdi) = .clock tms tdi := by
  cases tms <;> cases tdi <;> rfl

theorem digit_ofNat {d : Nat} (h : d < 10) : digit (Char.ofNat (48 + d)) = some d := by
  interval_cases d <;> rfl

theorem digits_append (acc : Nat) (xs ys : Text) :
    digits acc (xs ++ ys) = (digits acc xs).bind fun n => digits n ys := by
  induction xs generalizing acc with
  | nil => rfl
  | cons c cs ih =>
    simp only [List.cons_append, digits]
    cases digit c with
    | none => rfl
    | some d => exact ih _

theorem digits_decimalFrom {fuel n : Nat} (h : n < fuel) : digits 0 (decimalFrom fuel n) = some n := by
  induction fuel generalizing n with
  | zero => omega
  | succ fuel ih =>
    simp only [decimalFrom]
    by_cases hn : n < 10
    · simp only [if_pos hn, List.nil_append, digits, Nat.mod_eq_of_lt hn, digit_ofNat hn]
      simp
    · have h10 : n % 10 < 10 := Nat.mod_lt _ (by omega)
      simp only [if_neg hn]
      rw [digits_append, ih (by omega)]
      simp only [Option.bind_some, digits, digit_ofNat h10]
      congr 1; omega

theorem decimalFrom_ne_nil (fuel n : Nat) : decimalFrom (fuel + 1) n ≠ [] := by
  simp [decimalFrom]

theorem numeral_decimal (n : Nat) : numeral (decimal n) = some n := by
  have h := digits_decimalFrom (Nat.lt_succ_self n)
  unfold decimal
  cases hc : decimalFrom (n + 1) n with
  | nil => exact absurd hc (decimalFrom_ne_nil n n)
  | cons c cs => rw [hc] at h; exact h

theorem decimalFrom_no_colon (fuel n : Nat) : ∀ c ∈ decimalFrom fuel n, (c == ':') = false := by
  induction fuel generalizing n with
  | zero => simp [decimalFrom]
  | succ fuel ih =>
    intro c hc
    have h10 : n % 10 < 10 := Nat.mod_lt _ (by omega)
    simp only [decimalFrom, List.mem_append, List.mem_singleton] at hc
    rcases hc with hc | rfl
    · by_cases hn : n < 10
      · simp [hn] at hc
      · simp only [if_neg hn] at hc; exact ih _ c hc
    · generalize n % 10 = d at h10
      interval_cases d <;> rfl

theorem splitColons_no_colon {t : Text} (h : ∀ c ∈ t, (c == ':') = false) : splitColons t = [t] := by
  induction t with
  | nil => rfl
  | cons c cs ih =>
    have hc := h c (by simp)
    simp only [splitColons, hc, ih fun d hd => h d (by simp [hd])]

theorem splitColons_append {t : Text} (h : ∀ c ∈ t, (c == ':') = false) (u : Text) :
    splitColons (t ++ ':' :: u) = t :: splitColons u := by
  induction t with
  | nil => simp [splitColons]
  | cons c cs ih =>
    have hc := h c (by simp)
    simp only [List.cons_append, splitColons, hc, ih fun d hd => h d (by simp [hd])]

/-- The digits of `digit` are the ASCII digits (30_encoding.md R82). -/
theorem digit_eq_some {c : Char} {d : Nat} : digit c = some d ↔ ('0' ≤ c ∧ c ≤ '9') ∧ d = c.toNat - 48 := by
  have h1 : ('0' ≤ c) ↔ 48 ≤ c.toNat := by
    show ('0' : Char).val ≤ c.val ↔ _
    rw [UInt32.le_iff_toNat_le]; rfl
  have h2 : (c ≤ '9') ↔ c.toNat ≤ 57 := by
    show c.val ≤ ('9' : Char).val ↔ _
    rw [UInt32.le_iff_toNat_le]; rfl
  rw [h1, h2]; unfold digit
  split <;> simp_all [eq_comm]

/-- Reading digits on from `acc` (30_encoding.md R82). -/
theorem digits_eq_some {t : Text} {acc n : Nat} : digits acc t = some n ↔ (∀ c ∈ t, '0' ≤ c ∧ c ≤ '9') ∧ n = t.foldl (fun m c => 10 * m + (c.toNat - '0'.toNat)) acc := by
  induction t generalizing acc with
  | nil => simp [digits, eq_comm]
  | cons c cs ih =>
    simp only [digits, List.mem_cons, forall_eq_or_imp, List.foldl_cons]
    cases hd : digit c with
    | none =>
      simp only [reduceCtorEq, false_iff]
      rintro ⟨⟨h, -⟩, -⟩
      have := (digit_eq_some (d := c.toNat - 48)).2 ⟨h, rfl⟩
      rw [hd] at this; cases this
    | some d =>
      obtain ⟨hr, rfl⟩ := digit_eq_some.1 hd
      simp only [ih, hr, true_and]; simp

theorem splitColons_ne_nil (t : Text) : splitColons t ≠ [] := by
  cases t with
  | nil => simp [splitColons]
  | cons c cs => simp only [splitColons]; split <;> simp

/-- The first field of a split text, and the rest of it. -/
theorem splitColons_cons {t f : Text} {fs : List Text} (h : splitColons t = f :: fs) :
    (∀ c ∈ f, (c == ':') = false) ∧ (fs = [] ∧ t = f ∨ ∃ u, t = f ++ ':' :: u ∧ splitColons u = fs) := by
  induction t generalizing f fs with
  | nil => simp [splitColons] at h; obtain ⟨rfl, rfl⟩ := h; simp
  | cons c cs ih =>
    simp only [splitColons] at h
    cases hc : (c == ':') with
    | true =>
      rw [hc] at h; simp only [List.cons.injEq] at h
      obtain ⟨rfl, rfl⟩ := h
      refine ⟨by simp, .inr ⟨cs, ?_, rfl⟩⟩
      simpa using hc
    | false =>
      rw [hc] at h
      cases hs : splitColons cs with
      | nil => exact absurd hs (splitColons_ne_nil cs)
      | cons g gs =>
        rw [hs] at h; simp only [List.cons.injEq] at h
        obtain ⟨rfl, rfl⟩ := h
        obtain ⟨h1, h2⟩ := ih hs
        refine ⟨by intro d hd; rcases List.mem_cons.1 hd with rfl | hd; exact hc; exact h1 d hd, ?_⟩
        rcases h2 with ⟨rfl, rfl⟩ | ⟨u, rfl, hu⟩
        · exact .inl ⟨rfl, rfl⟩
        · exact .inr ⟨u, rfl, hu⟩

end Sys2Proof

namespace Sys2Proof.Machine

/-- The shift in arithmetic: doubled, `tdi` added, truncated (42_dtm_registers.md R175). -/
theorem shiftIn_eq (n v : Nat) (tdi : Bool) : shiftIn n v tdi = (2 * v + tdi.toNat) % 2 ^ n := by
  have h : v <<< 1 ||| tdi.toNat = 2 * v + tdi.toNat := by
    have hb : tdi.toNat < 2 ^ 1 := by cases tdi <;> decide
    rw [Nat.shiftLeft_eq, Nat.mul_comm v, ← Nat.two_pow_add_eq_or_of_lt hb]
  simp [shiftIn, trunc, h]

theorem shiftIn_lt (n v : Nat) (tdi : Bool) : shiftIn n v tdi < 2 ^ n := trunc_lt _ _

end Sys2Proof.Machine
end

