-- ==== Sys2Proof/Laws/Cache.lean ====
section
/-! SUPPORT. One access to one instance: what the scan and the victim choice find, what a write to the line table leaves,
and that the invariants of 10_state.md R22, R32 hold of a fresh instance and are kept. -/

namespace Sys2Proof.Machine

variable {k : Cache} {a : Addr}

/-! ### Geometry is never written (10_state.md R22) -/

@[simp] theorem Cache.setLine_sets (s w : Nat) (l : Line) : (k.setLine s w l).sets = k.sets := rfl
@[simp] theorem Cache.setLine_ways (s w : Nat) (l : Line) : (k.setLine s w l).ways = k.ways := rfl
@[simp] theorem Cache.setLine_blockBytes (s w : Nat) (l : Line) : (k.setLine s w l).blockBytes = k.blockBytes := rfl
@[simp] theorem Cache.hitAt_sets (w : Nat) : (k.hitAt a w).sets = k.sets := rfl
@[simp] theorem Cache.hitAt_ways (w : Nat) : (k.hitAt a w).ways = k.ways := rfl
@[simp] theorem Cache.hitAt_blockBytes (w : Nat) : (k.hitAt a w).blockBytes = k.blockBytes := rfl
@[simp] theorem Cache.hitAt_label (w : Nat) : (k.hitAt a w).label = k.label := rfl
@[simp] theorem Cache.hitAt_next (w : Nat) : (k.hitAt a w).next = k.next := rfl
@[simp] theorem Cache.hitAt_accesses (w : Nat) : (k.hitAt a w).accesses = k.accesses + 1 := rfl
@[simp] theorem Cache.hitAt_hits (w : Nat) : (k.hitAt a w).hits = k.hits + 1 := rfl
@[simp] theorem Cache.install_sets : (k.install a).sets = k.sets := rfl
@[simp] theorem Cache.install_ways : (k.install a).ways = k.ways := rfl
@[simp] theorem Cache.install_blockBytes : (k.install a).blockBytes = k.blockBytes := rfl
@[simp] theorem Cache.install_label : (k.install a).label = k.label := rfl
@[simp] theorem Cache.install_next : (k.install a).next = k.next := rfl
@[simp] theorem Cache.install_accesses : (k.install a).accesses = k.accesses + 1 := rfl
@[simp] theorem Cache.install_hits : (k.install a).hits = k.hits := rfl

/-- What one access can be: the hit path with the way the scan found, or the miss path. -/
theorem Cache.touch_cases (k : Cache) (a : Addr) :
    (∃ w, k.lookup a = some w ∧ k.touch a = (k.hitAt a w, true)) ∨
      (k.lookup a = none ∧ k.touch a = (k.install a, false)) := by
  unfold Cache.touch
  cases h : k.lookup a with
  | some w => exact .inl ⟨w, rfl, rfl⟩
  | none => exact .inr ⟨rfl, rfl⟩

@[simp] theorem Cache.touch_sets : (k.touch a).1.sets = k.sets := by
  rcases k.touch_cases a with ⟨w, -, h⟩ | ⟨-, h⟩ <;> simp [h]

@[simp] theorem Cache.touch_ways : (k.touch a).1.ways = k.ways := by
  rcases k.touch_cases a with ⟨w, -, h⟩ | ⟨-, h⟩ <;> simp [h]

@[simp] theorem Cache.touch_blockBytes : (k.touch a).1.blockBytes = k.blockBytes := by
  rcases k.touch_cases a with ⟨w, -, h⟩ | ⟨-, h⟩ <;> simp [h]

@[simp] theorem Cache.touch_label : (k.touch a).1.label = k.label := by
  rcases k.touch_cases a with ⟨w, -, h⟩ | ⟨-, h⟩ <;> simp [h]

@[simp] theorem Cache.touch_next : (k.touch a).1.next = k.next := by
  rcases k.touch_cases a with ⟨w, -, h⟩ | ⟨-, h⟩ <;> simp [h]

@[simp] theorem Cache.touch_accesses : (k.touch a).1.accesses = k.accesses + 1 := by
  rcases k.touch_cases a with ⟨w, -, h⟩ | ⟨-, h⟩ <;> simp [h]

theorem Cache.touch_hits : (k.touch a).1.hits = k.hits + (k.touch a).2.toNat := by
  rcases k.touch_cases a with ⟨w, -, h⟩ | ⟨-, h⟩ <;> simp [h]

theorem Cache.touch_snd : (k.touch a).2 = (k.lookup a).isSome := by
  rcases k.touch_cases a with ⟨w, hl, h⟩ | ⟨hl, h⟩ <;> simp [h, hl]

/-! ### The scan and the victim -/

/-- The scan finds a valid line with the tag (40_cache.md R119). -/
theorem findWay_some {lines : List Line} {tag w : Nat} (h : findWay lines tag = some w) :
    w < lines.length ∧ (lines.getD w Line.invalid).valid = true ∧ (lines.getD w Line.invalid).tag = tag := by
  obtain ⟨hw, hp, -⟩ := List.findIdx?_eq_some_iff_getElem.1 h
  simp only [Bool.and_eq_true, beq_iff_eq] at hp
  rw [List.getD_eq_getElem _ _ hw]
  exact ⟨hw, hp.1, hp.2⟩

/-- The scan fails when no valid line has the tag (40_cache.md R119). -/
theorem findWay_none {lines : List Line} {tag : Nat} (h : findWay lines tag = none) (w : Nat)
    (hv : (lines.getD w Line.invalid).valid = true) : (lines.getD w Line.invalid).tag ≠ tag := by
  intro ht
  by_cases hw : w < lines.length
  · rw [List.getD_eq_getElem _ _ hw] at hv ht
    have := List.findIdx?_eq_none_iff.1 h _ (List.getElem_mem hw)
    simp [hv, ht] at this
  · rw [List.getD_eq_default _ _ (Nat.le_of_not_lt hw)] at hv
    cases hv

theorem exists_least_stamp {lines : List Line} (h : lines ≠ []) :
    ∃ l ∈ lines, ∀ l' ∈ lines, l.lastUsed ≤ l'.lastUsed := by
  induction lines with
  | nil => exact absurd rfl h
  | cons x xs ih =>
    by_cases hx : xs = []
    · subst hx; exact ⟨x, by simp, by simp⟩
    · obtain ⟨m, hm, hle⟩ := ih hx
      by_cases hxm : x.lastUsed ≤ m.lastUsed
      · refine ⟨x, by simp, ?_⟩
        intro l' hl'
        rcases List.mem_cons.1 hl' with rfl | hl'
        · exact Nat.le_refl _
        · exact Nat.le_trans hxm (hle l' hl')
      · refine ⟨m, by simp [hm], ?_⟩
        intro l' hl'
        rcases List.mem_cons.1 hl' with rfl | hl'
        · omega
        · exact hle l' hl'

/-- The victim of a set that has ways is one of them (40_cache.md R121). -/
theorem victimWay_lt {lines : List Line} (h : lines ≠ []) : victimWay lines < lines.length := by
  obtain ⟨l, hl, hle⟩ := exists_least_stamp h
  exact List.findIdx_lt_length_of_exists ⟨l, hl, by simpa using hle⟩

/-- The victim has the smallest stamp of its set (40_cache.md R121). -/
theorem victimWay_le {lines : List Line} {w : Nat} (hw : w < lines.length) :
    (lines.getD (victimWay lines) Line.invalid).lastUsed ≤ (lines.getD w Line.invalid).lastUsed := by
  have hne : lines ≠ [] := by rintro rfl; simp at hw
  have hv := victimWay_lt hne
  have hp := List.findIdx_getElem (w := hv)
  simp only [List.all_eq_true, decide_eq_true_eq] at hp
  rw [List.getD_eq_getElem _ _ hw, List.getD_eq_getElem _ _ hv]
  exact hp _ (List.getElem_mem hw)

/-- The victim is the lowest way of that stamp (40_cache.md R121). -/
theorem victimWay_lowest {lines : List Line} {w : Nat} (hw : w < victimWay lines) (hl : w < lines.length) :
    (lines.getD (victimWay lines) Line.invalid).lastUsed < (lines.getD w Line.invalid).lastUsed := by
  have hne : lines ≠ [] := by rintro rfl; simp at hl
  have hv := victimWay_lt hne
  have hn : ¬ (lines.all fun l' => decide (lines[w].lastUsed ≤ l'.lastUsed)) = true := by
    simpa using List.not_of_lt_findIdx hw
  by_contra hcon
  apply hn
  simp only [List.all_eq_true, decide_eq_true_eq]
  intro l' hl'
  obtain ⟨j, hj, rfl⟩ := List.mem_iff_getElem.1 hl'
  have := victimWay_le hj
  rw [List.getD_eq_getElem _ _ hj] at this
  rw [List.getD_eq_getElem _ _ hl] at hcon
  omega

/-! ### Lines after a write -/

theorem Cache.set_length (h : k.Inv) (i : Nat) : (k.set i).length = k.ways := by
  rcases readSet_cases k.blankSet k.table i with hb | hm
  · rw [Cache.set, hb, Cache.blankSet, List.length_replicate]
  · exact (h.inRange _ hm).2

theorem Cache.index_lt (h : k.Inv) : k.index a < k.sets := Nat.mod_lt _ (isPow2_pos h.setsPow2)

theorem Cache.line_setLine (h : k.Inv) {s w : Nat} (hw : w < k.ways) (l : Line) (s' w' : Nat) :
    (k.setLine s w l).line s' w' = if s' = s ∧ w' = w then l else k.line s' w' := by
  have hset : (k.setLine s w l).set s' = if s' = s then (k.set s).set w l else k.set s' :=
    readSet_writeSet h.canonical.1 s s' _
  simp only [Cache.line, hset]
  by_cases hs : s' = s
  · subst hs
    have hl : w < (k.set s').length := by rw [Cache.set_length h]; exact hw
    by_cases hww : w' = w
    · subst hww; simp [List.getD, hl]
    · simp [List.getD, List.getElem?_set_ne (Ne.symm hww), hww]
  · simp [hs]

theorem Cache.line_out_of_ways (h : k.Inv) {s w : Nat} (hw : k.ways ≤ w) : k.line s w = Line.invalid := by
  have := Cache.set_length h s
  exact List.getD_eq_default _ _ (by omega)

theorem Cache.way_lt_of_valid (h : k.Inv) {s w : Nat} (hv : (k.line s w).valid = true) : w < k.ways := by
  by_contra hw
  rw [Cache.line_out_of_ways h (by omega)] at hv
  cases hv

theorem Cache.lookup_some (h : k.Inv) {w : Nat} (hl : k.lookup a = some w) :
    w < k.ways ∧ (k.line (k.index a) w).valid = true ∧ (k.line (k.index a) w).tag = k.tag a := by
  have := findWay_some hl
  rw [Cache.set_length h] at this
  exact this

theorem Cache.lookup_none (hl : k.lookup a = none) (w : Nat) (hv : (k.line (k.index a) w).valid = true) :
    (k.line (k.index a) w).tag ≠ k.tag a := findWay_none hl w hv

/-- The scan finds a way that is known to match (40_cache.md R119). -/
theorem Cache.lookup_eq_some {k : Cache} {a : Addr} {w : Nat} (h : k.Inv) (hv : (k.line (k.index a) w).valid = true) (ht : (k.line (k.index a) w).tag = k.tag a) : k.lookup a = some w := by
  cases hl : k.lookup a with
  | none => exact absurd ht (Cache.lookup_none hl w hv)
  | some w' =>
    obtain ⟨_, hv', ht'⟩ := Cache.lookup_some h hl
    rw [h.tagsDiffer _ w w' hv hv' (ht.trans ht'.symm)]

/-- The scan fails where no valid way matches (40_cache.md R119). -/
theorem Cache.lookup_eq_none {k : Cache} {a : Addr} (h : k.Inv) (hn : ∀ w, (k.line (k.index a) w).valid = true → (k.line (k.index a) w).tag ≠ k.tag a) : k.lookup a = none := by
  cases hl : k.lookup a with
  | none => rfl
  | some w' =>
    obtain ⟨_, hv', ht'⟩ := Cache.lookup_some h hl
    exact absurd ht' (hn _ hv')

/-- The way that an access misses into (40_cache.md R121). -/
theorem Cache.victim_lt (h : k.Inv) (i : Nat) : victimWay (k.set i) < k.ways := by
  have hl := Cache.set_length h i
  have := victimWay_lt (lines := k.set i) (by intro hn; rw [hn] at hl; have := h.waysPos; simp at hl; omega)
  omega

/-- Every line after the hit path (40_cache.md R120). -/
theorem Cache.line_hitAt (h : k.Inv) {w : Nat} (hw : w < k.ways) (s' w' : Nat) :
    (k.hitAt a w).line s' w' =
      if s' = k.index a ∧ w' = w then { k.line (k.index a) w with lastUsed := k.accesses + 1 } else k.line s' w' :=
  Cache.line_setLine h hw _ s' w'

/-- Every line after the miss path (40_cache.md R121). -/
theorem Cache.line_install (h : k.Inv) (s' w' : Nat) :
    (k.install a).line s' w' =
      if s' = k.index a ∧ w' = victimWay (k.set (k.index a)) then ⟨true, k.tag a, k.accesses + 1⟩
      else k.line s' w' :=
  Cache.line_setLine h (Cache.victim_lt h _) _ s' w'

/-! ### Counting valid lines -/

theorem sum_writeSet {blank : List Line} (hb : blank.countP Line.valid = 0) {t : SetTable}
    (hs : t.Pairwise fun x y => x.1 < y.1) (i : Nat) (v : List Line) :
    ((writeSet blank t i v).map fun e => e.2.countP Line.valid).sum + (readSet blank t i).countP Line.valid =
      (t.map fun e => e.2.countP Line.valid).sum + v.countP Line.valid := by
  induction t with
  | nil =>
    by_cases hv : v = blank
    · simp [writeSet, readSet, hv, hb]
    · simp [writeSet, readSet, hv, hb]
  | cons d t ih =>
    obtain ⟨j, u⟩ := d
    have hs' := List.pairwise_cons.1 hs
    rcases Nat.lt_trichotomy i j with hij | hij | hij
    · have hr : readSet blank ((j, u) :: t) i = blank := by
        apply readSet_of_lt
        intro e he
        rcases List.mem_cons.1 he with rfl | he
        · exact hij
        · exact Nat.lt_trans hij (hs'.1 e he)
      rw [hr]
      by_cases hv : v = blank
      · simp [writeSet, hij, hv]
      · simp [writeSet, hij, hv, hb]; omega
    · subst hij
      by_cases hv : v = blank
      · simp [writeSet, readSet, hv, hb]; omega
      · simp [writeSet, readSet, hv]; omega
    · have h1 : ¬ i < j := by omega
      have h2 : i ≠ j := by omega
      have := ih hs'.2
      simp only [writeSet, if_neg h1, if_neg h2, readSet, if_neg (Ne.symm h2), List.map_cons, List.sum_cons]
      omega

theorem countP_set {lines : List Line} {w : Nat} (hw : w < lines.length) (l : Line) :
    (lines.set w l).countP Line.valid + (lines.getD w Line.invalid).valid.toNat =
      lines.countP Line.valid + l.valid.toNat := by
  induction lines generalizing w with
  | nil => simp at hw
  | cons x xs ih =>
    cases w with
    | zero => simp [List.countP_cons]; cases x.valid <;> cases l.valid <;> simp
    | succ w =>
      have := ih (w := w) (by simpa using hw)
      simp only [List.set_cons_succ, List.countP_cons, List.getD_cons_succ]
      omega

theorem blankSet_countP (k : Cache) : k.blankSet.countP Line.valid = 0 := by
  simp [Cache.blankSet, List.countP_replicate, Line.invalid]

theorem Cache.validCount_setLine (h : k.Inv) {s w : Nat} (hw : w < k.ways) (l : Line) :
    (k.setLine s w l).validCount + (k.line s w).valid.toNat = k.validCount + l.valid.toNat := by
  have h1 := sum_writeSet (blankSet_countP k) h.canonical.1 s ((k.set s).set w l)
  have h2 := countP_set (lines := k.set s) (w := w) (by rw [Cache.set_length h]; exact hw) l
  simp only [Cache.validCount, Cache.setLine, Cache.line, Cache.set] at *
  omega

/-- A table of sorted set indexes below `S`, each with `W` ways, has at most `S * W` valid lines. -/
theorem countLines_of_shape {t : SetTable} {sets ways : Nat} (hs : t.Pairwise fun x y => x.1 < y.1)
    (hr : ∀ e ∈ t, e.1 < sets ∧ e.2.length = ways) : (t.map fun e => e.2.countP Line.valid).sum ≤ sets * ways := by
  have h1 : (t.map fun e => e.2.countP Line.valid).sum ≤ t.length * ways := by
    clear hs
    induction t with
    | nil => simp
    | cons e t ih =>
      have he := (hr e (by simp)).2
      have := List.countP_le_length (p := Line.valid) (l := e.2)
      have := ih fun d hd => hr d (by simp [hd])
      simp only [List.map_cons, List.sum_cons, List.length_cons, Nat.add_mul, Nat.one_mul]
      omega
  have h2 : t.length ≤ sets := by
    have hn : (t.map Prod.fst).Nodup := by
      rw [List.nodup_iff_pairwise_ne, List.pairwise_map]
      exact hs.imp fun h => Nat.ne_of_lt h
    have hsub : t.map Prod.fst ⊆ List.range sets := by
      intro x hx
      obtain ⟨e, he, rfl⟩ := List.mem_map.1 hx
      exact List.mem_range.2 (hr e he).1
    have := (List.subperm_of_subset hn hsub).length_le
    simpa using this
  exact Nat.le_trans h1 (Nat.mul_le_mul_right _ h2)

/-! ### The invariants -/

theorem Cache.fresh_line (s w b : Nat) (label : Text) (i j : Nat) :
    (Cache.fresh s w b label).line i j = Line.invalid := by
  simp [Cache.fresh, Cache.line, Cache.set, readSet, Cache.blankSet, List.getD, List.getElem?_replicate]
  split <;> rfl

/-- A new instance with a valid geometry has the invariants (10_state.md R32). -/
theorem Cache.fresh_inv {s w b : Nat} (label : Text) (hs : isPow2 s = true) (hb : isPow2 b = true) (hw : 1 ≤ w) :
    (Cache.fresh s w b label).Inv where
  setsPow2 := hs
  blockPow2 := hb
  waysPos := hw
  canonical := by simp [Cache.fresh, SetTable.wf]
  inRange := by simp [Cache.fresh]
  hitsLe := Nat.le_refl _
  invalidZero := by intro i j _; simp [Cache.fresh_line, Line.invalid]
  validStamp := by intro i j h; simp [Cache.fresh_line, Line.invalid] at h
  stampsDiffer := by intro i j i' j' h; simp [Cache.fresh_line, Line.invalid] at h
  tagsDiffer := by intro i j j' h; simp [Cache.fresh_line, Line.invalid] at h
  countMisses := by simp [Cache.validCount, Cache.fresh]
  countLines := by simp [Cache.validCount, Cache.fresh]

/-- The miss handler is no part of the invariants (40_cache.md R113 writes it alone). -/
theorem Cache.next_inv (h : k.Inv) (u : Option CacheId) : Cache.Inv { k with next := u } where
  setsPow2 := h.setsPow2
  blockPow2 := h.blockPow2
  waysPos := h.waysPos
  canonical := h.canonical
  inRange := h.inRange
  hitsLe := h.hitsLe
  invalidZero := h.invalidZero
  validStamp := h.validStamp
  stampsDiffer := h.stampsDiffer
  tagsDiffer := h.tagsDiffer
  countMisses := h.countMisses
  countLines := h.countLines

/-- Writing a valid line, stamped by the access that writes it, keeps the invariants: the common part of the hit path and
the miss path. `h'` is the new hit count. -/
theorem Cache.stamp_inv (h : k.Inv) {w tag h' : Nat} (hw : w < k.ways)
    (htag : ∀ w', w' ≠ w → (k.line (k.index a) w').valid = true → (k.line (k.index a) w').tag ≠ tag)
    (hh : h' ≤ k.accesses + 1)
    (hcount : k.validCount + 1 ≤ k.accesses + 1 - h' + (k.line (k.index a) w).valid.toNat) :
    Cache.Inv { k.setLine (k.index a) w ⟨true, tag, k.accesses + 1⟩ with accesses := k.accesses + 1, hits := h' } := by
  have hi := Cache.index_lt (a := a) h
  have hl := Cache.line_setLine h (s := k.index a) hw ⟨true, tag, k.accesses + 1⟩
  have hlen : ((k.set (k.index a)).set w ⟨true, tag, k.accesses + 1⟩).length = k.ways := by
    simp [Cache.set_length h]
  have hr : ∀ e ∈ (k.setLine (k.index a) w ⟨true, tag, k.accesses + 1⟩).table, e.1 < k.sets ∧ e.2.length = k.ways := by
    intro e he
    rcases mem_writeSet he with ⟨rfl, -⟩ | he
    · exact ⟨hi, hlen⟩
    · exact h.inRange e he
  have hc : SetTable.wf k.blankSet (k.setLine (k.index a) w ⟨true, tag, k.accesses + 1⟩).table :=
    writeSet_wf h.canonical _ _
  refine
    { setsPow2 := h.setsPow2, blockPow2 := h.blockPow2, waysPos := h.waysPos, canonical := hc, inRange := hr,
      hitsLe := hh, invalidZero := ?_, validStamp := ?_, stampsDiffer := ?_, tagsDiffer := ?_, countMisses := ?_,
      countLines := countLines_of_shape hc.1 hr }
  · intro s' w'
    show ((k.setLine (k.index a) w ⟨true, tag, k.accesses + 1⟩).line s' w').valid = false →
      ((k.setLine (k.index a) w ⟨true, tag, k.accesses + 1⟩).line s' w').lastUsed = 0 ∧
        ((k.setLine (k.index a) w ⟨true, tag, k.accesses + 1⟩).line s' w').tag = 0
    rw [hl]
    split
    · simp
    · exact h.invalidZero s' w'
  · intro s' w'
    show ((k.setLine (k.index a) w ⟨true, tag, k.accesses + 1⟩).line s' w').valid = true →
      1 ≤ ((k.setLine (k.index a) w ⟨true, tag, k.accesses + 1⟩).line s' w').lastUsed ∧
        ((k.setLine (k.index a) w ⟨true, tag, k.accesses + 1⟩).line s' w').lastUsed ≤ k.accesses + 1
    rw [hl]
    split
    · simp
    · intro hv
      have := h.validStamp s' w' hv
      omega
  · intro s1 w1 s2 w2
    show ((k.setLine (k.index a) w ⟨true, tag, k.accesses + 1⟩).line s1 w1).valid = true →
      ((k.setLine (k.index a) w ⟨true, tag, k.accesses + 1⟩).line s2 w2).valid = true →
      ((k.setLine (k.index a) w ⟨true, tag, k.accesses + 1⟩).line s1 w1).lastUsed =
        ((k.setLine (k.index a) w ⟨true, tag, k.accesses + 1⟩).line s2 w2).lastUsed → s1 = s2 ∧ w1 = w2
    rw [hl, hl]
    split
    · next h1 =>
      split
      · next h2 => intros; exact ⟨h1.1.trans h2.1.symm, h1.2.trans h2.2.symm⟩
      · intro _ hv he
        have := (h.validStamp s2 w2 hv).2
        simp at he; omega
    · split
      · intro hv _ he
        have := (h.validStamp s1 w1 hv).2
        simp at he; omega
      · exact h.stampsDiffer s1 w1 s2 w2
  · intro s1 w1 w2
    show ((k.setLine (k.index a) w ⟨true, tag, k.accesses + 1⟩).line s1 w1).valid = true →
      ((k.setLine (k.index a) w ⟨true, tag, k.accesses + 1⟩).line s1 w2).valid = true →
      ((k.setLine (k.index a) w ⟨true, tag, k.accesses + 1⟩).line s1 w1).tag =
        ((k.setLine (k.index a) w ⟨true, tag, k.accesses + 1⟩).line s1 w2).tag → w1 = w2
    rw [hl, hl]
    split
    · next h1 =>
      obtain ⟨rfl, rfl⟩ := h1
      split
      · next h2 => intros; exact h2.2.symm
      · next h2 =>
        intro _ hv he
        exact absurd he.symm (htag w2 (fun hc => h2 ⟨rfl, hc⟩) hv)
    · next h1 =>
      split
      · next h2 =>
        obtain ⟨rfl, rfl⟩ := h2
        intro hv _ he
        exact absurd he (htag w1 (fun hc => h1 ⟨rfl, hc⟩) hv)
      · exact h.tagsDiffer s1 w1 w2
  · have := Cache.validCount_setLine h (s := k.index a) hw ⟨true, tag, k.accesses + 1⟩
    show (k.setLine (k.index a) w ⟨true, tag, k.accesses + 1⟩).validCount ≤ k.accesses + 1 - h'
    simp only [Bool.toNat_true] at this
    omega

/-- One access keeps the invariants (10_state.md R32). -/
theorem Cache.touch_inv (h : k.Inv) (a : Addr) : (k.touch a).1.Inv := by
  have hc := h.countMisses
  have hle := h.hitsLe
  rcases k.touch_cases a with ⟨w, hl, ht⟩ | ⟨hl, ht⟩
  · obtain ⟨hw, hv, htag⟩ := Cache.lookup_some h hl
    have hline : { k.line (k.index a) w with lastUsed := k.accesses + 1 } = ⟨true, k.tag a, k.accesses + 1⟩ := by
      rw [← htag, ← hv]
    rw [ht]
    show Cache.Inv (k.hitAt a w)
    unfold Cache.hitAt
    rw [hline]
    refine Cache.stamp_inv (a := a) h hw ?_ (by omega) (by rw [hv]; simp only [Bool.toNat_true]; omega)
    intro w' hne hv' ht'
    exact hne (h.tagsDiffer _ w' w hv' hv (ht'.trans htag.symm))
  · rw [ht]
    refine Cache.stamp_inv (a := a) (h' := k.hits) h (Cache.victim_lt h _) ?_ (by omega) (by omega)
    intro w' _ hv'
    exact Cache.lookup_none hl w' hv'

end Sys2Proof.Machine
end

