-- ==== Sys2Proof/Laws/Access.lean ====
section
/-! SUPPORT. What `access` and `notify` can do, said once: any property that single accesses keep is kept by the whole
forwarding chain; when the chain ends, the access completes; what stays unchanged. -/

namespace Sys2Proof.Machine

/-! ### `andThen` -/

@[simp] theorem andThen_next (s : State) (f : State → Result) : andThen (.next s) f = f s := rfl

theorem andThen_eq_next {o : Result} {f : State → Result} {t : State} (h : andThen o f = .next t) :
    ∃ s, o = .next s ∧ f s = .next t := by
  cases o with
  | next s => exact ⟨s, rfl, h⟩
  | fault r => cases h
  | refused r => cases h

/-! ### The chain -/

/-- A property that every single access keeps is kept by an access and all that it forwards (40_cache.md R118, R122). -/
theorem accessChain_induct {P : State → Prop} {a : Addr} {isWrite : Bool}
    (hP : ∀ s c k, s.cache c = some k → P s → P (s.setCache c (k.touch a).1)) {fuel : Nat} {c : CacheId} {s t : State}
    (h : accessChain fuel c a isWrite s = .next t) (hs : P s) : P t := by
  induction fuel generalizing c s with
  | zero => cases h
  | succ fuel ih =>
    simp only [accessChain] at h
    cases hc : s.cache c with
    | none => simp [hc] at h
    | some k =>
      have hk := hP s c k hc hs
      simp only [hc] at h
      rcases ht : k.touch a with ⟨k', b⟩
      rw [ht] at h hk
      cases b with
      | true => cases h; exact hk
      | false =>
        simp only at h
        cases hn : k.next with
        | none => simp only [hn] at h; cases h; exact hk
        | some u => simp only [hn] at h; exact ih h hk

/-- `access` keeps what single accesses and the returned value keep. -/
theorem access_induct {P : State → Prop} {a : Addr} {isWrite : Bool}
    (hP : ∀ s c k, s.cache c = some k → P s → P (s.setCache c (k.touch a).1)) (hr : ∀ s r, P s → P (s.withRet r))
    {c : CacheId} {s t : State} (h : access c a isWrite s = .next t) (hs : P s) : P t := by
  obtain ⟨u, hu, ht⟩ := andThen_eq_next h
  cases ht
  exact hr _ _ (accessChain_induct hP hu hs)

theorem notifyAll_induct {P : State → Prop} {a : Addr} {kd : Kind}
    (hP : ∀ s c k, s.cache c = some k → P s → P (s.setCache c (k.touch a).1)) (hr : ∀ s r, P s → P (s.withRet r))
    {ts : List CacheId} {s t : State} (h : notifyAll a kd ts s = .next t) (hs : P s) : P t := by
  induction ts generalizing s with
  | nil => cases h; exact hs
  | cons x xs ih =>
    simp only [notifyAll] at h
    cases hx : accepts x kd with
    | none => simp only [hx] at h; exact ih h hs
    | some w =>
      simp only [hx] at h
      obtain ⟨u, hu, hv⟩ := andThen_eq_next h
      exact ih hv (access_induct hP hr hu hs)

/-- `notify` keeps what single accesses and the returned value keep. -/
theorem notify_induct {P : State → Prop} {a : Addr} {kd : Kind}
    (hP : ∀ s c k, s.cache c = some k → P s → P (s.setCache c (k.touch a).1)) (hr : ∀ s r, P s → P (s.withRet r))
    {h : Nat} {s t : State} (hn : notify h a kd s = .next t) (hs : P s) : P t := by
  unfold notify at hn
  cases hts : s.tracers[h]? with
  | none => simp [hts] at hn
  | some ts =>
    simp only [hts] at hn
    obtain ⟨u, hu, hv⟩ := andThen_eq_next hn
    cases hv
    exact hr _ _ (notifyAll_induct hP hr hu hs)

/-! ### What stays unchanged -/

theorem sameDebugHalf_refl (s : State) : sameDebugHalf s s := ⟨rfl, rfl, rfl, rfl, rfl, rfl, rfl⟩

/-- An access changes caches and the returned value only (20_memory.md R68). -/
theorem access_frame {c : CacheId} {a : Addr} {isWrite : Bool} {s t : State} (h : access c a isWrite s = .next t) :
    sameDebugHalf s t ∧ t.tracers = s.tracers :=
  access_induct (P := fun x => sameDebugHalf s x ∧ x.tracers = s.tracers)
    (by intro x c k _ hx; simpa [sameDebugHalf] using hx) (by intro x r hx; simpa [sameDebugHalf] using hx) h
    ⟨sameDebugHalf_refl s, rfl⟩

/-- A notification changes caches and the returned value only (40_cache.md R116). -/
theorem notify_frame {h : Nat} {a : Addr} {kd : Kind} {s t : State} (hn : notify h a kd s = .next t) :
    sameDebugHalf s t ∧ t.tracers = s.tracers :=
  notify_induct (P := fun x => sameDebugHalf s x ∧ x.tracers = s.tracers)
    (by intro x c k _ hx; simpa [sameDebugHalf] using hx) (by intro x r hx; simpa [sameDebugHalf] using hx) hn
    ⟨sameDebugHalf_refl s, rfl⟩

/-! ### Completion -/

theorem chainEnds_touch {s : State} {c : CacheId} {k : Cache} {a : Addr} (hc : s.cache c = some k) (fuel : Nat)
    (d : CacheId) : chainEnds (s.setCache c (k.touch a).1) fuel d = chainEnds s fuel d := by
  induction fuel generalizing d with
  | zero => rfl
  | succ fuel ih =>
    simp only [chainEnds, State.setCache_cache]
    by_cases hd : d = c
    · subst hd; simp only [if_true, hc, Cache.touch_next]
      cases k.next with
      | none => rfl
      | some u => exact ih u
    · simp only [if_neg hd]
      cases s.cache d with
      | none => rfl
      | some k' =>
        cases hn : k'.next with
        | none => simp only [hn]
        | some u => simp only [hn]; exact ih u

/-- An access completes when its chain ends (60_exceptions.md R227). -/
theorem accessChain_completes {fuel : Nat} {c : CacheId} {s : State} (h : chainEnds s fuel c = true) (a : Addr)
    (isWrite : Bool) : ∃ t, accessChain fuel c a isWrite s = .next t := by
  induction fuel generalizing c s with
  | zero => cases h
  | succ fuel ih =>
    simp only [chainEnds] at h
    cases hc : s.cache c with
    | none => simp [hc] at h
    | some k =>
      simp only [hc] at h
      simp only [accessChain, hc]
      rcases ht : k.touch a with ⟨k', b⟩
      cases b with
      | true => exact ⟨_, rfl⟩
      | false =>
        cases hn : k.next with
        | none => exact ⟨_, rfl⟩
        | some u =>
          simp only [hn] at h
          apply ih
          have := chainEnds_touch (a := a) hc fuel u
          rw [ht] at this
          rw [this]; exact h

/-- More fuel changes nothing once a chain completes. -/
theorem accessChain_fuel {fuel : Nat} {c : CacheId} {a : Addr} {isWrite : Bool} {s t : State}
    (h : accessChain fuel c a isWrite s = .next t) : accessChain (fuel + 1) c a isWrite s = .next t := by
  induction fuel generalizing c s with
  | zero => cases h
  | succ fuel ih =>
    rw [accessChain] at h ⊢
    cases hc : s.cache c with
    | none => simp [hc] at h
    | some k =>
      simp only [hc] at h ⊢
      rcases ht : k.touch a with ⟨k', b⟩
      rw [ht] at h
      cases b with
      | true => exact h
      | false =>
        cases hn : k.next with
        | none => simpa [hn] using h
        | some u => simp only [hn] at h ⊢; exact ih h

theorem access_completes {c : CacheId} {s : State} (h : chainEnds s maxLevels c = true) (a : Addr) (isWrite : Bool) :
    ∃ t, access c a isWrite s = .next t := by
  obtain ⟨t, ht⟩ := accessChain_completes h a isWrite
  exact ⟨t.withRet (.hit (wouldHit s c a)), by simp [access, ht]⟩

/-! ### What else can come out -/

/-- An access completes, or meets a chain that does not end or a cache that was not built. -/
theorem accessChain_outcomes {fuel c a w s} : (∃ t, accessChain fuel c a w s = .next t) ∨ accessChain fuel c a w s = .fault .cyclicChain ∨ accessChain fuel c a w s = .refused .noSuchCache := by
  induction fuel generalizing c s with
  | zero => exact .inr (.inl rfl)
  | succ n ih =>
    simp only [accessChain]
    cases s.cache c with
    | none => exact .inr (.inr rfl)
    | some k =>
      simp only []
      rcases k.touch a with ⟨k', b⟩
      cases b
      · cases k.next with
        | none => exact .inl ⟨_, rfl⟩
        | some u => exact ih
      · exact .inl ⟨_, rfl⟩

/-- The same of the whole operation. -/
theorem access_outcomes {c a w s} : (∃ t, access c a w s = .next t) ∨ access c a w s = .fault .cyclicChain ∨ access c a w s = .refused .noSuchCache := by
  rcases accessChain_outcomes (fuel := maxLevels) (c := c) (a := a) (w := w) (s := s) with ⟨t, h⟩ | h | h
  · exact .inl ⟨_, by simp [access, h]; rfl⟩
  · exact .inr (.inl (by simp [access, h, andThen]))
  · exact .inr (.inr (by simp [access, h, andThen]))

theorem notifyAll_outcomes {a k ts s} : (∃ t, notifyAll a k ts s = .next t) ∨ notifyAll a k ts s = .fault .cyclicChain ∨ notifyAll a k ts s = .refused .noSuchCache := by
  induction ts generalizing s with
  | nil => exact .inl ⟨_, rfl⟩
  | cons t ts ih =>
    simp only [notifyAll]
    cases accepts t k with
    | none => exact ih
    | some w =>
      rcases access_outcomes (c := t) (a := a) (w := w) (s := s) with ⟨t, h⟩ | h | h
      · simp only [h, andThen_next]; exact ih
      · exact .inr (.inl (by simp [h, andThen]))
      · exact .inr (.inr (by simp [h, andThen]))

/-- The same of a notification, which may also name no hart. -/
theorem notify_outcomes {h a k s} : (∃ t, notify h a k s = .next t) ∨ notify h a k s = .fault .cyclicChain ∨ notify h a k s = .refused .noSuchCache ∨ notify h a k s = .refused .noSuchHart := by
  unfold notify
  cases s.tracers[h]? with
  | none => simp
  | some ts =>
    rcases notifyAll_outcomes (a := a) (k := k) (ts := ts) (s := s) with ⟨t, h⟩ | h | h <;> simp [h, andThen]

/-! ### Which tracer a notification reaches -/

/-- Tracers that take no such kind leave the state as it is (30_encoding.md R88). -/
theorem notifyAll_none {a k} {ts : List CacheId} {s} (h : ∀ t ∈ ts, accepts t k = none) : notifyAll a k ts s = .next s := by
  induction ts with
  | nil => rfl
  | cons t ts ih => simp only [notifyAll, h t (by simp)]; exact ih fun t ht => h t (by simp [ht])

/-- Where one tracer alone takes the kind, a notification is its access (40_cache.md R116). -/
theorem notifyAll_one {a k} {ts : List CacheId} {s} {c w} (hn : ts.Nodup) (hc : accepts c k = some w) (ho : ∀ d, d ≠ c → accepts d k = none) :
   notifyAll a k ts s = if c ∈ ts then access c a w s else .next s := by
  induction ts generalizing s with
  | nil => rfl
  | cons t ts ih =>
    rw [List.nodup_cons] at hn
    by_cases h : t = c
    · subst h
      simp only [notifyAll, hc, List.mem_cons, true_or, if_true]
      have : ∀ x, notifyAll a k ts x = .next x := fun x => notifyAll_none (by intro d hd; exact ho d (by rintro rfl; exact hn.1 hd))
      cases access t a w s <;> simp [andThen, this]
    · simp only [notifyAll, ho t h, ih hn.2, List.mem_cons, Ne.symm h, false_or]

/-! ### The walk of `attach` -/

/-- On a chain that ends, the walk finds exactly what is reached by following `next` (40_cache.md R113 step 1). -/
theorem chainReaches_iff {s : State} {n : Nat} {c d : CacheId} (h : chainEnds s n c = true) :
    chainReaches s n c d = true ↔ NextReaches s c d := by
  induction n generalizing c with
  | zero => cases h
  | succ n ih =>
    simp only [chainEnds] at h
    cases hc : s.cache c with
    | none => simp [hc] at h
    | some k =>
      simp only [hc] at h
      simp only [chainReaches, hc, Option.bind_some, Bool.or_eq_true, beq_iff_eq]
      cases hn : k.next with
      | none =>
        simp
        constructor
        · rintro rfl; exact .here _
        · intro hr
          cases hr with
          | here => rfl
          | step h1 h2 => rw [hc] at h1; cases h1; rw [hn] at h2; cases h2
      | some u =>
        simp only [hn] at h
        simp only [ih h]
        constructor
        · rintro (rfl | hr)
          · exact .here _
          · exact .step hc hn hr
        · intro hr
          cases hr with
          | here => exact .inl rfl
          | step h1 h2 h3 => rw [hc] at h1; cases h1; rw [hn] at h2; cases h2; exact .inr h3

end Sys2Proof.Machine
end

