-- ==== Sys2Proof/Laws/PerInstr.lean ====
section
/-! SUPPORT. One law per instruction: an instruction is encoded in the form that spec/opcode_table.json gives its row. -/

namespace Sys2Proof.Laws

/-- The `format` column of spec/opcode_table.json. -/
inductive Format
  | call
  | clock
  | bitbangByte
  | bitbangResponse
  | irWord
  | sessionEvent
deriving DecidableEq, Repr

/-- The form an operation word has. -/
def formatOfWord : OpWord → Format
  | .construct _ _ _ => .call
  | .attach _ _ => .call
  | .register _ _ => .call
  | .notify _ _ _ => .call
  | .access _ _ _ _ => .call
  | .stats _ => .call
  | .clock _ _ _ => .clock
  | .byte _ => .bitbangByte
  | .response _ => .bitbangResponse
  | .connect => .sessionEvent
  | .disconnect => .sessionEvent
  | .irWord _ => .irWord

/-- The form the table gives each row. -/
def formatOfRow : Instr → Format
  | .construct _ _ _ => .call
  | .attach _ _ => .call
  | .register _ _ => .call
  | .notifyFetch _ _ => .call
  | .notifyLoad _ _ => .call
  | .notifyStore _ _ => .call
  | .accessHit _ _ _ => .call
  | .accessMiss _ _ _ => .call
  | .accessMissForward _ _ _ => .call
  | .stats _ => .call
  | .clockTLR0 _ => .clock
  | .clockTLR1 _ => .clock
  | .clockRTI0 _ => .clock
  | .clockRTI1 _ => .clock
  | .clockSelDR0 _ => .clock
  | .clockSelDR1 _ => .clock
  | .clockCapDR0 _ => .clock
  | .clockCapDR1 _ => .clock
  | .clockShDR0 _ => .clock
  | .clockShDR1 _ => .clock
  | .clockEx1DR0 _ => .clock
  | .clockEx1DR1 _ => .clock
  | .clockPauDR0 _ => .clock
  | .clockPauDR1 _ => .clock
  | .clockEx2DR0 _ => .clock
  | .clockEx2DR1 _ => .clock
  | .clockUpdDR0 _ => .clock
  | .clockUpdDR1 _ => .clock
  | .clockSelIR0 _ => .clock
  | .clockSelIR1 _ => .clock
  | .clockCapIR0 _ => .clock
  | .clockCapIR1 _ => .clock
  | .clockShIR0 _ => .clock
  | .clockShIR1 _ => .clock
  | .clockEx1IR0 _ => .clock
  | .clockEx1IR1 _ => .clock
  | .clockPauIR0 _ => .clock
  | .clockPauIR1 _ => .clock
  | .clockEx2IR0 _ => .clock
  | .clockEx2IR1 _ => .clock
  | .clockUpdIR0 _ => .clock
  | .clockUpdIR1 _ => .clock
  | .bbClock0 => .bitbangByte
  | .bbClock1 => .bitbangByte
  | .bbClock2 => .bitbangByte
  | .bbClock3 => .bitbangByte
  | .bbClock _ _ => .bitbangByte
  | .bbSysreset => .bitbangByte
  | .bbTapreset => .bitbangByte
  | .bbMalformed _ => .bitbangByte
  | .bbResponse0 => .bitbangResponse
  | .bbResponse1 => .bitbangResponse
  | .connect => .sessionEvent
  | .disconnect => .sessionEvent
  | .dtmIdle _ => .irWord
  | .dtmRead _ => .irWord
  | .dtmWrite _ => .irWord
  | .dtmReserved _ => .irWord

/-- The law of one instruction: its encoding has the form of its row, for every machine. -/
def PortOf.Statement (i : Instr) : Prop := ∀ p : Params, formatOfWord (encode p i) = formatOfRow i

theorem PortOf.construct (c : CacheId) (spec label : Text) : PortOf.Statement (.construct c spec label) := fun _ => rfl
theorem PortOf.attach (lower upper : CacheId) : PortOf.Statement (.attach lower upper) := fun _ => rfl
theorem PortOf.register (h : Nat) (t : CacheId) : PortOf.Statement (.register h t) := fun _ => rfl
theorem PortOf.notifyFetch (h : Nat) (a : Addr) : PortOf.Statement (.notifyFetch h a) := fun _ => rfl
theorem PortOf.notifyLoad (h : Nat) (a : Addr) : PortOf.Statement (.notifyLoad h a) := fun _ => rfl
theorem PortOf.notifyStore (h : Nat) (a : Addr) : PortOf.Statement (.notifyStore h a) := fun _ => rfl
theorem PortOf.accessHit (c : CacheId) (a : Addr) (isWrite : Bool) : PortOf.Statement (.accessHit c a isWrite) := fun _ => rfl
theorem PortOf.accessMiss (c : CacheId) (a : Addr) (isWrite : Bool) : PortOf.Statement (.accessMiss c a isWrite) := fun _ => rfl
theorem PortOf.accessMissForward (c : CacheId) (a : Addr) (isWrite : Bool) : PortOf.Statement (.accessMissForward c a isWrite) := fun _ => rfl
theorem PortOf.stats (c : CacheId) : PortOf.Statement (.stats c) := fun _ => rfl
theorem PortOf.clockTLR0 (tdi : Bool) : PortOf.Statement (.clockTLR0 tdi) := fun _ => rfl
theorem PortOf.clockTLR1 (tdi : Bool) : PortOf.Statement (.clockTLR1 tdi) := fun _ => rfl
theorem PortOf.clockRTI0 (tdi : Bool) : PortOf.Statement (.clockRTI0 tdi) := fun _ => rfl
theorem PortOf.clockRTI1 (tdi : Bool) : PortOf.Statement (.clockRTI1 tdi) := fun _ => rfl
theorem PortOf.clockSelDR0 (tdi : Bool) : PortOf.Statement (.clockSelDR0 tdi) := fun _ => rfl
theorem PortOf.clockSelDR1 (tdi : Bool) : PortOf.Statement (.clockSelDR1 tdi) := fun _ => rfl
theorem PortOf.clockCapDR0 (tdi : Bool) : PortOf.Statement (.clockCapDR0 tdi) := fun _ => rfl
theorem PortOf.clockCapDR1 (tdi : Bool) : PortOf.Statement (.clockCapDR1 tdi) := fun _ => rfl
theorem PortOf.clockShDR0 (tdi : Bool) : PortOf.Statement (.clockShDR0 tdi) := fun _ => rfl
theorem PortOf.clockShDR1 (tdi : Bool) : PortOf.Statement (.clockShDR1 tdi) := fun _ => rfl
theorem PortOf.clockEx1DR0 (tdi : Bool) : PortOf.Statement (.clockEx1DR0 tdi) := fun _ => rfl
theorem PortOf.clockEx1DR1 (tdi : Bool) : PortOf.Statement (.clockEx1DR1 tdi) := fun _ => rfl
theorem PortOf.clockPauDR0 (tdi : Bool) : PortOf.Statement (.clockPauDR0 tdi) := fun _ => rfl
theorem PortOf.clockPauDR1 (tdi : Bool) : PortOf.Statement (.clockPauDR1 tdi) := fun _ => rfl
theorem PortOf.clockEx2DR0 (tdi : Bool) : PortOf.Statement (.clockEx2DR0 tdi) := fun _ => rfl
theorem PortOf.clockEx2DR1 (tdi : Bool) : PortOf.Statement (.clockEx2DR1 tdi) := fun _ => rfl
theorem PortOf.clockUpdDR0 (tdi : Bool) : PortOf.Statement (.clockUpdDR0 tdi) := fun _ => rfl
theorem PortOf.clockUpdDR1 (tdi : Bool) : PortOf.Statement (.clockUpdDR1 tdi) := fun _ => rfl
theorem PortOf.clockSelIR0 (tdi : Bool) : PortOf.Statement (.clockSelIR0 tdi) := fun _ => rfl
theorem PortOf.clockSelIR1 (tdi : Bool) : PortOf.Statement (.clockSelIR1 tdi) := fun _ => rfl
theorem PortOf.clockCapIR0 (tdi : Bool) : PortOf.Statement (.clockCapIR0 tdi) := fun _ => rfl
theorem PortOf.clockCapIR1 (tdi : Bool) : PortOf.Statement (.clockCapIR1 tdi) := fun _ => rfl
theorem PortOf.clockShIR0 (tdi : Bool) : PortOf.Statement (.clockShIR0 tdi) := fun _ => rfl
theorem PortOf.clockShIR1 (tdi : Bool) : PortOf.Statement (.clockShIR1 tdi) := fun _ => rfl
theorem PortOf.clockEx1IR0 (tdi : Bool) : PortOf.Statement (.clockEx1IR0 tdi) := fun _ => rfl
theorem PortOf.clockEx1IR1 (tdi : Bool) : PortOf.Statement (.clockEx1IR1 tdi) := fun _ => rfl
theorem PortOf.clockPauIR0 (tdi : Bool) : PortOf.Statement (.clockPauIR0 tdi) := fun _ => rfl
theorem PortOf.clockPauIR1 (tdi : Bool) : PortOf.Statement (.clockPauIR1 tdi) := fun _ => rfl
theorem PortOf.clockEx2IR0 (tdi : Bool) : PortOf.Statement (.clockEx2IR0 tdi) := fun _ => rfl
theorem PortOf.clockEx2IR1 (tdi : Bool) : PortOf.Statement (.clockEx2IR1 tdi) := fun _ => rfl
theorem PortOf.clockUpdIR0 (tdi : Bool) : PortOf.Statement (.clockUpdIR0 tdi) := fun _ => rfl
theorem PortOf.clockUpdIR1 (tdi : Bool) : PortOf.Statement (.clockUpdIR1 tdi) := fun _ => rfl
theorem PortOf.bbClock0 : PortOf.Statement .bbClock0 := fun _ => rfl
theorem PortOf.bbClock1 : PortOf.Statement .bbClock1 := fun _ => rfl
theorem PortOf.bbClock2 : PortOf.Statement .bbClock2 := fun _ => rfl
theorem PortOf.bbClock3 : PortOf.Statement .bbClock3 := fun _ => rfl
theorem PortOf.bbClock (tms tdi : Bool) : PortOf.Statement (.bbClock tms tdi) := fun _ => rfl
theorem PortOf.bbSysreset : PortOf.Statement .bbSysreset := fun _ => rfl
theorem PortOf.bbTapreset : PortOf.Statement .bbTapreset := fun _ => rfl
theorem PortOf.bbMalformed (b : Byte) : PortOf.Statement (.bbMalformed b) := fun _ => rfl
theorem PortOf.bbResponse0 : PortOf.Statement .bbResponse0 := fun _ => rfl
theorem PortOf.bbResponse1 : PortOf.Statement .bbResponse1 := fun _ => rfl
theorem PortOf.connect : PortOf.Statement .connect := fun _ => rfl
theorem PortOf.disconnect : PortOf.Statement .disconnect := fun _ => rfl
theorem PortOf.dtmIdle (addr : Nat) : PortOf.Statement (.dtmIdle addr) := fun _ => rfl
theorem PortOf.dtmRead (addr : Nat) : PortOf.Statement (.dtmRead addr) := fun _ => rfl
theorem PortOf.dtmWrite (addr : Nat) : PortOf.Statement (.dtmWrite addr) := fun _ => rfl
theorem PortOf.dtmReserved (addr : Nat) : PortOf.Statement (.dtmReserved addr) := fun _ => rfl

end Sys2Proof.Laws
end

