-- ==== Sys2Proof/Laws/Tap.lean ====
section
/-! SUPPORT. What a TAP edge leaves unchanged, field by field, and what its parts do to the TAP registers. -/

namespace Sys2Proof.Machine

variable (s : State)

/-! ### The debug-module calls -/

@[simp] theorem dmRead_params (a : Nat) : (dmRead a s).2.params = s.params := rfl
@[simp] theorem dmWrite_params (a d : Nat) : (dmWrite a d s).params = s.params := rfl
@[simp] theorem dmReset_params : (dmReset s).params = s.params := rfl
@[simp] theorem dmRead_ic (a : Nat) : (dmRead a s).2.ic = s.ic := rfl
@[simp] theorem dmWrite_ic (a d : Nat) : (dmWrite a d s).ic = s.ic := rfl
@[simp] theorem dmReset_ic : (dmReset s).ic = s.ic := rfl
@[simp] theorem dmRead_dc (a : Nat) : (dmRead a s).2.dc = s.dc := rfl
@[simp] theorem dmWrite_dc (a d : Nat) : (dmWrite a d s).dc = s.dc := rfl
@[simp] theorem dmReset_dc : (dmReset s).dc = s.dc := rfl
@[simp] theorem dmRead_l2 (a : Nat) : (dmRead a s).2.l2 = s.l2 := rfl
@[simp] theorem dmWrite_l2 (a d : Nat) : (dmWrite a d s).l2 = s.l2 := rfl
@[simp] theorem dmReset_l2 : (dmReset s).l2 = s.l2 := rfl
@[simp] theorem dmRead_tracers (a : Nat) : (dmRead a s).2.tracers = s.tracers := rfl
@[simp] theorem dmWrite_tracers (a d : Nat) : (dmWrite a d s).tracers = s.tracers := rfl
@[simp] theorem dmReset_tracers : (dmReset s).tracers = s.tracers := rfl
@[simp] theorem dmRead_bb (a : Nat) : (dmRead a s).2.bb = s.bb := rfl
@[simp] theorem dmWrite_bb (a d : Nat) : (dmWrite a d s).bb = s.bb := rfl
@[simp] theorem dmReset_bb : (dmReset s).bb = s.bb := rfl
@[simp] theorem dmRead_sent (a : Nat) : (dmRead a s).2.sent = s.sent := rfl
@[simp] theorem dmWrite_sent (a d : Nat) : (dmWrite a d s).sent = s.sent := rfl
@[simp] theorem dmReset_sent : (dmReset s).sent = s.sent := rfl
@[simp] theorem dmRead_inputs (a : Nat) : (dmRead a s).2.inputs = s.inputs := rfl
@[simp] theorem dmRead_running (a : Nat) : (dmRead a s).2.running = s.running := rfl
@[simp] theorem dmWrite_inputs (a d : Nat) : (dmWrite a d s).inputs = s.inputs := rfl
@[simp] theorem dmWrite_running (a d : Nat) : (dmWrite a d s).running = s.running := rfl
@[simp] theorem dmReset_inputs : (dmReset s).inputs = s.inputs := rfl
@[simp] theorem dmReset_running : (dmReset s).running = s.running := rfl
@[simp] theorem dmRead_ret (a : Nat) : (dmRead a s).2.ret = s.ret := rfl
@[simp] theorem dmWrite_ret (a d : Nat) : (dmWrite a d s).ret = s.ret := rfl
@[simp] theorem dmReset_ret : (dmReset s).ret = s.ret := rfl
@[simp] theorem dmRead_tap (a : Nat) : (dmRead a s).2.tap = s.tap := rfl
@[simp] theorem dmRead_tapHalf (a : Nat) : (dmRead a s).2.tapHalf = s.tapHalf := rfl
@[simp] theorem dmWrite_tap (a d : Nat) : (dmWrite a d s).tap = s.tap := rfl
@[simp] theorem dmWrite_tapHalf (a d : Nat) : (dmWrite a d s).tapHalf = s.tapHalf := rfl
@[simp] theorem dmReset_tap : (dmReset s).tap = s.tap := rfl
@[simp] theorem dmReset_tapHalf : (dmReset s).tapHalf = s.tapHalf := rfl
@[simp] theorem dmRead_log (a : Nat) : (dmRead a s).2.dm.log = s.dm.log ++ [.read a] := rfl
@[simp] theorem dmWrite_log (a d : Nat) : (dmWrite a d s).dm.log = s.dm.log ++ [.write a d] := rfl
@[simp] theorem dmReset_log : (dmReset s).dm.log = s.dm.log ++ [.reset] := rfl

/-- What `DmRead` answers fits in `DBITS` bits (42_dtm_registers.md R190). -/
theorem dmRead_lt (a : Nat) : (dmRead a s).1 < 2 ^ s.params.dbits := trunc_lt _ _

/-- A scripted answer is what `DmRead` answers. -/
theorem dmRead_scripted {d : Nat} {ds : List Nat} (h : s.dm.answers = d :: ds) (a : Nat) :
    (dmRead a s).1 = d % 2 ^ s.params.dbits := by simp [dmRead, h, trunc]

/-! ### The parts of an edge -/

@[simp] theorem runShift_params (act : ShiftAction) (tdi : Bool) : (runShift act tdi s).params = s.params := by cases act <;> rfl
@[simp] theorem captureDR_params (acc : DtmAccess) : (captureDR acc s).params = s.params := by cases acc <;> rfl
@[simp] theorem updateDR_params (acc : DtmAccess) : (updateDR acc s).params = s.params := by cases acc <;> rfl
@[simp] theorem resetRegs_params : (resetRegs s).params = s.params := rfl
@[simp] theorem runEntry_params (act : EntryAction) : (runEntry act s).params = s.params := by cases act <;> simp [runEntry]
@[simp] theorem clock_params (tms tdi : Bool) : (clock tms tdi s).params = s.params := by simp [clock]
@[simp] theorem runShift_ic (act : ShiftAction) (tdi : Bool) : (runShift act tdi s).ic = s.ic := by cases act <;> rfl
@[simp] theorem captureDR_ic (acc : DtmAccess) : (captureDR acc s).ic = s.ic := by cases acc <;> rfl
@[simp] theorem updateDR_ic (acc : DtmAccess) : (updateDR acc s).ic = s.ic := by cases acc <;> rfl
@[simp] theorem resetRegs_ic : (resetRegs s).ic = s.ic := rfl
@[simp] theorem runEntry_ic (act : EntryAction) : (runEntry act s).ic = s.ic := by cases act <;> simp [runEntry]
@[simp] theorem clock_ic (tms tdi : Bool) : (clock tms tdi s).ic = s.ic := by simp [clock]
@[simp] theorem runShift_dc (act : ShiftAction) (tdi : Bool) : (runShift act tdi s).dc = s.dc := by cases act <;> rfl
@[simp] theorem captureDR_dc (acc : DtmAccess) : (captureDR acc s).dc = s.dc := by cases acc <;> rfl
@[simp] theorem updateDR_dc (acc : DtmAccess) : (updateDR acc s).dc = s.dc := by cases acc <;> rfl
@[simp] theorem resetRegs_dc : (resetRegs s).dc = s.dc := rfl
@[simp] theorem runEntry_dc (act : EntryAction) : (runEntry act s).dc = s.dc := by cases act <;> simp [runEntry]
@[simp] theorem clock_dc (tms tdi : Bool) : (clock tms tdi s).dc = s.dc := by simp [clock]
@[simp] theorem runShift_l2 (act : ShiftAction) (tdi : Bool) : (runShift act tdi s).l2 = s.l2 := by cases act <;> rfl
@[simp] theorem captureDR_l2 (acc : DtmAccess) : (captureDR acc s).l2 = s.l2 := by cases acc <;> rfl
@[simp] theorem updateDR_l2 (acc : DtmAccess) : (updateDR acc s).l2 = s.l2 := by cases acc <;> rfl
@[simp] theorem resetRegs_l2 : (resetRegs s).l2 = s.l2 := rfl
@[simp] theorem runEntry_l2 (act : EntryAction) : (runEntry act s).l2 = s.l2 := by cases act <;> simp [runEntry]
@[simp] theorem clock_l2 (tms tdi : Bool) : (clock tms tdi s).l2 = s.l2 := by simp [clock]
@[simp] theorem runShift_tracers (act : ShiftAction) (tdi : Bool) : (runShift act tdi s).tracers = s.tracers := by cases act <;> rfl
@[simp] theorem captureDR_tracers (acc : DtmAccess) : (captureDR acc s).tracers = s.tracers := by cases acc <;> rfl
@[simp] theorem updateDR_tracers (acc : DtmAccess) : (updateDR acc s).tracers = s.tracers := by cases acc <;> rfl
@[simp] theorem resetRegs_tracers : (resetRegs s).tracers = s.tracers := rfl
@[simp] theorem runEntry_tracers (act : EntryAction) : (runEntry act s).tracers = s.tracers := by cases act <;> simp [runEntry]
@[simp] theorem clock_tracers (tms tdi : Bool) : (clock tms tdi s).tracers = s.tracers := by simp [clock]
@[simp] theorem runShift_bb (act : ShiftAction) (tdi : Bool) : (runShift act tdi s).bb = s.bb := by cases act <;> rfl
@[simp] theorem captureDR_bb (acc : DtmAccess) : (captureDR acc s).bb = s.bb := by cases acc <;> rfl
@[simp] theorem updateDR_bb (acc : DtmAccess) : (updateDR acc s).bb = s.bb := by cases acc <;> rfl
@[simp] theorem resetRegs_bb : (resetRegs s).bb = s.bb := rfl
@[simp] theorem runEntry_bb (act : EntryAction) : (runEntry act s).bb = s.bb := by cases act <;> simp [runEntry]
@[simp] theorem clock_bb (tms tdi : Bool) : (clock tms tdi s).bb = s.bb := by simp [clock]
@[simp] theorem runShift_sent (act : ShiftAction) (tdi : Bool) : (runShift act tdi s).sent = s.sent := by cases act <;> rfl
@[simp] theorem captureDR_sent (acc : DtmAccess) : (captureDR acc s).sent = s.sent := by cases acc <;> rfl
@[simp] theorem updateDR_sent (acc : DtmAccess) : (updateDR acc s).sent = s.sent := by cases acc <;> rfl
@[simp] theorem resetRegs_sent : (resetRegs s).sent = s.sent := rfl
@[simp] theorem runEntry_sent (act : EntryAction) : (runEntry act s).sent = s.sent := by cases act <;> simp [runEntry]
@[simp] theorem clock_sent (tms tdi : Bool) : (clock tms tdi s).sent = s.sent := by simp [clock]
@[simp] theorem runShift_inputs (act : ShiftAction) (tdi : Bool) : (runShift act tdi s).inputs = s.inputs := by cases act <;> rfl
@[simp] theorem runShift_running (act : ShiftAction) (tdi : Bool) : (runShift act tdi s).running = s.running := by cases act <;> rfl
@[simp] theorem captureDR_inputs (acc : DtmAccess) : (captureDR acc s).inputs = s.inputs := by cases acc <;> rfl
@[simp] theorem captureDR_running (acc : DtmAccess) : (captureDR acc s).running = s.running := by cases acc <;> rfl
@[simp] theorem updateDR_inputs (acc : DtmAccess) : (updateDR acc s).inputs = s.inputs := by cases acc <;> rfl
@[simp] theorem updateDR_running (acc : DtmAccess) : (updateDR acc s).running = s.running := by cases acc <;> rfl
@[simp] theorem resetRegs_inputs : (resetRegs s).inputs = s.inputs := rfl
@[simp] theorem resetRegs_running : (resetRegs s).running = s.running := rfl
@[simp] theorem runEntry_inputs (act : EntryAction) : (runEntry act s).inputs = s.inputs := by cases act <;> simp [runEntry]
@[simp] theorem runEntry_running (act : EntryAction) : (runEntry act s).running = s.running := by cases act <;> simp [runEntry]
@[simp] theorem clock_inputs (tms tdi : Bool) : (clock tms tdi s).inputs = s.inputs := by simp [clock]
@[simp] theorem clock_running (tms tdi : Bool) : (clock tms tdi s).running = s.running := by simp [clock]
@[simp] theorem runShift_ret (act : ShiftAction) (tdi : Bool) : (runShift act tdi s).ret = s.ret := by cases act <;> rfl
@[simp] theorem captureDR_ret (acc : DtmAccess) : (captureDR acc s).ret = s.ret := by cases acc <;> rfl
@[simp] theorem updateDR_ret (acc : DtmAccess) : (updateDR acc s).ret = s.ret := by cases acc <;> rfl
@[simp] theorem resetRegs_ret : (resetRegs s).ret = s.ret := rfl
@[simp] theorem runEntry_ret (act : EntryAction) : (runEntry act s).ret = s.ret := by cases act <;> simp [runEntry]
@[simp] theorem clock_ret (tms tdi : Bool) : (clock tms tdi s).ret = s.ret := by simp [clock]

@[simp] theorem runShift_dm (act : ShiftAction) (tdi : Bool) : (runShift act tdi s).dm = s.dm := by cases act <;> rfl
@[simp] theorem runShift_sel (act : ShiftAction) (tdi : Bool) : (runShift act tdi s).tap.sel = s.tap.sel := by
  cases act <;> rfl
@[simp] theorem captureDR_state (acc : DtmAccess) : (captureDR acc s).tap.state = s.tap.state := by cases acc <;> rfl
@[simp] theorem updateDR_tap (acc : DtmAccess) : (updateDR acc s).tap = s.tap := by cases acc <;> rfl
@[simp] theorem runEntry_state (act : EntryAction) : (runEntry act s).tap.state = s.tap.state := by
  cases act <;> simp [runEntry, resetRegs]

theorem runEntry_isSome (act : EntryAction) : (runEntry act s).tapHalf.isSome = s.tapHalf.isSome ∨
    (runEntry act s).tapHalf.isSome = true := by
  cases act with
  | captureDR =>
    right; simp only [runEntry]; cases instrDecode s.params s.tap.sel <;> rfl
  | updateDR =>
    left; simp only [runEntry]; cases instrDecode s.params s.tap.sel <;> rfl
  | none => left; rfl
  | reset => right; rfl
  | captureIR => right; rfl
  | latchIR => right; rfl

/-- An edge leaves a TAP. -/
@[simp] theorem clock_isSome (tms tdi : Bool) : (clock tms tdi s).tapHalf.isSome = true := by
  rcases runEntry_isSome ((runShift (shiftActionOf s.tap.state) tdi s).setTapState (nextTap s.tap.state tms))
    (entryActionOf (nextTap s.tap.state tms)) with h | h
  · exact h.trans rfl
  · exact h

/-- The new state of an edge is that of the table, whatever else holds (41_tap_fsm.md R169). -/
@[simp] theorem clock_state (tms tdi : Bool) : (clock tms tdi s).tap.state = nextTap s.tap.state tms := by simp [clock]

/-- An edge leaves the cache half alone (00_scope.md R8). -/
theorem clock_sameCacheHalf (tms tdi : Bool) : sameCacheHalf s (clock tms tdi s) := by simp [sameCacheHalf]

/-! ### An edge looks at the parameters, the TAP and the debug port alone -/

/-- Two states alike in all that an edge looks at. -/
def sameTap (s t : State) : Prop := t.params = s.params ∧ t.tap = s.tap ∧ t.dm = s.dm

theorem sameTap.trans {s t u} (h : sameTap s t) (h' : sameTap t u) : sameTap s u := ⟨h'.1.trans h.1, h'.2.1.trans h.2.1, h'.2.2.trans h.2.2⟩

theorem captureDR_same {s t : State} (h : sameTap s t) (acc) : sameTap (captureDR acc s) (captureDR acc t) := by
  obtain ⟨h1, h2, h3⟩ := h
  cases acc <;> simp [captureDR, dmRead, sameTap, h1, h2, h3]
theorem updateDR_same {s t : State} (h : sameTap s t) (acc) : sameTap (updateDR acc s) (updateDR acc t) := by
  obtain ⟨h1, h2, h3⟩ := h
  cases acc <;> simp [updateDR, dmRead, dmWrite, sameTap, h1, h2, h3]

theorem runEntry_same {s t : State} (h : sameTap s t) (act) : sameTap (runEntry act s) (runEntry act t) := by
  have h0 := h
  obtain ⟨h1, h2, h3⟩ := h
  cases act <;> simp only [runEntry, h1, h2]
  · exact h0
  · simp [resetRegs, sameTap, h1, h2, h3]
  · exact captureDR_same h0 _
  · simp [sameTap, h1, h3]
  · simp [sameTap, h1, h3]
  · exact updateDR_same h0 _

/-- An edge of two such states leaves two such states. -/
theorem clock_same {s t : State} (h : sameTap s t) (tms tdi) : sameTap (clock tms tdi s) (clock tms tdi t) := by
  obtain ⟨h1, h2, h3⟩ := h
  simp only [clock, h2]
  apply runEntry_same
  cases shiftActionOf s.tap.state <;> simp [runShift, sameTap, h1, h2, h3]

/-- So does any sequence of edges, with the same bits returned. -/
theorem bareTap_same {es : List (Bool × Bool)} {s t : State} (h : sameTap s t) : sameTap (bareTap es s).1 (bareTap es t).1 ∧ (bareTap es t).2 = (bareTap es s).2 := by
  induction es generalizing s t with
  | nil => exact ⟨h, rfl⟩
  | cons e es ih =>
    have := clock_same h e.1 e.2
    obtain ⟨i1, i2⟩ := ih this
    exact ⟨i1, by simp [bareTap, i2, this.2.1]⟩

/-! ### The calls of an edge -/

@[simp] theorem resetRegs_dm : (resetRegs s).dm = s.dm := rfl

theorem captureDR_log (s : State) (acc) : (captureDR acc s).dm.log = s.dm.log ++ entryCalls .capDR acc s.tap.dr := by cases acc <;> simp [captureDR, entryCalls]
theorem updateDR_log (s : State) (acc) : (updateDR acc s).dm.log = s.dm.log ++ entryCalls .updDR acc s.tap.dr := by cases acc <;> simp [updateDR, entryCalls]

/-! ### The rows of the operation table -/

theorem withTapHalf_of_isSome {s : State} {o : Result} (h : s.tapHalf.isSome = true) : withTapHalf s o = o := by
  simp [withTapHalf, h]

theorem withTapHalf_of_none {s : State} {o : Result} (h : s.tapHalf = none) : withTapHalf s o = .refused .noTapHalf := by
  simp [withTapHalf, h]

theorem withTapHalf_eq_next {s t : State} {o : Result} (h : withTapHalf s o = .next t) :
    s.tapHalf.isSome = true ∧ o = .next t := by
  unfold withTapHalf at h
  split at h
  · exact ⟨‹_›, h⟩
  · cases h

/-- A row in the state it starts in. -/
theorem clockRow_of_state {st st' : TapState} {sh : ShiftAction} {en : EntryAction} {tdi : Bool} {s : State}
    (hs : s.tapHalf.isSome = true) (h : s.tap.state = st) :
    clockRow st sh st' en tdi s =
      .next ((runEntry en ((runShift sh tdi s).setTapState st')).withRet
        (.tdo (runEntry en ((runShift sh tdi s).setTapState st')).tap.tdo)) := by
  simp [clockRow, withTapHalf_of_isSome hs, h]

/-- A row in any other state. -/
theorem clockRow_of_ne {st st' : TapState} {sh : ShiftAction} {en : EntryAction} {tdi : Bool} {s : State}
    (hs : s.tapHalf.isSome = true) (h : s.tap.state ≠ st) : clockRow st sh st' en tdi s = .refused .rowNotSelected := by
  simp [clockRow, withTapHalf_of_isSome hs, h]

/-- A row of a machine without the TAP half. -/
theorem clockRow_of_none {st st' : TapState} {sh : ShiftAction} {en : EntryAction} {tdi : Bool} {s : State}
    (hs : s.tapHalf = none) : clockRow st sh st' en tdi s = .refused .noTapHalf := withTapHalf_of_none hs

/-- The 32 rows by their (state, tms) pair (30_encoding.md R90, R108): each is the row with the actions of R150. -/
theorem exec_decodeClock (st : TapState) (tms tdi : Bool) (s : State) :
    exec (decodeClock st tms tdi) s =
      clockRow st (shiftActionOf st) (nextTap st tms) (entryActionOf (nextTap st tms)) tdi s := by
  cases st <;> cases tms <;> rfl

/-! ### The rows of the instruction words -/

/-- An edge that shifts nothing is `clock` whatever its `tdi`. -/
theorem clock_of_no_shift {s : State} (h : shiftActionOf s.tap.state = .none) (tms tdi : Bool) :
    clock tms tdi s =
      runEntry (entryActionOf (nextTap s.tap.state tms)) (s.setTapState (nextTap s.tap.state tms)) := by
  simp [clock, h, runShift]

/-- An instruction word of the right width decodes to the row of its two low bits (30_encoding.md R96, R108). -/
theorem exec_decodeIrWord {s : State} {w : Nat} {i : Instr} (hd : decodeIrWord s.params w = .ok i) :
    exec i s = dtmRow (w / 4) (irOp w) (layoutDecode s.params w) s := by
  unfold decodeIrWord at hd
  split at hd
  · next hw =>
    have ha : irAddr s.params w = w / 4 := Nat.mod_eq_of_lt (by rw [Params.irLen, pow_add] at hw; omega)
    unfold layoutDecode
    have h4 : irOp w < 4 := Nat.mod_lt _ (by decide)
    split at hd <;> cases hd <;> simp_all [exec, execDtmIdle, execDtmRead, execDtmWrite, execDtmReserved]
    have : irOp w = 3 := by omega
    rw [this]
  · cases hd

/-! ### The bitbang layer -/

@[simp] theorem respond_params (tdo : Bool) : (respond tdo s).params = s.params := rfl
@[simp] theorem bbClock_params (tms tdi : Bool) : (bbClock tms tdi s).params = s.params := by simp [bbClock]
@[simp] theorem respond_ic (tdo : Bool) : (respond tdo s).ic = s.ic := rfl
@[simp] theorem bbClock_ic (tms tdi : Bool) : (bbClock tms tdi s).ic = s.ic := by simp [bbClock]
@[simp] theorem respond_dc (tdo : Bool) : (respond tdo s).dc = s.dc := rfl
@[simp] theorem bbClock_dc (tms tdi : Bool) : (bbClock tms tdi s).dc = s.dc := by simp [bbClock]
@[simp] theorem respond_l2 (tdo : Bool) : (respond tdo s).l2 = s.l2 := rfl
@[simp] theorem bbClock_l2 (tms tdi : Bool) : (bbClock tms tdi s).l2 = s.l2 := by simp [bbClock]
@[simp] theorem respond_tracers (tdo : Bool) : (respond tdo s).tracers = s.tracers := rfl
@[simp] theorem bbClock_tracers (tms tdi : Bool) : (bbClock tms tdi s).tracers = s.tracers := by simp [bbClock]
@[simp] theorem respond_inputs (tdo : Bool) : (respond tdo s).inputs = s.inputs := rfl
@[simp] theorem respond_running (tdo : Bool) : (respond tdo s).running = s.running := rfl
@[simp] theorem bbClock_inputs (tms tdi : Bool) : (bbClock tms tdi s).inputs = s.inputs := by simp [bbClock]
@[simp] theorem bbClock_running (tms tdi : Bool) : (bbClock tms tdi s).running = s.running := by simp [bbClock]
@[simp] theorem respond_tap (tdo : Bool) : (respond tdo s).tap = s.tap := rfl
@[simp] theorem respond_dm (tdo : Bool) : (respond tdo s).dm = s.dm := rfl
@[simp] theorem respond_bb (tdo : Bool) : (respond tdo s).bb = s.bb := rfl
@[simp] theorem respond_sent (tdo : Bool) : (respond tdo s).sent = s.sent ++ [respByte s.params tdo] := rfl
@[simp] theorem bbClock_tap (tms tdi : Bool) : (bbClock tms tdi s).tap = (clock tms tdi s).tap := rfl
@[simp] theorem bbClock_dm (tms tdi : Bool) : (bbClock tms tdi s).dm = (clock tms tdi s).dm := rfl
@[simp] theorem bbClock_connected (tms tdi : Bool) : (bbClock tms tdi s).bb.connected = s.bb.connected := by simp [bbClock]

/-- A clock command sends exactly one byte, the `tdo` of its own edge (43_remote_bitbang.md R201). -/
theorem bbClock_sent (tms tdi : Bool) :
    (bbClock tms tdi s).sent = s.sent ++ [respByte s.params (clock tms tdi s).tap.tdo] := by simp [bbClock]

theorem inSession_of_connected {s t : State} (h : s.bb.connected = true) : inSession s t = .next t := by
  simp [inSession, h]

theorem inSession_eq_next {s t u : State} (h : inSession s t = .next u) : s.bb.connected = true ∧ u = t := by
  unfold inSession at h
  split at h
  · cases h; exact ⟨‹_›, rfl⟩
  · cases h

end Sys2Proof.Machine
end

