-- ==== Sys2Proof/Laws/Step.lean ====
section
/-! SUPPORT. What a step does, said once, input by input; every invariant of a step is a case analysis of it. -/

namespace Sys2Proof.Machine

/-! ### The building calls -/

theorem beforeRun_of_running {s : State} {o : Result} (h : s.running = true) : beforeRun s o = .refused .runStarted := by
  simp [beforeRun, h]

theorem beforeRun_of_not_running {s : State} {o : Result} (h : s.running = false) : beforeRun s o = o := by
  simp [beforeRun, h]

theorem beforeRun_eq_next {s t : State} {o : Result} (h : beforeRun s o = .next t) : s.running = false ∧ o = .next t := by
  unfold beforeRun at h
  split at h
  · cases h
  · next hr => exact ⟨by simpa using hr, h⟩

/-! ### A step -/

/-- The step on an input, by the operation the input asks for (20_memory.md R72). -/
def stepOn (s : State) (rest : List Input) (x : Input) : Result :=
  let u := s.take x rest
  match x with
  | .construct c spec label => execConstruct c spec label u
  | .attach lower upper => execAttach lower upper u
  | .register h t =>
    if h < s.params.nharts ∧ t ≠ .l2 then execRegister h t u else .refused .illFormed
  | .notify h a k => if h < s.params.nharts then notify h a k u else .refused .illFormed
  | .access c a isWrite =>
    match accessRow s c a with
    | some row => exec (decodeAccess c a isWrite row) u
    | none => .refused (.undecodable .noRowSelected)
  | .stats c => execStats c u
  | .clock tms tdi => if s.bb.connected then exec (decodeClock s.tap.state tms tdi) u else .refused .noSession
  | .byte b =>
    inSession s (match bbDecode s.params b with
      | .clock tms tdi => bbClock tms tdi u
      | .sysReset => (clearLastTdo (dmReset u)).withRet .nothing
      | .tapReset => (clearLastTdo (resetRegs (u.setTapState .tlr))).withRet .nothing
      | .malformed => u.withRet .nothing)
  | .connect => execConnect u
  | .disconnect => execDisconnect u
  | .instrEdge =>
    if s.bb.connected then
      match instrEdge s.tap with
      | none => .refused (.undecodable .noRowSelected)
      | some (_, w) =>
        match decodeIrWord s.params w with
        | .ok i => exec i u
        | .reject r => .refused (.undecodable r)
    else .refused .noSession

theorem step_nil {s : State} (h : s.inputs = []) : step s = .next s := by simp [step, h]

theorem step_ok {s : State} {x : Input} {rest : List Input} {i : Instr} (h : s.inputs = x :: rest)
    (ha : s.admits x = true) (hf : fetch s x = .ok i) (hw : i.wf s.params = true) :
    step s = exec i (s.take x rest) := by
  simp [step, h, ha, hf, hw]

theorem step_illFormed {s : State} {x : Input} {rest : List Input} {i : Instr} (h : s.inputs = x :: rest)
    (ha : s.admits x = true) (hf : fetch s x = .ok i) (hw : i.wf s.params = false) : step s = .refused .illFormed := by
  simp [step, h, ha, hf, hw]

theorem step_reject {s : State} {x : Input} {rest : List Input} {r : Reject} (h : s.inputs = x :: rest)
    (ha : s.admits x = true) (hf : fetch s x = .reject r) : step s = .refused (.undecodable r) := by
  simp [step, h, ha, hf]

theorem step_notAdmitted {s : State} {x : Input} {rest : List Input} (h : s.inputs = x :: rest)
    (ha : s.admits x = false) : step s = .refused .noSession := by
  simp [step, h, ha]

/-- A byte decodes to a well-formed row (43_remote_bitbang.md R200). -/
theorem decodeByte_wf (p : Params) (b : Byte) : (decodeByte p b).wf p = true := by
  unfold decodeByte
  split
  · split
    · split <;> rfl
    · rfl
  · rfl
  · rfl
  · next h => simp [Instr.wf, h]

/-- An instruction word of the right width decodes to a well-formed row (30_encoding.md R96). -/
theorem decodeIrWord_wf {p : Params} {w : Nat} {i : Instr} (h : decodeIrWord p w = .ok i) : i.wf p = true := by
  unfold decodeIrWord at h
  split at h
  · next hw =>
    have hd : w / 4 < 2 ^ p.abits := by rw [Params.irLen, pow_add] at hw; omega
    split at h <;> cases h <;> simp [Instr.wf, hd]
  · cases h

theorem decodeClock_wf (p : Params) (st : TapState) (tms tdi : Bool) : (decodeClock st tms tdi).wf p = true := by
  cases st <;> cases tms <;> rfl

theorem step_eq {s : State} {x : Input} {rest : List Input} (h : s.inputs = x :: rest) :
    step s = stepOn s rest x := by
  cases x with
  | construct c spec label => exact step_ok (i := .construct c spec label) h rfl rfl rfl
  | attach l u => exact step_ok (i := .attach l u) h rfl rfl rfl
  | register hh t =>
    simp only [stepOn]
    split
    · next hc => exact step_ok (i := .register hh t) h rfl rfl (by simp [Instr.wf, hc])
    · next hc => exact step_illFormed (i := .register hh t) h rfl rfl (by simp [Instr.wf]; simpa using hc)
  | notify hh a k =>
    simp only [stepOn]
    split
    · next hc => cases k <;> exact step_ok (i := decodeNotify hh a _) h rfl rfl (by simp [Instr.wf, decodeNotify, hc])
    · next hc =>
      cases k <;> exact step_illFormed (i := decodeNotify hh a _) h rfl rfl (by simp [Instr.wf, decodeNotify]; omega)
  | access c a w =>
    simp only [stepOn]
    cases hr : accessRow s c a with
    | none => exact step_reject h rfl (by simp [fetch, observe, hr])
    | some row => exact step_ok h rfl (by simp [fetch, observe, hr, decode]) (by cases row <;> rfl)
  | stats c => exact step_ok (i := .stats c) h rfl rfl rfl
  | clock tms tdi =>
    simp only [stepOn]
    split
    · next hc => exact step_ok h hc rfl (decodeClock_wf _ _ _ _)
    · next hc => exact step_notAdmitted h (Bool.eq_false_of_not_eq_true hc)
  | byte b =>
    have hs := step_ok (i := decodeByte s.params b) h rfl rfl (decodeByte_wf _ _)
    rw [hs]
    simp only [stepOn, decodeByte]
    cases bbDecode s.params b with
    | clock tms tdi =>
      simp only
      split
      · cases tms <;> cases tdi <;> rfl
      · rfl
    | sysReset => rfl
    | tapReset => rfl
    | malformed => rfl
  | connect => exact step_ok (i := .connect) h rfl rfl rfl
  | disconnect => exact step_ok (i := .disconnect) h rfl rfl rfl
  | instrEdge =>
    simp only [stepOn]
    split
    · next hc =>
      cases he : instrEdge s.tap with
      | none => exact step_reject h hc (by simp [fetch, observe, he])
      | some e =>
        obtain ⟨tms, w⟩ := e
        have hf : fetch s .instrEdge = decodeIrWord s.params w := by simp [fetch, observe, he, decode]
        cases hd : decodeIrWord s.params w with
        | ok i => simp only [hd]; exact step_ok h hc (hf.trans hd) (decodeIrWord_wf hd)
        | reject r => simp only [hd]; exact step_reject h hc (hf.trans hd)
    · next hc => exact step_notAdmitted h (Bool.eq_false_of_not_eq_true hc)

end Sys2Proof.Machine
end

