-- ==== Sys2Proof/Tests/Slice0.lean ====
section
/-! SUPPORT. The model's own tests. Expected results are hand calculations from the tables and vectors of spec/ (named in
each docstring), never the model's own answers. Last, a witness for the hypotheses of every statement. -/

namespace Sys2Proof.Tests

open Sys2Proof Sys2Proof.Machine

/-! ### Small states -/

/-- The state an outcome goes on with. -/
def next? (o : Result) : Option State :=
  match o with
  | .next s => some s
  | _ => none

/-- The machine of the small instance (95_test_vectors.md section 0) before any cache is built. -/
def bare : State := State.init Params.small

/-- The same with one input pending. -/
def State.on (s : State) (x : Input) : State := { s with inputs := [x] }

/-- One step on one input. -/
def stepOf (s : State) (x : Input) : Option State := next? (step (State.on s x))

/-- A connected client, the TAP in a state with given registers, `Write(1)` selected, register 1 answering 0b1010. -/
def tapIn (st : TapState) (ir dr : Nat) : State :=
  { bare with
    tapHalf := some { state := st, ir := ir, dr := dr, sel := 0b0110, tdo := false }
    bb := { connected := true, lastTdo := true }
    dm := { log := [], answers := [0b1010] } }

/-- The same with `sel` selected in place of `Write(1)`. -/
def tapSel (st : TapState) (sel dr : Nat) : State :=
  { tapIn st 0 dr with tapHalf := some { state := st, ir := 0, dr := dr, sel := sel, tdo := false } }

/-- A machine without a remote debug transport (70_reset_and_hazards.md R257). -/
def noTap : State := State.init { Params.small with remote := false }

/-- A one-way, one-set instance of 64-byte blocks (vector V1). -/
def oneLine : Cache := Cache.fresh 1 1 64 []

/-- V1 after access 1: the block of 0x1000 is in. -/
def oneLineV1 : Cache := (oneLine.touch 0x1000#64).1

/-- `oneLine` under an upper level. -/
def lower : Cache := { oneLine with next := some .l2 }

/-- A data cache alone, on hart 0. -/
def withDc (k : Cache) : State := { bare with dc := some k, tracers := [[.dc], []] }

/-- The orchestrator's tree of three one-line instances, both L1s on both harts. -/
def tree : State :=
  { bare with
    ic := some lower, dc := some lower, l2 := some oneLine
    tracers := [[.ic, .dc], [.ic, .dc]]
    bb := { connected := true, lastTdo := false } }

/-! ### Well-formedness: every check refuses an ill-formed term -/

theorem wf_refuses_register_hart : Instr.wf Params.small (.register 2 .ic) = false := by decide
theorem wf_refuses_register_l2 : Instr.wf Params.small (.register 0 .l2) = false := by decide
theorem wf_refuses_fetch_hart : Instr.wf Params.small (.notifyFetch 2 0#64) = false := by decide
theorem wf_refuses_load_hart : Instr.wf Params.small (.notifyLoad 2 0#64) = false := by decide
theorem wf_refuses_store_hart : Instr.wf Params.small (.notifyStore 2 0#64) = false := by decide
theorem wf_refuses_command_as_malformed : Instr.wf Params.small (.bbMalformed 0x73#8) = false := by decide
theorem wf_refuses_idle_address : Instr.wf Params.small (.dtmIdle 4) = false := by decide
theorem wf_refuses_read_address : Instr.wf Params.small (.dtmRead 4) = false := by decide
theorem wf_refuses_write_address : Instr.wf Params.small (.dtmWrite 4) = false := by decide
theorem wf_refuses_reserved_address : Instr.wf Params.small (.dtmReserved 4) = false := by decide

/-- The same terms in range are well formed. -/
theorem wf_accepts_in_range :
    [Instr.register 1 .ic, .notifyFetch 1 0#64, .notifyLoad 1 0#64, .notifyStore 1 0#64, .bbMalformed 0x34#8,
      .dtmIdle 3, .dtmRead 3, .dtmWrite 3, .dtmReserved 3].all (Instr.wf Params.small) = true := by decide

/-- The step refuses an ill-formed instruction by name. -/
theorem step_refuses_ill_formed :
    step (State.on bare (.notify 2 0#64 .load)) = .refused .illFormed ∧
      step (State.on bare (.register 0 .l2)) = .refused .illFormed := ⟨rfl, rfl⟩

/-- Legal parameters: the two named instances, and a machine that breaks each check of 92_eei_decisions.md. -/
theorem params_reference : Params.reference.wf = true := by decide
theorem params_small : Params.small.wf = true := by decide
theorem params_refuse_widths :
    Params.wf { Params.small with abits := 0 } = false ∧ Params.wf { Params.small with dbits := 0 } = false := by decide
theorem params_refuse_idle_values :
    Params.wf { Params.small with idleIr := 16 } = false ∧ Params.wf { Params.small with idleIr := 1 } = false ∧
      Params.wf { Params.small with idleDr := 16 } = false := by decide
theorem params_refuse_wide_address :
    Params.wf { Params.small with irOverride := [(5, .read 4)] } = false := by decide
set_option maxRecDepth 4000 in
theorem params_refuse_missing_command :
    Params.reaches { Params.small with bbOverride := [(0x74#8, .malformed)] } .tapReset = false := by decide
theorem params_refuse_one_response : Params.wf { Params.small with resp1 := 0x30#8 } = false := by decide
theorem params_refuse_harts :
    Params.wf { Params.small with hartids := [] } = false ∧
      Params.wf { Params.small with hartids := [some 3, some 3] } = false ∧
      Params.wf { Params.small with hartids := [some 1, none] } = false := by decide

/-- A hartid that is not supplied is the slot index (60_exceptions.md R240). -/
theorem test_hartid_default :
    Params.harts { Params.small with hartids := [some 5, none, some 0] } = [⟨0, 5⟩, ⟨1, 1⟩, ⟨2, 0⟩] ∧
      Params.reference.harts = [⟨0, 0⟩, ⟨1, 1⟩] := by decide

/-- No value of a debug-module parameter is refused (log 26). -/
theorem test_negative_progsize :
    (Params.wf { Params.small with progsize := -1 } = Params.small.wf) := rfl

/-! ### Decoding: every row by its own word -/

/-- The calls, by their signatures (30_encoding.md R106, R108). -/
theorem decode_calls :
    decode Params.reference (.construct .dc ['1', ':', '2', ':', '4'] ['D']) = .ok (.construct .dc ['1', ':', '2', ':', '4'] ['D']) ∧
      decode Params.reference (.attach .ic .l2) = .ok (.attach .ic .l2) ∧
      decode Params.reference (.register 1 .dc) = .ok (.register 1 .dc) ∧
      decode Params.reference (.notify 1 0x40#64 .fetch) = .ok (.notifyFetch 1 0x40#64) ∧
      decode Params.reference (.notify 1 0x40#64 .load) = .ok (.notifyLoad 1 0x40#64) ∧
      decode Params.reference (.notify 1 0x40#64 .store) = .ok (.notifyStore 1 0x40#64) ∧
      decode Params.reference (.access .ic 0x40#64 false .hit) = .ok (.accessHit .ic 0x40#64 false) ∧
      decode Params.reference (.access .dc 0x40#64 true .miss) = .ok (.accessMiss .dc 0x40#64 true) ∧
      decode Params.reference (.access .dc 0x40#64 true .missForward) = .ok (.accessMissForward .dc 0x40#64 true) ∧
      decode Params.reference (.stats .l2) = .ok (.stats .l2) ∧
      decode Params.reference .connect = .ok .connect ∧ decode Params.reference .disconnect = .ok .disconnect := by decide

/-- The 16 rows of the DR side and of TLR, RTI (30_encoding.md R90). -/
theorem decode_clock_rows_dr :
    decodeClock .tlr false true = .clockTLR0 true ∧ decodeClock .tlr true true = .clockTLR1 true ∧
      decodeClock .rti false true = .clockRTI0 true ∧ decodeClock .rti true true = .clockRTI1 true ∧
      decodeClock .selDR false true = .clockSelDR0 true ∧ decodeClock .selDR true true = .clockSelDR1 true ∧
      decodeClock .capDR false true = .clockCapDR0 true ∧ decodeClock .capDR true true = .clockCapDR1 true ∧
      decodeClock .shDR false true = .clockShDR0 true ∧ decodeClock .shDR true true = .clockShDR1 true ∧
      decodeClock .ex1DR false true = .clockEx1DR0 true ∧ decodeClock .ex1DR true true = .clockEx1DR1 true ∧
      decodeClock .pauDR false true = .clockPauDR0 true ∧ decodeClock .pauDR true true = .clockPauDR1 true ∧
      decodeClock .ex2DR false true = .clockEx2DR0 true ∧ decodeClock .ex2DR true true = .clockEx2DR1 true ∧
      decodeClock .updDR false true = .clockUpdDR0 true ∧ decodeClock .updDR true true = .clockUpdDR1 true := by decide

/-- The 14 rows of the IR side (30_encoding.md R90). -/
theorem decode_clock_rows_ir :
    decodeClock .selIR false true = .clockSelIR0 true ∧ decodeClock .selIR true true = .clockSelIR1 true ∧
      decodeClock .capIR false true = .clockCapIR0 true ∧ decodeClock .capIR true true = .clockCapIR1 true ∧
      decodeClock .shIR false true = .clockShIR0 true ∧ decodeClock .shIR true true = .clockShIR1 true ∧
      decodeClock .ex1IR false true = .clockEx1IR0 true ∧ decodeClock .ex1IR true true = .clockEx1IR1 true ∧
      decodeClock .pauIR false true = .clockPauIR0 true ∧ decodeClock .pauIR true true = .clockPauIR1 true ∧
      decodeClock .ex2IR false true = .clockEx2IR0 true ∧ decodeClock .ex2IR true true = .clockEx2IR1 true ∧
      decodeClock .updIR false true = .clockUpdIR0 true ∧ decodeClock .updIR true true = .clockUpdIR1 true := by decide

/-- The client bytes, written out bit by bit (30_encoding.md R100), and malformed ones (vector B6). -/
theorem decode_client_bytes :
    decode Params.reference (.byte 0b00110000#8) = .ok .bbClock0 ∧
      decode Params.reference (.byte 0b00110001#8) = .ok .bbClock1 ∧
      decode Params.reference (.byte 0b00110010#8) = .ok .bbClock2 ∧
      decode Params.reference (.byte 0b00110011#8) = .ok .bbClock3 ∧
      decode Params.reference (.byte 0b01110011#8) = .ok .bbSysreset ∧
      decode Params.reference (.byte 0b01110100#8) = .ok .bbTapreset ∧
      decode Params.reference (.byte 0b00110100#8) = .ok (.bbMalformed 0x34#8) ∧
      decode Params.reference (.byte 0b01010010#8) = .ok (.bbMalformed 0x52#8) ∧
      decode Params.reference (.byte 0b00000000#8) = .ok (.bbMalformed 0#8) := by decide

/-- The class row: a machine whose codec has a byte of its own for `Clock(1, 0)` (30_encoding.md R99, log 9). -/
theorem decode_clock_class :
    decode { Params.reference with bbOverride := [(0x61#8, .clock true false)] } (.byte 0x61#8) =
      .ok (.bbClock true false) := by decide

/-- The response bytes (30_encoding.md R101); another byte is no response. -/
theorem decode_responses :
    decode Params.reference (.response 0b00110000#8) = .ok .bbResponse0 ∧
      decode Params.reference (.response 0b00110001#8) = .ok .bbResponse1 ∧
      decode Params.reference (.response 0b00110010#8) = .reject .badResponse := by decide

/-- The instruction words of the reference instance, `{addr, op}` with 7 and 2 bits (30_encoding.md R96); 512 is too wide. -/
theorem decode_ir_words :
    decode Params.reference (.irWord 0b1111111_00) = .ok (.dtmIdle 127) ∧
      decode Params.reference (.irWord 0b0010000_01) = .ok (.dtmRead 0x10) ∧
      decode Params.reference (.irWord 0b0010000_10) = .ok (.dtmWrite 0x10) ∧
      decode Params.reference (.irWord 0b0000001_11) = .ok (.dtmReserved 1) ∧
      decode Params.reference (.irWord 512) = .reject .irWordTooWide := by decide

/-- A direct access to a cache that does not exist selects no row. -/
theorem fetch_rejects_absent_cache : fetch bare (.access .dc 0#64 false) = .reject .noRowSelected := by decide

/-- The host's reading of bare table words, and that the first step after reset runs them (log 8). -/
theorem table_words_run_after_reset :
    decodeTableWord 8 0x31 = some .bbClock1 ∧ decodeTableWord 8 0x01 = some (.dtmRead 0) ∧
      (next? (step (State.reset.withFetchWord 8 0x31))).map (fun t => (t.tap.state, t.sent)) =
        some (.rti, [0x30#8]) ∧
      (next? (step (State.reset.withFetchWord 8 0x01))).map (fun t => (t.tap.state, t.tap.sel, t.inputs)) =
        some (.updIR, 1, []) := by decide

/-! ### The spec string (95_test_vectors.md section 2.1) -/

theorem spec_strings_parse :
    parseSpec ['6', '4', ':', '3', ':', '6', '4'] = some (64, 3, 64) ∧
      parseSpec ['0', '6', '4', ':', '4', ':', '1'] = some (64, 4, 1) ∧ parseSpec ['6', '4', ':', '4'] = none ∧
      parseSpec ['1', ':', '1', ':', '1', ':', '1'] = none ∧ parseSpec ['6', '4', ':', ':', '6', '4'] = none ∧
      parseSpec ['a', ':', '4', ':', '1'] = none ∧ parseSpec [' ', '4', ':', '4', ':', '1'] = none ∧
      parseSpec ['-', '4', ':', '4', ':', '1'] = none ∧ parseSpec [] = none := by decide

/-- The three errors and their order (the rows `64:4`, `48:0:64` and `64:0:64`). -/
theorem test_construct_errors :
    step (State.on bare (.construct .dc ['6', '4', ':', '4'] [])) = .fault (.configError .malformedCacheSpec) ∧
      step (State.on bare (.construct .dc ['4', '8', ':', '0', ':', '6', '4'] [])) =
        .fault (.configError .nonPowerOfTwoGeometry) ∧
      step (State.on bare (.construct .dc ['6', '4', ':', '0', ':', '6', '4'] [])) =
        .fault (.configError .zeroWays) := ⟨rfl, rfl, rfl⟩

/-- `1:1:64` builds one line, invalid, counters (0, 0), no miss handler. -/
theorem test_construct_builds :
    (stepOf bare (.construct .dc ['1', ':', '1', ':', '6', '4'] ['D'])).map (fun t => (t.dc, t.ret)) =
      some (some ⟨1, 1, 64, ['D'], none, [], 0, 0⟩, .cache .dc) := by decide

/-- The address split (95_test_vectors.md section 2.2, rows 1 and 3). -/
theorem test_address_split :
    let k := Cache.fresh 64 4 64 []
    (k.offset 0x80001234#64, k.index 0x80001234#64, k.tag 0x80001234#64) = (0x34, 8, 0x80001) ∧
      (k.offset 0xffffffffffffffff#64, k.index 0xffffffffffffffff#64, k.tag 0xffffffffffffffff#64) =
        (63, 63, 0xfffffffffffff) := by decide

/-! ### The cache operations -/

theorem test_attach :
    (stepOf { tree with dc := some oneLine } (.attach .dc .l2)).map (fun t => t.dc.map Cache.next) =
      some (some (some .l2)) := by decide

/-- `attach L2 IC` in the tree would close a cycle (40_cache.md R113 step 1). -/
theorem test_attach_cycle : step (State.on tree (.attach .l2 .ic)) = .refused .cyclicAttach := rfl

theorem test_register :
    (stepOf (withDc oneLine) (.register 1 .dc)).map (fun t => t.tracers) = some [[.dc], [.dc]] := by decide

/-- Routing by kind (95_test_vectors.md section 2.4): the accesses of (IC, DC, L2) after one event in the tree. -/
theorem test_notify_fetch :
    (stepOf tree (.notify 0 0x100#64 .fetch)).map
      (fun t => (t.ic.map Cache.accesses, t.dc.map Cache.accesses, t.l2.map Cache.accesses)) =
      some (some 1, some 0, some 1) := by decide

theorem test_notify_load :
    (stepOf tree (.notify 1 0x100#64 .load)).map
      (fun t => (t.ic.map Cache.accesses, t.dc.map Cache.accesses, t.ret)) =
      some (some 0, some 1, .nothing) := by decide

theorem test_notify_store :
    (stepOf tree (.notify 0 0x100#64 .store)).map
      (fun t => (t.ic.map Cache.accesses, t.dc.map Cache.accesses, t.ret)) =
      some (some 0, some 1, .nothing) := by decide

/-- V1 access 3: 0x103f hits the line brought in by 0x1000; line (0, 0, 0x40, 2), counters (2, 1). -/
theorem test_access_hit :
    (stepOf (withDc oneLineV1) (.access .dc 0x103f#64 false)).map
      (fun t => (t.ret, t.dc.map fun k => (k.line 0 0, k.accesses, k.hits))) =
      some (.hit true, some (⟨true, 0x40, 2⟩, 2, 1)) := by decide

/-- V1 access 4 after access 1: the next block misses and takes the line; counters (2, 0). -/
theorem test_access_miss :
    (stepOf (withDc oneLineV1) (.access .dc 0x1040#64 true)).map
      (fun t => (t.ret, t.dc.map fun k => (k.line 0 0, k.accesses, k.hits))) =
      some (.hit false, some (⟨true, 0x41, 2⟩, 2, 0)) := by decide

/-- T2, the set after access 4 with stamps 4, 2, 3: access 5 takes way 1; of three stamps 0 the lowest way is taken. -/
theorem test_victim :
    victimWay [⟨true, 0, 4⟩, ⟨true, 1, 2⟩, ⟨true, 2, 3⟩] = 1 ∧
      victimWay [⟨false, 0, 0⟩, ⟨false, 0, 0⟩, ⟨false, 0, 0⟩] = 0 := by decide

/-- An invalid line never matches, not even with tag 0 (40_cache.md R119). -/
theorem test_scan_skips_invalid : findWay [⟨false, 0, 0⟩, ⟨true, 0, 5⟩] 0 = some 1 := by decide

/-- T5 row 2: the L1 miss is one L2 access, which misses too; the access reports the L1's miss. -/
theorem test_access_miss_forward :
    (stepOf { tree with l2 := some oneLineV1 } (.access .ic 0x1000#64 false)).map
      (fun t => (t.ret, t.ic.map fun k => (k.accesses, k.hits), t.l2.map fun k => (k.accesses, k.hits))) =
      some (.hit false, some (1, 0), some (2, 1)) := by decide

theorem test_stats :
    (stepOf (withDc oneLineV1) (.stats .dc)).map (fun t => (t.ret, t.dc)) =
      some (.stats 1 0, some oneLineV1) := by decide

/-! ### The TAP -/

/-- The next-state table of 30_encoding.md R90, written out: state, next state for tms 0, for tms 1. First half. -/
def tableR90dr : List (TapState × TapState × TapState) :=
  [(.tlr, .rti, .tlr), (.rti, .rti, .selDR), (.selDR, .capDR, .selIR), (.capDR, .shDR, .ex1DR),
    (.shDR, .shDR, .ex1DR), (.ex1DR, .pauDR, .updDR), (.pauDR, .pauDR, .ex2DR), (.ex2DR, .shDR, .updDR)]

/-- Second half. -/
def tableR90ir : List (TapState × TapState × TapState) :=
  [(.updDR, .rti, .selDR), (.selIR, .capIR, .tlr), (.capIR, .shIR, .ex1IR), (.shIR, .shIR, .ex1IR),
    (.ex1IR, .pauIR, .updIR), (.pauIR, .pauIR, .ex2IR), (.ex2IR, .shIR, .updIR), (.updIR, .rti, .selDR)]

/-- K1: all 32 `clock` rows move as the table says. -/
theorem test_clock_rows_move :
    (tableR90dr ++ tableR90ir).all (fun e =>
      (stepOf (tapIn e.1 3 5) (.clock false true)).map (fun t => t.tap.state) == some e.2.1 &&
        (stepOf (tapIn e.1 3 5) (.clock true false)).map (fun t => t.tap.state) == some e.2.2) = true := by decide

/-- K5: the first DR shift of 0b1010, `tdi = 0`: `tdo = 1`, DR 0b0100. -/
theorem test_shift_dr :
    (stepOf (tapIn .shDR 6 0b1010) (.clock false false)).map (fun t => (t.tap, t.ret)) =
      some (⟨.shDR, 6, 0b0100, 6, true⟩, .tdo true) := by decide

/-- K12: the shift of IR 0b1101 on the way to Ex1IR, `tdi = 0`: IR 0b1010, `tdo = 1`. -/
theorem test_shift_ir :
    (stepOf (tapIn .shIR 0b1101 5) (.clock true false)).map (fun t => (t.tap, t.ret)) =
      some (⟨.ex1IR, 0b1010, 5, 6, true⟩, .tdo true) := by decide

/-- K5: Capture-DR under `Write(1)` reads register 1. -/
theorem test_capture_dr :
    (stepOf (tapIn .selDR 6 0) (.clock false false)).map (fun t => (t.tap.dr, t.dm.log)) =
      some (0b1010, [.read 1]) := by decide

/-- K8: with `op = 3` Capture-DR loads the idle value and reads nothing. -/
theorem test_capture_dr_reserved :
    (stepOf { tapIn .selDR 7 9 with tapHalf := some ⟨.selDR, 7, 9, 0b0111, false⟩ } (.clock false false)).map
      (fun t => (t.tap.dr, t.dm.log)) = some (0, []) := by decide

/-- K6: IR capture loads the old selection. -/
theorem test_capture_ir : (stepOf (tapIn .selIR 0 0) (.clock false true)).map (fun t => t.tap.ir) = some 0b0110 := by decide

/-- K12: Update-IR latches what was shifted so far. -/
theorem test_update_ir : (stepOf (tapIn .ex1IR 0b1010 0) (.clock true true)).map (fun t => t.tap.sel) = some 0b1010 := by decide

/-- K5: Update-DR writes DR to register 1. -/
theorem test_update_dr :
    (stepOf (tapIn .ex1DR 6 0b0110) (.clock true false)).map (fun t => (t.tap.dr, t.dm.log)) =
      some (0b0110, [.write 1 6]) := by decide

/-- K12, last edge: entering TLR clears the three registers and keeps `tdo`. -/
theorem test_enter_reset :
    (stepOf { tapIn .selIR 9 9 with tapHalf := some ⟨.selIR, 9, 9, 0b1010, true⟩ } (.clock true true)).map (fun t => t.tap) =
      some ⟨.tlr, 0, 0, 0, true⟩ := by decide

/-! ### The bitbang layer (95_test_vectors.md section 2.9) -/

/-- B1. -/
theorem test_bb_clock0 :
    (stepOf (tapIn .tlr 0 0) (.byte 0x30#8)).map (fun t => (t.tap.state, t.sent, t.bb)) =
      some (.rti, [0x30#8], ⟨true, false⟩) := by decide

/-- B2. -/
theorem test_bb_clock1 :
    (stepOf (tapIn .shDR 6 0b1010) (.byte 0x31#8)).map (fun t => (t.tap, t.sent, t.bb.lastTdo)) =
      some (⟨.shDR, 6, 0b0101, 6, true⟩, [0x31#8], true) := by decide

/-- K9: from SelDR's successor, `2` in CapDR goes to Ex1DR without a shift. -/
theorem test_bb_clock2 :
    (stepOf (tapIn .capDR 6 0b1010) (.byte 0x32#8)).map (fun t => (t.tap.state, t.tap.dr, t.sent)) =
      some (.ex1DR, 0b1010, [0x30#8]) := by decide

/-- B3. -/
theorem test_bb_clock3 :
    (stepOf (tapIn .shDR 6 0b0101) (.byte 0x33#8)).map (fun t => (t.tap, t.sent)) =
      some (⟨.ex1DR, 6, 0b1011, 6, false⟩, [0x30#8]) := by decide

/-- B3 through the class row. -/
theorem test_bb_clock_class :
    (next? (exec (.bbClock true true) (tapIn .shDR 6 0b0101))).map (fun t => (t.tap, t.sent)) =
      some (⟨.ex1DR, 6, 0b1011, 6, false⟩, [0x30#8]) := by decide

/-- B4. -/
theorem test_bb_tapreset :
    (stepOf (tapIn .pauDR 6 0b0100) (.byte 0x74#8)).map (fun t => (t.tap, t.sent, t.bb.lastTdo, t.dm.log)) =
      some (⟨.tlr, 0, 0, 0, false⟩, [], false, []) := by decide

/-- B5. -/
theorem test_bb_sysreset :
    (stepOf (tapIn .shDR 6 0b0100) (.byte 0x73#8)).map (fun t => (t.tap, t.sent, t.bb.lastTdo, t.dm.log)) =
      some (⟨.shDR, 6, 0b0100, 6, false⟩, [], false, [.reset]) := by decide

/-- B6. -/
theorem test_bb_malformed : stepOf (tapIn .shDR 6 0b0100) (.byte 0x58#8) = some { tapIn .shDR 6 0b0100 with running := true } := by
  decide

theorem test_bb_responses :
    (next? (exec .bbResponse0 (tapIn .rti 0 0))).map (fun t => t.sent) = some [0x30#8] ∧
      (next? (exec .bbResponse1 (tapIn .rti 0 0))).map (fun t => t.sent) = some [0x31#8] := by decide

/-- B8, each half. -/
theorem test_connect :
    (stepOf { tapIn .rti 0 0 with bb := ⟨false, false⟩ } .connect).map (fun t => (t.bb, t.tap.sel)) =
      some (⟨true, false⟩, 0b0110) := by decide

theorem test_disconnect :
    (stepOf (tapIn .rti 0 0) .disconnect).map (fun t => (t.bb, t.tap.state, t.tap.sel)) =
      some (⟨false, false⟩, .rti, 0b0110) := by decide

/-- B9: with no client no byte arrives and no edge, and the TAP holds its state. -/
theorem test_no_client :
    step (State.on bare (.byte 0x30#8)) = .refused .noSession ∧
      step (State.on bare (.clock false false)) = .refused .noSession ∧
      step (State.on { tapIn .selDR 0 9 with bb := ⟨false, false⟩ } .instrEdge) = .refused .noSession := ⟨rfl, rfl, rfl⟩

/-! ### The instruction words, on the edges that act on them (30_encoding.md R97) -/

theorem test_dtm_idle :
    fetch (tapSel .selDR 0b0100 9) .instrEdge = .ok (.dtmIdle 1) ∧
      (stepOf (tapSel .selDR 0b0100 9) .instrEdge).map (fun t => (t.tap.state, t.tap.dr, t.dm.log)) =
        some (.capDR, 0, []) := by decide

theorem test_dtm_read :
    fetch (tapSel .selDR 0b0101 9) .instrEdge = .ok (.dtmRead 1) ∧
      (stepOf (tapSel .selDR 0b0101 9) .instrEdge).map (fun t => (t.tap.state, t.tap.dr, t.dm.log)) =
        some (.capDR, 0b1010, [.read 1]) := by decide

theorem test_dtm_write :
    fetch (tapSel .ex2DR 0b0110 9) .instrEdge = .ok (.dtmWrite 1) ∧
      (stepOf (tapSel .ex2DR 0b0110 9) .instrEdge).map (fun t => (t.tap.state, t.tap.dr, t.dm.log)) =
        some (.updDR, 9, [.write 1 9]) := by decide

theorem test_dtm_reserved :
    fetch (tapIn .ex1IR 0b0111 9) .instrEdge = .ok (.dtmReserved 1) ∧
      (stepOf (tapIn .ex1IR 0b0111 9) .instrEdge).map (fun t => (t.tap.state, t.tap.sel, t.dm.log)) =
        some (.updIR, 0b0111, []) := by decide

/-- No edge from Shift-DR acts on a word, and no word is what another word's row says. -/
theorem test_dtm_unselected :
    step (State.on (tapIn .shDR 0 9) .instrEdge) = .refused (.undecodable .noRowSelected) ∧
      exec (.dtmRead 1) (tapIn .selDR 0 9) = .refused .rowNotSelected := ⟨rfl, rfl⟩

/-! ### The phases of a machine, and the machine without a TAP half -/

/-- 43_remote_bitbang.md R216: a building call after an edge, even with a bad spec string, is refused; a query is not. -/
theorem test_no_building_in_a_run :
    run 2 { tapIn .tlr 0 0 with inputs := [.clock false false, .construct .dc ['1'] []] } = .refused .runStarted ∧
      (stepOf (tapIn .tlr 0 0) (.clock false false)).map State.running = some true ∧
      (stepOf tree (.stats .dc)).map State.running = some false := ⟨rfl, by decide, by decide⟩

/-- 70_reset_and_hazards.md R257: no TAP, no edge, no client; the cache half works. -/
theorem test_no_transport :
    noTap.tapHalf = none ∧ exec (.clockTLR1 false) noTap = .refused .noTapHalf ∧
      step (State.on noTap .connect) = .refused .noTapHalf ∧
      (stepOf { noTap with dc := some oneLine } (.access .dc 0#64 false)).map State.ret = some (.hit false) :=
  ⟨rfl, rfl, rfl, by decide⟩

/-! ### Witnesses: states and operands that meet the hypotheses of each statement -/

theorem goes_on {o : Result} (h : (next? o).isSome = true) : ∃ t, o = .next t := by
  cases o with
  | next t => exact ⟨t, rfl⟩
  | fault r => cases h
  | refused r => cases h

theorem oneLine_inv : oneLine.Inv := Cache.fresh_inv _ rfl rfl (by decide)

theorem oneLineV1_inv : oneLineV1.Inv := Cache.touch_inv oneLine_inv _

theorem lower_inv : lower.Inv := Cache.next_inv oneLine_inv _

theorem tree_caches : tree.CachesInv := by
  intro c k h
  cases c <;> cases h
  · exact lower_inv
  · exact lower_inv
  · exact oneLine_inv

theorem tree_chains : tree.ChainsInv := by intro c _; cases c <;> decide

theorem tree_tracers : tree.TracersInv := by unfold State.TracersInv; decide

theorem tree_tapHalf : tree.TapHalfInv := by unfold State.TapHalfInv; decide

theorem tree_widths : tree.WidthsInv := by unfold State.WidthsInv; decide

/-- Every state of the orchestrator's tree with other inputs has the invariant. -/
theorem tree_inv (xs : List Input) : State.Inv { tree with inputs := xs } where
  params := params_small
  caches := by intro c k h; exact tree_caches c k (by cases c <;> exact h)
  chains := by intro c _; cases c <;> rfl
  tracers := tree_tracers
  tapHalf := tree_tapHalf
  widths := tree_widths

theorem witness_StepRunsTheDecodedInstruction :
    (let s := State.on bare (.notify 1 0#64 .load);
      s.inputs = .notify 1 0#64 .load :: [] ∧ fetch s (.notify 1 0#64 .load) = .ok (.notifyLoad 1 0#64) ∧
        Instr.wf s.params (.notifyLoad 1 0#64) = true) ∧
    (let s := State.on bare (.notify 2 0#64 .load);
      s.inputs = .notify 2 0#64 .load :: [] ∧ fetch s (.notify 2 0#64 .load) = .ok (.notifyLoad 2 0#64) ∧
        Instr.wf s.params (.notifyLoad 2 0#64) = false) ∧
    (let s := State.on bare (.access .dc 0#64 true);
      s.inputs = .access .dc 0#64 true :: [] ∧ fetch s (.access .dc 0#64 true) = .reject .noRowSelected) ∧
    (let s := State.on (tapSel .selDR 16 0) .instrEdge;
      s.inputs = .instrEdge :: [] ∧ s.admits .instrEdge = true ∧ fetch s .instrEdge = .reject .irWordTooWide) ∧
    (let s := State.on bare (.clock true true);
      s.inputs = .clock true true :: [] ∧ s.admits (.clock true true) = false) ∧
    bare.inputs = [] := by decide

theorem witness_EncodeThenDecode :
    Params.reference.bbOverride = [] ∧ Params.reference.resp0 ≠ Params.reference.resp1 ∧
      Instr.wf Params.reference (.dtmWrite 127) = true ∧ Instr.wf Params.reference (.bbMalformed 0xff#8) = true ∧
      Instr.wf Params.reference (.bbClock true true) = true := by decide

theorem witness_DecodeThenEncode :
    Params.reference.bbOverride = [] ∧ decode Params.reference (.irWord 511) = .ok (.dtmReserved 127) ∧
      decode Params.reference (.byte 0xff#8) = .ok (.bbMalformed 0xff#8) := by decide

/-- A numeral with a leading zero, and the digits at both ends of their range. -/
theorem witness_SpecStrings : IsNumeral ['0', '9'] 9 :=
  ⟨by decide, by intro c hc; rcases List.mem_cons.1 hc with rfl | hc
                 · decide
                 · rw [List.mem_singleton.1 hc]; decide, rfl⟩

theorem witness_ReferenceCodec : Params.small.bbOverride = [] := rfl

/-- One witness for each clause: no parse, 0 sets, no ways, built, already built. -/
theorem witness_ConstructChecksThenBuilds :
    bare.running = false ∧ tree.running = false ∧ parseSpec ['1', ':', '1'] = none ∧
      (parseSpec ['0', ':', '1', ':', '1'] = some (0, 1, 1) ∧ ¬((∃ n, 0 = 2 ^ n) ∧ ∃ n, 1 = 2 ^ n)) ∧
      (parseSpec ['1', ':', '0', ':', '1'] = some (1, 0, 1) ∧ (∃ n, 1 = 2 ^ n)) ∧
      (parseSpec ['1', ':', '1', ':', '1'] = some (1, 1, 1) ∧ bare.cache .dc = none) ∧
      tree.cache .dc ≠ none := by
  refine ⟨rfl, rfl, by decide, ⟨by decide, ?_⟩, ⟨by decide, 0, rfl⟩, by decide, by decide⟩
  rintro ⟨⟨n, hn⟩, -⟩
  have := Nat.one_le_two_pow (n := n)
  omega

theorem witness_ConstructAccepts : bare.running = false ∧ bare.cache .l2 = none := ⟨rfl, rfl⟩

/-- One witness for each clause: `attach L2 IC` closes a cycle; `IC` has a miss handler; `DC` was accessed; all is well. -/
theorem witness_AttachLinksOrRefuses :
    tree.running = false ∧
    (tree.ChainsInv ∧ tree.cache .l2 = some oneLine ∧ tree.cache .ic = some lower ∧ NextReaches tree .ic .l2) ∧
    (tree.cache .l2 = some oneLine ∧ ¬NextReaches tree .l2 .ic ∧ lower.next ≠ none) ∧
    (let s := { tree with dc := some oneLineV1 };
      s.ChainsInv ∧ s.cache .dc = some oneLineV1 ∧ ¬NextReaches s .l2 .dc ∧ oneLineV1.next = none ∧
        oneLineV1.accesses ≠ 0) ∧
    (let s := { tree with dc := some oneLine };
      s.ChainsInv ∧ ¬NextReaches s .l2 .dc ∧ oneLine.next = none ∧ oneLine.accesses = 0) := by
  have no : ∀ s : State, ∀ c d : CacheId, chainEnds s maxLevels c = true → chainReaches s maxLevels c d = false →
      ¬NextReaches s c d := by
    intro s c d he hr h
    rw [(chainReaches_iff he).2 h] at hr
    cases hr
  refine ⟨rfl, ⟨tree_chains, rfl, rfl, .step (u := .l2) (k := lower) rfl rfl (.here _)⟩, ⟨rfl, no _ _ _ rfl rfl, by decide⟩,
    ⟨by intro c _; cases c <;> rfl, rfl, no _ _ _ rfl rfl, rfl, by decide⟩,
    ⟨by intro c _; cases c <;> rfl, no _ _ _ rfl rfl, rfl, rfl⟩⟩

theorem witness_RegisterAppendsOnce :
    (withDc oneLine).running = false ∧
    ((withDc oneLine).tracers[1]? = some [] ∧ CacheId.dc ≠ .l2 ∧ ((withDc oneLine).cache .dc).isSome = true ∧
      CacheId.dc ∉ ([] : List CacheId)) ∧
    ((withDc oneLine).tracers[0]? = some [.dc] ∧ CacheId.dc ∈ [CacheId.dc]) ∧
    (withDc oneLine).tracers[2]? = none ∧
    ((withDc oneLine).cache .ic = none) := by decide

/-- The configuration of program P1 but for its harts: good specs for all three; and none at all. -/
theorem witness_BootBuildsTheTree :
    Params.small.wf = true ∧
      [['4', ':', '2', ':', '3', '2'], ['2', ':', '1', ':', '1', '6']].all (fun t => specError t == none) = true :=
  ⟨params_small, by decide⟩

/-- Program P5. -/
theorem witness_BootReportsTheFirstBadSpec :
    [some ['4', '8', ':', '8', ':', '6', '4'], some ['6', '4', ':', '4', ':', '6', '4'],
      some ['6', '4', ':', '4', ':', '4', '8']].findSome? (fun o => o.bind specError) =
        some .nonPowerOfTwoGeometry ∧
    [none, some ['1', ':', '1', ':', '1'], some ['1']].findSome? (fun o => o.bind specError) =
        some .malformedCacheSpec := by decide

/-- A common geometry, and one whose low fields take exactly 64 bits. -/
theorem witness_AddressSplitsIntoFields :
    ((Cache.fresh 64 4 64 []).blockBytes = 2 ^ 6 ∧ (Cache.fresh 64 4 64 []).sets = 2 ^ 6) ∧
    ((Cache.fresh (2 ^ 24) 1 (2 ^ 40) []).blockBytes = 2 ^ 40 ∧ (Cache.fresh (2 ^ 24) 1 (2 ^ 40) []).sets = 2 ^ 24 ∧
      64 ≤ 40 + 24) := ⟨⟨rfl, rfl⟩, rfl, rfl, by decide⟩

theorem witness_AccessHit :
    (withDc oneLineV1).cache .dc = some oneLineV1 ∧ oneLineV1.Inv ∧
      (oneLineV1.line (oneLineV1.index 0x103f#64) 0).valid = true ∧
      (oneLineV1.line (oneLineV1.index 0x103f#64) 0).tag = oneLineV1.tag 0x103f#64 :=
  ⟨rfl, oneLineV1_inv, by decide, by decide⟩

theorem witness_AccessMiss :
    (withDc oneLine).cache .dc = some oneLine ∧ oneLine.Inv ∧
      (∀ w, (oneLine.line (oneLine.index 0#64) w).valid = true →
        (oneLine.line (oneLine.index 0#64) w).tag ≠ oneLine.tag 0#64) ∧ oneLine.next = none := by
  refine ⟨rfl, oneLine_inv, ?_, rfl⟩
  intro w h
  rw [oneLine, Cache.fresh_line] at h
  cases h

theorem witness_AccessMissForward :
    tree.ChainsInv ∧ tree.cache .ic = some lower ∧ lower.Inv ∧
      (∀ w, (lower.line (lower.index 0#64) w).valid = true →
        (lower.line (lower.index 0#64) w).tag ≠ lower.tag 0#64) ∧ lower.next = some .l2 := by
  refine ⟨tree_chains, rfl, lower_inv, ?_, rfl⟩
  intro w h
  have h' : ((Cache.fresh 1 1 64 []).line (lower.index 0#64) w).valid = true := h
  rw [Cache.fresh_line] at h'
  cases h'

theorem witness_AccessRows :
    accessRow (withDc oneLineV1) .dc 0x1000#64 = some .hit ∧ accessRow (withDc oneLine) .dc 0#64 = some .miss ∧
      accessRow tree .ic 0#64 = some .missForward := by decide

theorem witness_NotifyRoutesByKind :
    (tree.tracers[1]? = some [.ic, .dc] ∧ ([.ic, .dc] : List CacheId).Nodup) ∧
      (bare.tracers[0]? = some [] ∧ ([] : List CacheId).Nodup) := by decide

theorem witness_OperationsThatCannotFail :
    State.Inv { tree with inputs := [] } ∧ 1 < tree.params.nharts ∧ (tree.cache .l2).isSome = true ∧
      tree.tapHalf.isSome = true :=
  ⟨tree_inv [], by decide, rfl, rfl⟩

theorem witness_Stats :
    (withDc oneLineV1).cache .dc = some oneLineV1 ∧
      ∃ t, exec (.construct .dc ['1', ':', '1', ':', '1'] []) bare = .next t := ⟨rfl, goes_on (by decide)⟩

theorem witness_StepKeepsTheCacheInvariants :
    State.CachesInv (State.on tree (.notify 0 0#64 .fetch)) ∧
      ∃ t, step (State.on tree (.notify 0 0#64 .fetch)) = .next t := ⟨(tree_inv _).caches, goes_on (by decide)⟩

theorem witness_StepKeepsChainsAndTracers :
    State.ChainsInv (State.on tree (.access .dc 0#64 true)) ∧ State.TracersInv (State.on tree (.access .dc 0#64 true)) ∧
      ∃ t, step (State.on tree (.access .dc 0#64 true)) = .next t :=
  ⟨(tree_inv _).chains, (tree_inv _).tracers, goes_on (by decide)⟩

/-- Vector V2: after A, B, A, C the block A hits and the block B does not. -/
theorem witness_LeastRecentlyUsed :
    isPow2 1 = true ∧ isPow2 64 = true ∧ 1 ≤ 2 ∧
      lruHits (Cache.fresh 1 2 64 []) [0x0#64, 0x40#64, 0x0#64, 0x80#64] 0x0#64 ∧
      ¬lruHits (Cache.fresh 1 2 64 []) [0x0#64, 0x40#64, 0x0#64, 0x80#64] 0x40#64 := by
  refine ⟨rfl, rfl, by decide, ?_, ?_⟩ <;>
    simp [lruHits, sinceLast, Cache.block, Cache.index, Cache.fresh]

theorem witness_L2Counts :
    State.CachesInv (State.on tree (.notify 0 0#64 .fetch)) ∧ State.Wired (State.on tree (.notify 0 0#64 .fetch)) ∧
      State.L2Counts (State.on tree (.notify 0 0#64 .fetch)) ∧
      (∀ a w, Input.notify 0 0#64 .fetch ≠ .access .l2 a w) ∧
      ∃ t, step (State.on tree (.notify 0 0#64 .fetch)) = .next t := by
  refine ⟨(tree_inv _).caches, ⟨⟨oneLine, rfl, rfl⟩, ?_, ?_⟩, ?_, fun _ _ => Input.noConfusion, goes_on (by decide)⟩
  · intro k h; cases h; rfl
  · intro k h; cases h; rfl
  · intro k h; cases h; rfl

theorem witness_NothingClears :
    State.CachesInv (State.on tree (.byte 0x73#8)) ∧ ∃ t, step (State.on tree (.byte 0x73#8)) = .next t :=
  ⟨(tree_inv _).caches, goes_on (by decide)⟩

/-- A run that does end in a fault: a bad spec string as the second input. -/
theorem witness_RunsFaultOnlyByConfigError :
    State.Inv { tree with inputs := [.stats .ic, .construct .ic ['1'] []] } ∧
      run 2 { tree with inputs := [.stats .ic, .construct .ic ['1'] []] } =
        .fault (.configError .malformedCacheSpec) := ⟨tree_inv _, rfl⟩

theorem witness_UnselectedRows :
    bare.tapHalf.isSome = true ∧ TapState.rti ≠ bare.tap.state ∧ accessRow (withDc oneLine) .dc 0#64 = some .miss ∧
      AccessRow.missForward ≠ .miss := by decide

/-- The states the TAP statements start in, each with its own hypothesis. -/
theorem witness_TapStates :
    [TapState.tlr, .rti, .selDR, .capDR, .shDR, .ex1DR, .pauDR, .ex2DR].all (fun st => (tapIn st 1 2).tap.state == st) =
        true ∧
      [TapState.updDR, .selIR, .capIR, .shIR, .ex1IR, .pauIR, .ex2IR, .updIR].all
        (fun st => (tapIn st 1 2).tap.state == st) = true ∧ ∀ st, (tapIn st 1 2).tapHalf.isSome = true :=
  ⟨by decide, by decide, fun _ => rfl⟩

/-- The three kinds of selected instruction, idle by 0 and by the reserved 3. -/
theorem witness_SelectedInstructions :
    instrDecode Params.small 0b0000 = .idle ∧ instrDecode Params.small 0b1111 = .idle ∧
      instrDecode Params.small 0b0001 = .read 0 ∧ instrDecode Params.small 0b1101 = .read 3 ∧
      instrDecode Params.small 0b0010 = .write 0 ∧ instrDecode Params.small 0b1110 = .write 3 := by decide

theorem witness_DrUpdateEdges :
    (Instr.clockEx1DR1 true = .clockEx1DR1 true ∧ (tapIn .ex1DR 0 9).tap.state = .ex1DR ∨
      Instr.clockEx1DR1 true = .clockEx2DR1 true ∧ (tapIn .ex1DR 0 9).tap.state = .ex2DR) ∧
    (Instr.clockEx2DR1 true = .clockEx1DR1 true ∧ (tapIn .ex2DR 0 9).tap.state = .ex1DR ∨
      Instr.clockEx2DR1 true = .clockEx2DR1 true ∧ (tapIn .ex2DR 0 9).tap.state = .ex2DR) := by decide

theorem witness_FiveOnes :
    (let s := { tapIn .pauIR 3 5 with inputs := asEdges (List.replicate 5 (true, false)) };
      s.bb.connected = true ∧
        s.inputs = [.clock true false, .clock true false, .clock true false, .clock true false, .clock true false]) ∧
    (let s := { tapIn .shDR 3 5 with inputs := asEdges (List.replicate 4 (true, true)) };
      s.bb.connected = true ∧ s.tap.state = .shDR ∧
        s.inputs = [.clock true true, .clock true true, .clock true true, .clock true true]) := by decide

theorem witness_NextStateDependsOnStateAndTms :
    (tapIn .shDR 1 2).tap.state = (tapIn .shDR 3 4).tap.state ∧
      (∃ t, exec (decodeClock (tapIn .shDR 1 2).tap.state true false) (tapIn .shDR 1 2) = .next t) ∧
      ∃ t, exec (decodeClock (tapIn .shDR 3 4).tap.state true true) (tapIn .shDR 3 4) = .next t :=
  ⟨rfl, goes_on (by decide), goes_on (by decide)⟩

theorem witness_StepKeepsTheRegisterWidths :
    Params.wf (State.on (tapIn .shDR 15 15) (.clock false true)).params = true ∧
      State.WidthsInv (State.on (tapIn .shDR 15 15) (.clock false true)) ∧
      ∃ t, step (State.on (tapIn .shDR 15 15) (.clock false true)) = .next t :=
  ⟨params_small, by unfold State.WidthsInv; decide, goes_on (by decide)⟩

/-- The largest pattern of each scan, from Run-Test/Idle with a client. -/
theorem witness_Scans :
    (let s := { tapIn .rti 0 0 with inputs := asBytes (drScan Params.small 15) };
      s.params.wf = true ∧ s.params.bbOverride = [] ∧ s.bb.connected = true ∧ s.tap.state = .rti ∧
        15 < 2 ^ s.params.dbits) ∧
    (let s := { tapIn .rti 0 0 with inputs := asBytes (irScan Params.small 15) };
      s.params.bbOverride = [] ∧ s.bb.connected = true ∧ s.tap.state = .rti ∧ 15 < 2 ^ s.params.irLen) :=
  ⟨⟨params_small, by decide⟩, by decide⟩

/-- The shift registers of a scan in progress, with the shortest data register and with four bits, and a scan about to
pause. -/
theorem witness_ShiftRegistersAreDelayLines :
    ((tapIn .shDR 6 5).tap.state = .shDR ∧ 1 ≤ (tapIn .shDR 6 5).params.dbits) ∧
      (let s := { tapIn .shDR 6 1 with params := { Params.small with dbits := 1 } };
        s.tap.state = .shDR ∧ 1 ≤ s.params.dbits) ∧
      (tapIn .shIR 9 5).tap.state = .shIR ∧
      ((tapIn .ex1DR 6 5).tap.state = .ex1DR ∧ (tapIn .ex1IR 6 5).tap.state = .ex1IR ∧ [false] ≠ []) := by decide

/-- Five edges with TMS high, from a half-finished DR scan and from Run-Test/Idle. -/
theorem witness_EscapeCommitsAHalfFinishedScan :
    (let s := { tapIn .shDR 6 5 with inputs := asEdges (List.replicate 5 (true, true)) };
      s.inputs = [.clock true true, .clock true true, .clock true true, .clock true true, .clock true true] ∧
        s.bb.connected = true ∧ s.tap.state ∈ [TapState.capDR, .shDR, .ex1DR, .pauDR, .ex2DR]) ∧
    (let s := { tapIn .rti 6 5 with inputs := asEdges (List.replicate 5 (true, false)) };
      s.inputs = [.clock true false, .clock true false, .clock true false, .clock true false, .clock true false] ∧
        s.bb.connected = true ∧ s.tap.state ∉ [TapState.capDR, .shDR, .ex1DR, .pauDR, .ex2DR]) := by decide

/-- The largest register and value of the small instance, with an answer waiting. -/
theorem witness_DebuggerReadsAndWritesARegister :
    (let s := { tapIn .rti 0 0 with
        inputs := asBytes (irScan Params.small (irWord 3 2) ++ drScan Params.small 15) };
      s.params.wf = true ∧ s.params.irOverride = [] ∧ s.params.bbOverride = [] ∧ s.bb.connected = true ∧
        s.tap.state = .rti ∧ 3 < 2 ^ s.params.abits ∧ 15 < 2 ^ s.params.dbits ∧
        s.inputs = asBytes (irScan s.params (irWord 3 2) ++ drScan s.params 15)) ∧
    (let s := { tapIn .rti 0 0 with
        inputs := asBytes (irScan Params.small (irWord 3 1) ++ drScan Params.small 0) };
      s.dm.answers = 10 :: [] ∧ s.inputs = asBytes (irScan s.params (irWord 3 1) ++ drScan s.params 0)) :=
  ⟨⟨params_small, by decide⟩, by decide⟩

theorem witness_DebugModuleCalls :
    (State.on (tapIn .selDR 0 0) (.clock false false)).inputs = .clock false false :: [] ∧
      ∃ t, step (State.on (tapIn .selDR 0 0) (.clock false false)) = .next t := ⟨rfl, goes_on (by decide)⟩

/-- A session and none, for the statements of the bitbang layer. -/
theorem witness_Sessions :
    (tapIn .rti 0 0).bb.connected = true ∧ bare.bb.connected = false ∧
      ∃ t, step (State.on bare (.notify 0 0#64 .load)) = .next t := ⟨rfl, rfl, goes_on (by decide)⟩

theorem witness_BitbangServerIsABareTap :
    (let s := { tapIn .rti 0 0 with inputs := [0x30#8, 0x33#8].map .byte };
      s.bb.connected = true ∧ s.inputs = [0x30#8, 0x33#8].map .byte ∧
        ∀ b ∈ [0x30#8, 0x33#8], (clockPair s.params b).isSome = true) := by decide

/-- The bytes of vector B7, and the two kinds of single step. -/
theorem witness_ResponsesAreAccountedFor :
    (let s := { tapIn .rti 0 0 with inputs := [0x30#8, 0x58#8, 0x31#8, 0x73#8, 0x32#8].map .byte };
      s.bb.connected = true ∧ s.inputs = [0x30#8, 0x58#8, 0x31#8, 0x73#8, 0x32#8].map .byte) ∧
    ((∃ t, step (State.on (tapIn .rti 0 0) (.byte 0x30#8)) = .next t) ∧
      (clockPair Params.small 0x30#8).isSome = true) ∧
    (∃ t, step (State.on (tapIn .rti 0 0) (.byte 0x73#8)) = .next t) ∧ clockPair Params.small 0x73#8 = none :=
  ⟨by decide, ⟨goes_on (by decide), by decide⟩, goes_on (by decide), by decide⟩

/-- Each edge with the word it acts on, at both ends of the register addresses, and a word that no edge acts on. -/
theorem witness_InstructionWords :
    (tapIn .ex1IR 0 0).tapHalf.isSome = true ∧ (tapIn .ex1IR 0 0).params.irOverride = [] ∧
      (tapIn .ex1IR (4 * 3 + 3) 0).tap.state = .ex1IR ∧ (tapIn .ex1IR (4 * 3 + 3) 0).tap.ir = 4 * 3 + 3 ∧
      (tapIn .ex2IR (4 * 0) 0).tap.state = .ex2IR ∧ (tapIn .ex2IR (4 * 0) 0).tap.ir = 4 * 0 ∧
      (tapSel .selDR (4 * 0 + 1) 0).tap.state = .selDR ∧ (tapSel .selDR (4 * 0 + 1) 0).tap.sel = 4 * 0 + 1 ∧
      (tapSel .ex2DR (4 * 3 + 2) 15).tap.state = .ex2DR ∧ (tapSel .ex2DR (4 * 3 + 2) 15).tap.sel = 4 * 3 + 2 ∧
      ∀ tms, instrEdge (tapIn .rti 0 0).tap ≠ some (tms, 4 * 0) := by decide

theorem witness_EntryActions :
    (instrEdge (tapIn .ex2IR 0b0110 0).tap = some (true, 0b0110) ∧
      instrEdge (tapIn .selDR 0 0).tap = some (false, 0b0110) ∧
      instrEdge (tapIn .ex1DR 0 0).tap = some (true, 0b0110)) ∧
      decodeIrWord Params.small 0b0110 = .ok (.dtmWrite 1) ∧ 0b0110 < 2 ^ Params.small.irLen ∧
      (tapIn .ex2IR 0b0110 0).tapHalf.isSome = true := by decide

/-- A running machine, one that is built, and one that ends in a `ConfigError`. -/
theorem witness_BuildingEndsWhenTheRunBegins :
    { tree with running := true }.running = true ∧
      (∃ t, step (State.on bare (.construct .dc ['1', ':', '1', ':', '1'] [])) = .next t) ∧
      step (State.on bare (.construct .dc ['1'] [])) = .fault (.configError .malformedCacheSpec) :=
  ⟨rfl, goes_on (by decide), rfl⟩

/-- A machine of each kind, and a step of the one without a TAP half. -/
theorem witness_WithoutATransportNoTapHalf :
    noTap.params.remote = false ∧ Params.small.remote = true ∧ noTap.tapHalf = none ∧ noTap.bb.connected = false ∧
      State.TapHalfInv (State.on noTap (.notify 0 0#64 .load)) ∧
      ∃ t, step (State.on noTap (.notify 0 0#64 .load)) = .next t :=
  ⟨rfl, rfl, rfl, rfl, by unfold State.TapHalfInv; decide, goes_on (by decide)⟩

theorem witness_CacheAndDebugInputsCommute :
    isCacheInput (.notify 0 0#64 .load) ≠ isCacheInput (.byte 0x31#8) ∧ isBuilding (.notify 0 0#64 .load) = false ∧
      isBuilding (.byte 0x31#8) = false ∧
      ∃ t, run 2 { tree with inputs := [.notify 0 0#64 .load, .byte 0x31#8] } = .next t :=
  ⟨by decide, rfl, rfl, goes_on (by decide)⟩

end Sys2Proof.Tests
end

/-! PROOFS. What one step can do, said once: the next states by the input taken, and what a step needs to keep a
property of the caches. -/

namespace Sys2Proof.Machine

/-! ### The rows that `step` selects -/

/-- The row of an access that the state selects is the operation `access` (40_cache.md R118, 30_encoding.md R108). -/
theorem exec_decodeAccess {s : State} {c : CacheId} {a : Addr} {w : Bool} {row : AccessRow}
    (h : accessRow s c a = some row) : exec (decodeAccess c a w row) s = access c a w s := by
  unfold accessRow at h
  cases hc : s.cache c with
  | none => simp [hc] at h
  | some k =>
    cases hl : k.lookup a with
    | some way =>
      simp only [hc, hl, Option.some.injEq] at h
      subst h
      simp [decodeAccess, exec, execAccessHit, access, accessChain, maxLevels, Cache.touch, wouldHit, hc, hl]
    | none =>
      cases hn : k.next with
      | none =>
        simp only [hc, hl, hn, Option.some.injEq] at h
        subst h
        simp [decodeAccess, exec, execAccessMiss, access, accessChain, maxLevels, Cache.touch, wouldHit, hc, hl, hn]
      | some u =>
        simp only [hc, hl, hn, Option.some.injEq] at h
        subst h
        simp [decodeAccess, exec, execAccessMissForward, access, accessChain, maxLevels, Cache.touch, wouldHit, hc, hl,
          hn]

/-- A bare TAP edge: the operation `clock`, and the `tdo` it returns (41_tap_fsm.md R150). -/
def bareEdge (tms tdi : Bool) (s : State) : State := (clock tms tdi s).withRet (.tdo (clock tms tdi s).tap.tdo)

/-- The `clock` row that the state selects is a bare edge (41_tap_fsm.md R150). -/
theorem exec_selectedClock {s : State} (hs : s.tapHalf.isSome = true) (tms tdi : Bool) :
    exec (decodeClock s.tap.state tms tdi) s = .next (bareEdge tms tdi s) := by
  rw [exec_decodeClock, clockRow_of_state hs rfl]; rfl

/-- The edges that act on an instruction word start in no shift state. -/
theorem instrEdge_no_shift {t : Tap} {tms : Bool} {w : Nat} (h : instrEdge t = some (tms, w)) :
    shiftActionOf t.state = .none := by
  unfold instrEdge at h
  split at h <;> simp_all [shiftActionOf]

/-- The row of the instruction word that the state selects is a bare edge, whatever its `tdi` (30_encoding.md R108;
log 7). -/
theorem exec_selectedIrWord {s : State} (hs : s.tapHalf.isSome = true) {tms : Bool} {w : Nat} {i : Instr}
    (he : instrEdge s.tap = some (tms, w)) (hd : decodeIrWord s.params w = .ok i) (tdi : Bool) :
    exec i s = .next (bareEdge tms tdi s) := by
  rw [exec_decodeIrWord hd, bareEdge, clock_of_no_shift (instrEdge_no_shift he), dtmRow, withTapHalf_of_isSome hs,
    irWord_split]
  unfold instrEdge at he
  split at he <;> cases he
  all_goals simp [*, edgeInto, nextTap, entryActionOf, runEntry, instrDecode]

/-! ### The next states of a step -/

/-- What the input `x` leaves of the state `u` it is executed in, when it leaves a next state: one case for each kind of
input, with the guards it has passed. -/
inductive Leaves (u : State) : Input → State → Prop
  | construct {c : CacheId} {spec label : Text} {sets ways block : Nat} (hr : u.running = false)
      (hp : parseSpec spec = some (sets, ways, block)) (hs : isPow2 sets = true) (hb : isPow2 block = true)
      (hw : 1 ≤ ways) (hc : u.cache c = none) :
      Leaves u (.construct c spec label) ((u.setCache c (Cache.fresh sets ways block label)).withRet (.cache c))
  | attach {lower upper : CacheId} {k k' : Cache} (hr : u.running = false) (hl : u.cache lower = some k)
      (hu : u.cache upper = some k') (hne : upper ≠ lower) (hcyc : chainReaches u maxLevels upper lower = false)
      (hn : k.next = none) (ha : k.accesses = 0) :
      Leaves u (.attach lower upper) ((u.setCache lower { k with next := some upper }).withRet .nothing)
  | register {h : Nat} {c : CacheId} {k : Cache} {cs : List CacheId} (hr : u.running = false) (hne : c ≠ .l2)
      (hts : u.tracers[h]? = some cs) (hc : u.cache c = some k) (hmem : c ∉ cs) :
      Leaves u (.register h c) ((u.setTracers h (cs ++ [c])).withRet .nothing)
  | notify {h : Nat} {a : Addr} {kd : Kind} {t : State} (hn : notify h a kd u = .next t) : Leaves u (.notify h a kd) t
  | access {c : CacheId} {a : Addr} {w : Bool} {t : State} (ha : access c a w u = .next t) : Leaves u (.access c a w) t
  | stats {c : CacheId} {k : Cache} (hc : u.cache c = some k) :
      Leaves u (.stats c) (u.withRet (.stats k.accesses k.hits))
  | clock {tms tdi : Bool} (hb : u.bb.connected = true) (hs : u.tapHalf.isSome = true) :
      Leaves u (.clock tms tdi) (bareEdge tms tdi u)
  | instrEdge {tms : Bool} {w : Nat} (hb : u.bb.connected = true) (hs : u.tapHalf.isSome = true)
      (he : instrEdge u.tap = some (tms, w)) (tdi : Bool) : Leaves u .instrEdge (bareEdge tms tdi u)
  | clockByte {b : Byte} {tms tdi : Bool} (hb : u.bb.connected = true) (hd : bbDecode u.params b = .clock tms tdi) :
      Leaves u (.byte b) (bbClock tms tdi u)
  | sysReset {b : Byte} (hb : u.bb.connected = true) (hd : bbDecode u.params b = .sysReset) :
      Leaves u (.byte b) ((clearLastTdo (dmReset u)).withRet .nothing)
  | tapReset {b : Byte} (hb : u.bb.connected = true) (hd : bbDecode u.params b = .tapReset) :
      Leaves u (.byte b) ((clearLastTdo (resetRegs (u.setTapState .tlr))).withRet .nothing)
  | malformed {b : Byte} (hb : u.bb.connected = true) (hd : bbDecode u.params b = .malformed) :
      Leaves u (.byte b) (u.withRet .nothing)
  | connect (hb : u.bb.connected = false) (hs : u.tapHalf.isSome = true) :
      Leaves u .connect ((u.setSession { connected := true, lastTdo := false }).withRet .nothing)
  | disconnect (hb : u.bb.connected = true) :
      Leaves u .disconnect ((u.setSession { connected := false, lastTdo := false }).withRet .nothing)

theorem execConstruct_leaves {u t : State} {c : CacheId} {spec label : Text}
    (h : execConstruct c spec label u = .next t) : Leaves u (.construct c spec label) t := by
  obtain ⟨hr, h⟩ := beforeRun_eq_next h
  split at h
  · cases h
  · next sets ways block hp =>
    split at h
    · cases h
    · next hpow =>
      split at h
      · cases h
      · next hw =>
        split at h
        · cases h
        · next hc =>
          cases h
          simp only [Bool.or_eq_true, Bool.not_eq_true', not_or, Bool.not_eq_false] at hpow
          exact .construct hr hp hpow.1 hpow.2 (Nat.one_le_iff_ne_zero.2 hw) hc

theorem execAttach_leaves {u t : State} {lower upper : CacheId} (h : execAttach lower upper u = .next t) :
    Leaves u (.attach lower upper) t := by
  obtain ⟨hr, h⟩ := beforeRun_eq_next h
  split at h
  · next k k' hl hu =>
    split at h
    · cases h
    · next hcyc =>
      split at h
      · cases h
      · next hn =>
        split at h
        · cases h
        · next ha =>
          cases h
          rw [not_or, Bool.not_eq_true] at hcyc
          exact .attach hr hl hu hcyc.1 hcyc.2 (not_not.1 hn) (not_not.1 ha)
  · cases h

theorem execRegister_leaves {u t : State} {h : Nat} {c : CacheId} (he : execRegister h c u = .next t) :
    Leaves u (.register h c) t := by
  obtain ⟨hr, he⟩ := beforeRun_eq_next he
  split at he
  · cases he
  · next hne =>
    split at he
    · cases he
    · cases he
    · next cs k hts hc =>
      split at he
      · cases he
      · next hmem => cases he; exact .register hr hne hts hc hmem

theorem execStats_leaves {u t : State} {c : CacheId} (h : execStats c u = .next t) : Leaves u (.stats c) t := by
  unfold execStats at h
  split at h
  · cases h
  · next hc => cases h; exact .stats hc

theorem execConnect_leaves {u t : State} (h : execConnect u = .next t) : Leaves u .connect t := by
  unfold execConnect at h
  split at h
  · cases h
  · next hb =>
    obtain ⟨hs, h⟩ := withTapHalf_eq_next h
    cases h
    exact .connect (Bool.eq_false_of_not_eq_true hb) hs

theorem execDisconnect_leaves {u t : State} (h : execDisconnect u = .next t) : Leaves u .disconnect t := by
  obtain ⟨hb, rfl⟩ := inSession_eq_next h
  exact .disconnect hb

/-- A row of the TAP answers in a machine that has one. -/
theorem isSome_of_exec_decodeClock {s t : State} {st : TapState} {tms tdi : Bool}
    (h : exec (decodeClock st tms tdi) s = .next t) : s.tapHalf.isSome = true := by
  rw [exec_decodeClock] at h
  exact (withTapHalf_eq_next h).1

theorem isSome_of_exec_decodeIrWord {s t : State} {w : Nat} {i : Instr} (hd : decodeIrWord s.params w = .ok i)
    (h : exec i s = .next t) : s.tapHalf.isSome = true := by
  rw [exec_decodeIrWord hd] at h
  exact (withTapHalf_eq_next h).1

/-- What one step with an input pending can do: it leaves what the input leaves (20_memory.md R72). Every invariant of a
step is a case analysis of this. -/
theorem step_leaves {s t : State} {x : Input} {rest : List Input} (hi : s.inputs = x :: rest)
    (h : step s = .next t) : Leaves (s.take x rest) x t := by
  rw [step_eq hi] at h
  cases x with
  | construct c spec label => exact execConstruct_leaves h
  | attach lower upper => exact execAttach_leaves h
  | register hh c =>
    simp only [stepOn] at h
    split at h
    · exact execRegister_leaves h
    · cases h
  | notify hh a kd =>
    simp only [stepOn] at h
    split at h
    · exact .notify h
    · cases h
  | access c a w =>
    simp only [stepOn] at h
    split at h
    · next row hrow => exact .access ((exec_decodeAccess (by simpa [accessRow] using hrow)).symm.trans h)
    · cases h
  | stats c => exact execStats_leaves h
  | clock tms tdi =>
    simp only [stepOn] at h
    split at h
    · next hb =>
      have hs := isSome_of_exec_decodeClock h
      cases (exec_selectedClock hs tms tdi).symm.trans h
      exact .clock hb hs
    · cases h
  | byte b =>
    obtain ⟨hb, rfl⟩ := inSession_eq_next h
    split
    · next hd => exact .clockByte hb hd
    · next hd => exact .sysReset hb hd
    · next hd => exact .tapReset hb hd
    · next hd => exact .malformed hb hd
  | connect => exact execConnect_leaves h
  | disconnect => exact execDisconnect_leaves h
  | instrEdge =>
    simp only [stepOn] at h
    split at h
    · next hb =>
      split at h
      · cases h
      · next tms w he =>
        split at h
        · next i hd =>
          have hs := isSome_of_exec_decodeIrWord (s := s.take .instrEdge rest) hd h
          cases (exec_selectedIrWord (s := s.take .instrEdge rest) hs he hd false).symm.trans h
          exact .instrEdge (u := s.take .instrEdge rest) hb hs he false
        · cases h
    · cases h

end Sys2Proof.Machine

/-! PROOFS. What every step keeps of the cache half: the invariants of the caches, the chains, the tracer lists. -/

namespace Sys2Proof.Machine

/-! ### Steps and the cache half -/

/-- Two states alike in all that the invariants of the cache half speak of. -/
def sameBuilt (s t : State) : Prop :=
  t.params = s.params ∧ t.ic = s.ic ∧ t.dc = s.dc ∧ t.l2 = s.l2 ∧ t.tracers = s.tracers

theorem sameBuilt.cache {s t : State} (h : sameBuilt s t) (c : CacheId) : t.cache c = s.cache c := by
  obtain ⟨-, hic, hdc, hl2, -⟩ := h
  cases c
  · exact hic
  · exact hdc
  · exact hl2

theorem sameBuilt_withRet (s : State) (r : Returned) : sameBuilt s (s.withRet r) := by simp [sameBuilt]

theorem sameBuilt_take (s : State) (x : Input) (rest : List Input) : sameBuilt s (s.take x rest) := by simp [sameBuilt]

/-- `stats` and the inputs of the debug half leave the cache half alone (00_scope.md R8, 40_cache.md R126). -/
theorem Leaves.sameBuilt {u t : State} {x : Input} (h : Leaves u x t)
    (hx : isCacheInput x = false ∨ ∃ c, x = .stats c) : sameBuilt u t := by
  cases h with
  | construct | attach | register | notify | access => simp [isCacheInput] at hx
  | stats | clock | instrEdge | clockByte | sysReset | tapReset | malformed | connect | disconnect =>
    simp [Machine.sameBuilt, bareEdge, clearLastTdo]

/-- A property of the cache half that the four operations on it keep: a single access, and the building calls with the
guards they have passed. -/
structure KeptByCaches (P : State → Prop) : Prop where
  sameBuilt : ∀ s t, sameBuilt s t → P s → P t
  touch : ∀ s c k a, s.cache c = some k → P s → P (s.setCache c (k.touch a).1)
  construct : ∀ s c sets ways block label, isPow2 sets = true → isPow2 block = true → 1 ≤ ways → s.cache c = none →
    P s → P (s.setCache c (Cache.fresh sets ways block label))
  attach : ∀ s lower upper k, s.cache lower = some k → (s.cache upper).isSome →
    chainReaches s maxLevels upper lower = false → k.next = none → P s →
    P (s.setCache lower { k with next := some upper })
  register : ∀ s h c cs, c ≠ .l2 → s.tracers[h]? = some cs → (s.cache c).isSome → c ∉ cs → P s →
    P (s.setTracers h (cs ++ [c]))

/-- What the operations on the cache half keep, every step keeps. -/
theorem KeptByCaches.step {P : State → Prop} (hP : KeptByCaches P) {s t : State} (h : step s = .next t) (hs : P s) :
    P t := by
  have hret : ∀ s r, P s → P (s.withRet r) := fun s r => hP.sameBuilt _ _ (sameBuilt_withRet s r)
  cases hi : s.inputs with
  | nil => rw [step_nil hi] at h; cases h; exact hs
  | cons x rest =>
    have hu : P (s.take x rest) := hP.sameBuilt _ _ (sameBuilt_take s x rest) hs
    have hl := step_leaves hi h
    generalize s.take x rest = u at hu hl
    cases x with
    | construct c spec label =>
      cases hl with
      | construct hr hp hsets hblock hways hc => exact hret _ _ (hP.construct _ _ _ _ _ _ hsets hblock hways hc hu)
    | attach lower upper =>
      cases hl with
      | attach hr hl hup hne hcyc hn ha => exact hret _ _ (hP.attach _ _ _ _ hl (by simp [hup]) hcyc hn hu)
    | register hh c =>
      cases hl with
      | register hr hne hts hc hmem => exact hret _ _ (hP.register _ _ _ _ hne hts (by simp [hc]) hmem hu)
    | notify hh a kd =>
      cases hl with
      | notify hn => exact notify_induct (fun s c k => hP.touch s c k a) hret hn hu
    | access c a w =>
      cases hl with
      | access ha => exact access_induct (fun s c k => hP.touch s c k a) hret ha hu
    | stats c => exact hP.sameBuilt _ _ (hl.sameBuilt (.inr ⟨c, rfl⟩)) hu
    | clock tms tdi => exact hP.sameBuilt _ _ (hl.sameBuilt (.inl rfl)) hu
    | byte b => exact hP.sameBuilt _ _ (hl.sameBuilt (.inl rfl)) hu
    | connect => exact hP.sameBuilt _ _ (hl.sameBuilt (.inl rfl)) hu
    | disconnect => exact hP.sameBuilt _ _ (hl.sameBuilt (.inl rfl)) hu
    | instrEdge => exact hP.sameBuilt _ _ (hl.sameBuilt (.inl rfl)) hu

/-- No step writes a parameter (10_state.md R49). -/
theorem params_kept (p : Params) : KeptByCaches fun t => t.params = p where
  sameBuilt _ _ ht hs := ht.1.trans hs
  touch t c _ _ _ hs := (State.setCache_params t c _).trans hs
  construct t c _ _ _ _ _ _ _ _ hs := (State.setCache_params t c _).trans hs
  attach t lower _ _ _ _ _ _ hs := (State.setCache_params t lower _).trans hs
  register _ _ _ _ _ _ _ _ hs := hs

theorem step_params {s t : State} (h : step s = .next t) : t.params = s.params := (params_kept s.params).step h rfl

/-! ### The invariants of the caches -/

/-- Writing a cache that has its invariants. -/
theorem State.CachesInv.setCache {s : State} (h : s.CachesInv) (c : CacheId) {k : Cache} (hk : k.Inv) :
    (s.setCache c k).CachesInv := by
  intro d kd hd
  rw [State.setCache_cache] at hd
  split at hd
  · cases hd; exact hk
  · exact h d kd hd

theorem State.CachesInv.congr {s t : State} (h : s.CachesInv) (hst : ∀ c, t.cache c = s.cache c) : t.CachesInv :=
  fun c k hc => h c k (hst c ▸ hc)

theorem cachesInv_kept : KeptByCaches State.CachesInv where
  sameBuilt _ _ hst hs := hs.congr hst.cache
  touch _ c _ a hc hs := hs.setCache c (Cache.touch_inv (hs _ _ hc) a)
  construct _ c _ _ _ label hsets hblock hways _ hs := hs.setCache c (Cache.fresh_inv label hsets hblock hways)
  attach _ lower upper _ hl _ _ _ hs := hs.setCache lower (Cache.next_inv (hs _ _ hl) (some upper))
  register s h c cs _ _ _ _ hs := hs.congr (State.setTracers_cache s h (cs ++ [c]))

/-- Settles O24: every operation on the cache half writes caches that have their invariants. -/
theorem stepKeepsTheCacheInvariants : Obligations.StepKeepsTheCacheInvariants :=
  fun _ _ hs h => cachesInv_kept.step h hs

/-! ### The chains -/

/-- The levels of the miss-handler chain that begins at a cache, in order (10_state.md R24). -/
inductive ChainOf (s : State) : CacheId → List CacheId → Prop
  | last {c : CacheId} {k : Cache} (hc : s.cache c = some k) (hn : k.next = none) : ChainOf s c [c]
  | step {c u : CacheId} {k : Cache} {l : List CacheId} (hc : s.cache c = some k) (hn : k.next = some u)
      (h : ChainOf s u l) : ChainOf s c (c :: l)

theorem chainEnds_iff {s : State} {n : Nat} {c : CacheId} :
    chainEnds s n c = true ↔ ∃ l, ChainOf s c l ∧ l.length ≤ n := by
  constructor
  · intro h
    induction n generalizing c with
    | zero => cases h
    | succ n ih =>
      rw [chainEnds] at h
      cases hc : s.cache c with
      | none => simp [hc] at h
      | some k =>
        cases hn : k.next with
        | none => exact ⟨[c], .last hc hn, by simp⟩
        | some u =>
          simp only [hc, hn] at h
          obtain ⟨l, hl, hlen⟩ := ih h
          exact ⟨c :: l, .step hc hn hl, by simpa using hlen⟩
  · rintro ⟨l, hl, hlen⟩
    induction hl generalizing n with
    | last hc hn =>
      obtain ⟨m, rfl⟩ := Nat.exists_eq_add_of_le' hlen
      simp [chainEnds, hc, hn]
    | step hc hn _ ih =>
      obtain ⟨m, rfl⟩ := Nat.exists_eq_add_of_le' (Nat.le_trans (by simp) hlen : 1 ≤ n)
      simp [chainEnds, hc, hn, ih (n := m) (by simpa using hlen)]

theorem ChainOf.unique {s : State} {c : CacheId} {l l' : List CacheId} (h : ChainOf s c l) (h' : ChainOf s c l') :
    l = l' := by
  induction h generalizing l' with
  | last hc hn => cases h' <;> simp_all
  | step hc hn _ ih =>
    cases h' with
    | last hc' hn' => simp_all
    | step hc' hn' h' =>
      cases hc.symm.trans hc'
      cases hn.symm.trans hn'
      rw [ih h']

/-- Each level of a chain begins a chain of its own, no longer than the whole. -/
theorem ChainOf.of_mem {s : State} {c d : CacheId} {l : List CacheId} (h : ChainOf s c l) (hd : d ∈ l) :
    NextReaches s c d ∧ ∃ l', ChainOf s d l' ∧ l'.length ≤ l.length := by
  induction h with
  | last hc hn =>
    cases List.mem_singleton.1 hd
    exact ⟨.here _, _, .last hc hn, Nat.le_refl _⟩
  | step hc hn h ih =>
    rcases List.mem_cons.1 hd with rfl | hd
    · exact ⟨.here _, _, .step hc hn h, Nat.le_refl _⟩
    · obtain ⟨hr, l', hl', hlen⟩ := ih hd
      exact ⟨.step hc hn hr, l', hl', Nat.le_succ_of_le hlen⟩

/-- No level of a chain that ends comes twice. -/
theorem ChainOf.nodup {s : State} {c : CacheId} {l : List CacheId} (h : ChainOf s c l) : l.Nodup := by
  induction h with
  | last => exact List.nodup_singleton _
  | step hc hn h ih =>
    refine List.nodup_cons.2 ⟨fun hmem => ?_, ih⟩
    obtain ⟨-, l', hl', hlen⟩ := h.of_mem hmem
    cases hl'.unique (.step hc hn h)
    simp at hlen

/-- A chain that ends has at most as many levels as there are caches (10_state.md R21). -/
theorem ChainOf.length_le {s : State} {c : CacheId} {l : List CacheId} (h : ChainOf s c l) : l.length ≤ maxLevels := by
  have hsub : l ⊆ [.ic, .dc, .l2] := fun d _ => by cases d <;> simp
  exact (List.subperm_of_subset h.nodup hsub).length_le

theorem chainEnds_maxLevels_iff {s : State} {c : CacheId} : chainEnds s maxLevels c = true ↔ ∃ l, ChainOf s c l :=
  chainEnds_iff.trans ⟨fun ⟨l, h, _⟩ => ⟨l, h⟩, fun ⟨l, h⟩ => ⟨l, h, h.length_le⟩⟩

/-- A chain is one of another state whose caches are the same along it. -/
theorem ChainOf.congr {s t : State} {c : CacheId} {l : List CacheId} (h : ChainOf s c l)
    (he : ∀ d ∈ l, t.cache d = s.cache d) : ChainOf t c l := by
  induction h with
  | last hc hn => exact .last ((he _ (by simp)).trans hc) hn
  | step hc hn _ ih => exact .step ((he _ (by simp)).trans hc) hn (ih fun d hd => he d (List.mem_cons_of_mem _ hd))

/-- The levels of a chain are constructed. -/
theorem ChainOf.isSome {s : State} {c d : CacheId} {l : List CacheId} (h : ChainOf s c l) (hd : d ∈ l) :
    (s.cache d).isSome := by
  obtain ⟨-, l', hl', -⟩ := h.of_mem hd
  cases hl' <;> simp [*]

/-- Linking the last level of chains to one whose chain does not reach it: every chain still ends (40_cache.md R113). -/
theorem ChainOf.attach {s : State} {lower upper c : CacheId} {k : Cache} {l lu : List CacheId} (hl : ChainOf s c l)
    (hk : s.cache lower = some k) (hn : k.next = none) (hu : ChainOf s upper lu) (hlu : lower ∉ lu) :
    ∃ l', ChainOf (s.setCache lower { k with next := some upper }) c l' := by
  have hu' : ChainOf (s.setCache lower { k with next := some upper }) upper lu :=
    hu.congr fun d hd => State.setCache_cache_ne s (ne_of_mem_of_not_mem hd hlu) _
  induction hl with
  | @last d kd hc hnd =>
    by_cases hd : d = lower
    · subst hd; exact ⟨_, .step (State.setCache_cache_self s _ _) rfl hu'⟩
    · exact ⟨_, .last ((State.setCache_cache_ne s hd _).trans hc) hnd⟩
  | @step d u kd l hc hnd _ ih =>
    have hd : d ≠ lower := by rintro rfl; simp_all
    obtain ⟨l', hl'⟩ := ih
    exact ⟨_, .step ((State.setCache_cache_ne s hd _).trans hc) hnd hl'⟩

theorem chainsInv_iff {s : State} : s.ChainsInv ↔ ∀ c, (s.cache c).isSome → ∃ l, ChainOf s c l := by
  simp only [State.ChainsInv, chainEnds_maxLevels_iff]

theorem State.ChainsInv.congr {s t : State} (h : s.ChainsInv) (hst : ∀ c, t.cache c = s.cache c) : t.ChainsInv := by
  rw [chainsInv_iff] at h ⊢
  intro c hc
  obtain ⟨l, hl⟩ := h c (hst c ▸ hc)
  exact ⟨l, hl.congr fun d _ => hst d⟩

theorem chainsInv_kept : KeptByCaches State.ChainsInv where
  sameBuilt _ _ hst hs := hs.congr hst.cache
  touch s c k a hc hs := by
    intro d hd
    rw [chainEnds_touch hc]
    apply hs d
    rw [State.setCache_cache] at hd
    split at hd
    · next h => rw [h, hc]; rfl
    · exact hd
  construct s c sets ways block label _ _ _ hc hs := by
    rw [chainsInv_iff] at hs ⊢
    intro d hd
    by_cases hdc : d = c
    · subst hdc; exact ⟨_, .last (State.setCache_cache_self s _ _) rfl⟩
    · rw [State.setCache_cache_ne s hdc] at hd
      obtain ⟨l, hl⟩ := hs d hd
      refine ⟨l, hl.congr fun e he => State.setCache_cache_ne s ?_ _⟩
      rintro rfl
      simpa [hc] using hl.isSome he
  attach s lower upper k hl hu hcyc hn hs := by
    have hends := hs upper hu
    rw [chainsInv_iff] at hs ⊢
    obtain ⟨lu, hlu⟩ := hs upper hu
    have hnot : lower ∉ lu := fun hmem => by
      rw [(chainReaches_iff hends).2 (hlu.of_mem hmem).1] at hcyc; cases hcyc
    intro d hd
    have hd' : (s.cache d).isSome := by
      rw [State.setCache_cache] at hd
      split at hd
      · next h => rw [h, hl]; rfl
      · exact hd
    obtain ⟨l, hdl⟩ := hs d hd'
    exact hdl.attach hl hn hlu hnot
  register s h c cs _ _ _ _ hs := hs.congr (State.setTracers_cache s h (cs ++ [c]))

/-! ### The tracer lists -/

theorem isSome_setCache {s : State} {d : CacheId} (c : CacheId) (k : Cache) (h : (s.cache d).isSome) :
    ((s.setCache c k).cache d).isSome := by
  rw [State.setCache_cache]
  split
  · rfl
  · exact h

/-- Writing a cache unregisters no tracer. -/
theorem State.TracersInv.setCache {s : State} (h : s.TracersInv) (c : CacheId) (k : Cache) :
    (s.setCache c k).TracersInv := by
  obtain ⟨hlen, hts⟩ := h
  refine ⟨by simpa using hlen, fun ts hmem => ?_⟩
  obtain ⟨hnd, hall⟩ := hts ts (by simpa using hmem)
  exact ⟨hnd, fun d hd => ⟨(hall d hd).1, isSome_setCache c k (hall d hd).2⟩⟩

theorem State.TracersInv.of_sameBuilt {s t : State} (h : s.TracersInv) (hst : sameBuilt s t) : t.TracersInv := by
  obtain ⟨hlen, hts⟩ := h
  have hc := hst.cache
  obtain ⟨hp, -, -, -, htr⟩ := hst
  exact ⟨by rw [htr, hp, hlen], fun ts hmem => by simpa only [hc] using hts ts (htr ▸ hmem)⟩

/-- Registering a constructed L1 that is not registered yet (40_cache.md R115). -/
theorem State.TracersInv.register {s : State} (hs : s.TracersInv) {h : Nat} {c : CacheId} {cs : List CacheId}
    (hne : c ≠ .l2) (hcs : s.tracers[h]? = some cs) (hc : (s.cache c).isSome) (hmem : c ∉ cs) :
    (s.setTracers h (cs ++ [c])).TracersInv := by
  obtain ⟨hlen, hts⟩ := hs
  refine ⟨by simpa using hlen, fun ts hm => ?_⟩
  rcases List.mem_or_eq_of_mem_set hm with hm | rfl
  · simpa using hts ts hm
  · obtain ⟨hnd, hall⟩ := hts cs (List.mem_of_getElem? hcs)
    refine ⟨List.nodup_append_comm.1 (List.nodup_cons.2 ⟨hmem, hnd⟩), fun d hd => ?_⟩
    rw [State.setTracers_cache]
    rcases List.mem_append.1 hd with hd | hd
    · exact hall d hd
    · cases List.mem_singleton.1 hd; exact ⟨hne, hc⟩

theorem tracersInv_kept : KeptByCaches State.TracersInv where
  sameBuilt _ _ hst hs := hs.of_sameBuilt hst
  touch _ c _ _ _ hs := hs.setCache c _
  construct _ c _ _ _ _ _ _ _ _ hs := hs.setCache c _
  attach _ lower _ _ _ _ _ _ hs := hs.setCache lower _
  register _ _ _ _ hne hcs hc hmem hs := hs.register hne hcs hc hmem

/-- Settles O25: a chain that ends has no level twice, so three levels bound it, and `attach` links chains that do not
meet; the tracer lists are written by `register` alone. -/
theorem stepKeepsChainsAndTracers : Obligations.StepKeepsChainsAndTracers :=
  fun _ _ hc ht h => ⟨chainsInv_kept.step h hc, tracersInv_kept.step h ht⟩

end Sys2Proof.Machine

/-! PROOFS. Nothing takes from a cache, and the accesses of `L2` are the misses of the L1s. -/

namespace Sys2Proof.Machine

/-! ### Instances only grow -/

/-- `k'` is `k` later: of the same geometry and label, with no counter lower and every valid line still valid
(10_state.md R22, R26, R29, R30). -/
def Cache.Grows (k k' : Cache) : Prop :=
  k'.sets = k.sets ∧ k'.ways = k.ways ∧ k'.blockBytes = k.blockBytes ∧ k'.label = k.label ∧
    k.accesses ≤ k'.accesses ∧ k.hits ≤ k'.hits ∧ ∀ i j, (k.line i j).valid = true → (k'.line i j).valid = true

theorem Cache.Grows.refl (k : Cache) : k.Grows k :=
  ⟨rfl, rfl, rfl, rfl, Nat.le_refl _, Nat.le_refl _, fun _ _ h => h⟩

theorem Cache.Grows.trans {k k' k'' : Cache} (h : k.Grows k') (h' : k'.Grows k'') : k.Grows k'' := by
  obtain ⟨hs, hw, hb, hl, ha, hh, hv⟩ := h
  obtain ⟨hs', hw', hb', hl', ha', hh', hv'⟩ := h'
  exact ⟨hs'.trans hs, hw'.trans hw, hb'.trans hb, hl'.trans hl, ha.trans ha', hh.trans hh',
    fun i j h => hv' i j (hv i j h)⟩

/-- One access makes the line of its block valid and no line invalid (40_cache.md R120, R121). -/
theorem Cache.touch_valid {k : Cache} (h : k.Inv) (a : Addr) {i j : Nat} (hv : (k.line i j).valid = true) :
    ((k.touch a).1.line i j).valid = true := by
  rcases k.touch_cases a with ⟨w, hl, ht⟩ | ⟨-, ht⟩
  · obtain ⟨hw, hvw, -⟩ := Cache.lookup_some h hl
    rw [ht, Cache.line_hitAt h hw]
    split
    · exact hvw
    · exact hv
  · rw [ht, Cache.line_install h]
    split
    · rfl
    · exact hv

theorem Cache.grows_touch {k : Cache} (h : k.Inv) (a : Addr) : k.Grows (k.touch a).1 :=
  ⟨by simp, by simp, by simp, by simp, by simp, by simp [Cache.touch_hits], fun _ _ => Cache.touch_valid h a⟩

/-- `t` is `s` later: with its parameters, and every cache of `s` there and only grown. -/
def State.Grows (s t : State) : Prop :=
  t.params = s.params ∧ ∀ c k, s.cache c = some k → ∃ k', t.cache c = some k' ∧ k.Grows k'

theorem State.Grows.refl (s : State) : s.Grows s := ⟨rfl, fun _ k hc => ⟨k, hc, .refl k⟩⟩

theorem State.Grows.of_sameBuilt {s t t' : State} (h : s.Grows t) (ht : sameBuilt t t') : s.Grows t' :=
  ⟨ht.1.trans h.1, fun c k hc => by simpa only [ht.cache c] using h.2 c k hc⟩

theorem State.Grows.setCache {s t : State} (h : s.Grows t) {c : CacheId} {k' : Cache}
    (hk : ∀ k, t.cache c = some k → k.Grows k') : s.Grows (t.setCache c k') := by
  refine ⟨by simpa using h.1, fun d kd hd => ?_⟩
  obtain ⟨k₁, hk₁, hg⟩ := h.2 d kd hd
  by_cases hdc : d = c
  · subst hdc; exact ⟨k', State.setCache_cache_self t _ _, hg.trans (hk k₁ hk₁)⟩
  · exact ⟨k₁, (State.setCache_cache_ne t hdc _).trans hk₁, hg⟩

/-- The invariants go along: they say where the lines of a cache are, and so which one an access writes. -/
theorem grows_kept (s : State) : KeptByCaches fun t => t.CachesInv ∧ s.Grows t where
  sameBuilt := fun _ _ ht ⟨hinv, hgrows⟩ => ⟨hinv.congr ht.cache, hgrows.of_sameBuilt ht⟩
  touch := by
    rintro t c k a hc ⟨hinv, hgrows⟩
    refine ⟨cachesInv_kept.touch t c k a hc hinv, hgrows.setCache fun k₁ hk₁ => ?_⟩
    cases hc.symm.trans hk₁
    exact Cache.grows_touch (hinv c k hc) a
  construct := by
    rintro t c sets ways block label hsets hblock hways hc ⟨hinv, hgrows⟩
    refine ⟨cachesInv_kept.construct t c sets ways block label hsets hblock hways hc hinv,
      hgrows.setCache fun k₁ hk₁ => ?_⟩
    cases hc.symm.trans hk₁
  attach := by
    rintro t lower upper k hl hu hcyc hn ⟨hinv, hgrows⟩
    refine ⟨cachesInv_kept.attach t lower upper k hl hu hcyc hn hinv, hgrows.setCache fun k₁ hk₁ => ?_⟩
    cases hl.symm.trans hk₁
    exact .refl k
  register := by
    rintro t h c cs hne hcs hc hmem ⟨hinv, hgrows⟩
    exact ⟨cachesInv_kept.register t h c cs hne hcs hc hmem hinv, hgrows.1, by simpa using hgrows.2⟩

/-- Settles O28: a single access and each building call only make a cache grow. -/
theorem nothingClearsACache : Obligations.NothingClearsACache :=
  fun s _ hs h => ((grows_kept s).step h ⟨hs, .refl s⟩).2

/-! ### The orchestrator's tree -/

/-- A state of the orchestrator's tree whose `L2` counts the misses of the L1s (10_state.md R32 (vii)). -/
structure State.Tree (s : State) : Prop where
  caches : s.CachesInv
  wired : s.Wired
  counts : s.L2Counts

theorem State.Tree.congr {s t : State} (h : s.Tree) (hst : ∀ c, t.cache c = s.cache c) : t.Tree := by
  have hcaches := h.caches.congr hst
  obtain ⟨-, ⟨hsink, hic, hdc⟩, hcounts⟩ := h
  have eic : t.ic = s.ic := hst .ic
  have edc : t.dc = s.dc := hst .dc
  have el2 : t.l2 = s.l2 := hst .l2
  exact ⟨hcaches, ⟨el2 ▸ hsink, eic ▸ hic, edc ▸ hdc⟩, by rw [State.L2Counts, eic, edc, el2]; exact hcounts⟩

/-- The misses of a cache after an access: one more exactly when it missed (10_state.md R31). -/
theorem Cache.misses_touch {k : Cache} (h : k.Inv) (a : Addr) :
    misses (some (k.touch a).1) = misses (some k) + (!(k.touch a).2).toNat := by
  have hle := h.hitsLe
  simp only [misses, Cache.touch_accesses, Cache.touch_hits]
  cases (k.touch a).2 <;> simp only [Bool.toNat_false, Bool.toNat_true, Bool.not_false, Bool.not_true] <;> omega

/-- Every L1 that exists forwards to `L2` (10_state.md R24). -/
theorem State.Wired.next_l1 {s : State} (h : s.Wired) {c : CacheId} (hc : c ≠ .l2) {k : Cache}
    (hk : s.cache c = some k) : k.next = some .l2 := by
  cases c with
  | ic => exact h.ic k hk
  | dc => exact h.dc k hk
  | l2 => exact absurd rfl hc

/-- Writing a cache with its miss handler kept keeps the tree. -/
theorem State.Wired.setCache {s : State} (h : s.Wired) {c : CacheId} {k k' : Cache} (hk : s.cache c = some k)
    (hn : k'.next = k.next) : (s.setCache c k').Wired := by
  obtain ⟨⟨m, hm, hmn⟩, hic, hdc⟩ := h
  cases c with
  | ic => exact ⟨⟨m, hm, hmn⟩, fun _ h => by cases h; exact hn.trans (hic k hk), hdc⟩
  | dc => exact ⟨⟨m, hm, hmn⟩, hic, fun _ h => by cases h; exact hn.trans (hdc k hk)⟩
  | l2 =>
    cases hm.symm.trans hk
    exact ⟨⟨k', rfl, hn.trans hmn⟩, hic, hdc⟩

/-- In the tree an access to an L1 hits there, or goes on to `L2` and ends there (40_cache.md R120, R122). -/
theorem State.Wired.accessChain_l1 {s t : State} (h : s.Wired) {c : CacheId} (hc : c ≠ .l2) {a : Addr} {w : Bool}
    (ha : accessChain maxLevels c a w s = .next t) : ∃ k m, s.cache c = some k ∧ s.l2 = some m ∧
      t = if (k.touch a).2 then s.setCache c (k.touch a).1
        else (s.setCache c (k.touch a).1).setCache .l2 (m.touch a).1 := by
  obtain ⟨m, hm, hmn⟩ := h.sink
  cases hk : s.cache c with
  | none => simp [accessChain, maxLevels, hk] at ha
  | some k =>
    have hl2 : (s.setCache c (k.touch a).1).cache .l2 = some m :=
      (State.setCache_cache_ne s (Ne.symm hc) _).trans hm
    refine ⟨k, m, rfl, hm, ?_⟩
    rcases k.touch_cases a with ⟨_, _, ht⟩ | ⟨_, ht⟩
    · rw [ht]
      simpa [accessChain, maxLevels, hk, ht, eq_comm] using ha
    · rw [ht] at hl2 ⊢
      simp only [accessChain, maxLevels, hk, ht, h.next_l1 hc hk, hl2, hmn] at ha
      rcases m.touch_cases a with ⟨_, _, htm⟩ | ⟨_, htm⟩ <;> simpa [htm, eq_comm] using ha

/-- Writing an L1 moves the misses of the L1s by its own. -/
theorem misses_setCache_l1 {s : State} {c : CacheId} (hc : c ≠ .l2) {k : Cache} (hk : s.cache c = some k)
    (k' : Cache) : misses (s.setCache c k').ic + misses (s.setCache c k').dc + misses (some k) =
      misses s.ic + misses s.dc + misses (some k') := by
  rw [← hk]
  cases c with
  | ic => simp only [State.setCache, State.cache]; omega
  | dc => simp only [State.setCache, State.cache]; omega
  | l2 => exact absurd rfl hc

/-- An access to an L1 keeps the count: `L2` is accessed exactly when the L1 missed (40_cache.md R122). -/
theorem State.Tree.access {s t : State} (h : s.Tree) {c : CacheId} (hc : c ≠ .l2) {a : Addr} {w : Bool}
    (ha : access c a w s = .next t) : t.Tree := by
  obtain ⟨u, hu, ht⟩ := andThen_eq_next ha
  cases ht
  suffices hut : u.Tree from hut.congr (State.withRet_cache u _)
  obtain ⟨k, m, hk, hm, rfl⟩ := h.wired.accessChain_l1 hc hu
  have hkinv := h.caches c k hk
  have hcount := h.counts m hm
  have hmiss := Cache.misses_touch hkinv a
  have hsum := misses_setCache_l1 hc hk (k.touch a).1
  have hcaches := h.caches.setCache c (Cache.touch_inv hkinv a)
  have hwired := h.wired.setCache hk (Cache.touch_next (a := a))
  have hm' : (s.setCache c (k.touch a).1).cache .l2 = some m := (State.setCache_cache_ne s (Ne.symm hc) _).trans hm
  split
  · next hhit =>
    rw [hhit, Bool.not_true, Bool.toNat_false] at hmiss
    refine ⟨hcaches, hwired, fun m₁ hm₁ => ?_⟩
    cases hm'.symm.trans hm₁
    omega
  · next hhit =>
    rw [Bool.eq_false_of_not_eq_true hhit, Bool.not_false, Bool.toNat_true] at hmiss
    refine ⟨hcaches.setCache .l2 (Cache.touch_inv (h.caches .l2 m hm) a), hwired.setCache hm' Cache.touch_next,
      fun m₁ hm₁ => ?_⟩
    cases hm₁
    rw [Cache.touch_accesses]
    show m.accesses + 1 = misses (s.setCache c (k.touch a).1).ic + misses (s.setCache c (k.touch a).1).dc
    omega

/-- A notification is accesses to the tracers that take its kind, in order: what each of these keeps, it keeps
(40_cache.md R116). -/
theorem notifyAll_accesses_induct {P : State → Prop} {a : Addr} {kd : Kind}
    (hP : ∀ {c w s t}, accepts c kd = some w → access c a w s = .next t → P s → P t)
    {cs : List CacheId} {s t : State} (h : notifyAll a kd cs s = .next t) (hs : P s) : P t := by
  induction cs generalizing s with
  | nil => cases h; exact hs
  | cons c cs ih =>
    rw [notifyAll] at h
    split at h
    · next w hw =>
      obtain ⟨u, hu, ht⟩ := andThen_eq_next h
      exact ih ht (hP hw hu hs)
    · exact ih h hs

/-- `L2` takes no notification (30_encoding.md R88). -/
theorem ne_l2_of_accepts {c : CacheId} {kd : Kind} {w : Bool} (h : accepts c kd = some w) : c ≠ .l2 := by
  rintro rfl
  cases h

theorem State.Tree.notify {s t : State} (h : s.Tree) {hh : Nat} {a : Addr} {kd : Kind}
    (hn : notify hh a kd s = .next t) : t.Tree := by
  unfold Machine.notify at hn
  split at hn
  · cases hn
  · obtain ⟨u, hu, ht⟩ := andThen_eq_next hn
    cases ht
    have hut : u.Tree := notifyAll_accesses_induct (fun hc ha hs => State.Tree.access hs (ne_l2_of_accepts hc) ha) hu h
    exact hut.congr (State.withRet_cache u _)

/-- In the tree `attach` has no step: an L1 has its miss handler, and every cache reaches `L2`, so that it would
close a cycle (40_cache.md R113). -/
theorem State.Wired.not_attach {s t : State} (h : s.Wired) {lower upper : CacheId} :
    ¬ Leaves s (.attach lower upper) t := by
  intro hl
  cases hl with
  | attach hr hl hu hne hcyc hn ha =>
    by_cases hlow : lower = .l2
    · subst hlow
      have hreach : chainReaches s maxLevels upper .l2 = true := by
        simp [chainReaches, maxLevels, hu, h.next_l1 hne hu]
      rw [hreach] at hcyc
      cases hcyc
    · cases hn.symm.trans (h.next_l1 hlow hl)

/-- In the tree `construct` can only add an L1, which has no misses yet (10_state.md R21, 40_cache.md R110). -/
theorem State.Tree.counts_construct {s t : State} (h : s.Tree) {c : CacheId} {spec label : Text}
    (hl : Leaves s (.construct c spec label) t) : t.L2Counts := by
  obtain ⟨m, hm, -⟩ := h.wired.sink
  have hcount := h.counts
  cases hl with
  | construct hr hp hs hb hw hc =>
    cases c with
    | ic =>
      have hic : s.ic = none := hc
      simpa [State.L2Counts, State.setCache, misses, Cache.fresh, hic] using hcount
    | dc =>
      have hdc : s.dc = none := hc
      simpa [State.L2Counts, State.setCache, misses, Cache.fresh, hdc] using hcount
    | l2 => cases hm.symm.trans hc

/-- Every input but a direct access to `L2` and a `construct` keeps the tree and its count. -/
theorem State.Tree.leaves {s t : State} {x : Input} (h : s.Tree) (hx : ∀ a w, x ≠ .access .l2 a w)
    (hc : ∀ c spec label, x ≠ .construct c spec label) (hl : Leaves s x t) : t.Tree := by
  cases x with
  | construct c spec label => exact absurd rfl (hc c spec label)
  | attach lower upper => exact absurd hl h.wired.not_attach
  | register hh c => cases hl; exact h.congr fun d => by simp
  | notify hh a kd => cases hl with | notify hn => exact h.notify hn
  | access c a w => cases hl with | access ha => exact h.access (by rintro rfl; exact hx a w rfl) ha
  | stats c => exact h.congr (hl.sameBuilt (.inr ⟨c, rfl⟩)).cache
  | clock tms tdi => exact h.congr (hl.sameBuilt (.inl rfl)).cache
  | byte b => exact h.congr (hl.sameBuilt (.inl rfl)).cache
  | connect => exact h.congr (hl.sameBuilt (.inl rfl)).cache
  | disconnect => exact h.congr (hl.sameBuilt (.inl rfl)).cache
  | instrEdge => exact h.congr (hl.sameBuilt (.inl rfl)).cache

/-- Settles O27: in the tree `L2` is accessed exactly when an L1 misses, `attach` has no step, and a new L1 has no
misses. -/
theorem l2CountsTheMissesOfTheL1s : Obligations.L2CountsTheMissesOfTheL1s := by
  intro s t x rest hcaches hwired hcounts hi hx h
  have htree : (s.take x rest).Tree := State.Tree.congr ⟨hcaches, hwired, hcounts⟩ (State.take_cache s x rest)
  have hl := step_leaves hi h
  by_cases hc : ∃ c spec label, x = .construct c spec label
  · obtain ⟨c, spec, label, rfl⟩ := hc
    exact ⟨htree.counts_construct hl, fun hne => absurd rfl (hne c spec label)⟩
  · have ht := htree.leaves hx (fun c spec label hxc => hc ⟨c, spec, label, hxc⟩) hl
    exact ⟨ht.counts, fun _ => ht.wired⟩

end Sys2Proof.Machine

/-! PROOFS. The widths of the TAP registers and who writes them; the state after reset. -/

namespace Sys2Proof.Machine

/-! ### The parts of an edge -/

/-- The shift writes `tdo` only on an edge that starts in a shift state (41_tap_fsm.md R150). -/
theorem runShift_tdo {s : State} {st : TapState} (tdi : Bool)
    (h : (runShift (shiftActionOf st) tdi s).tap.tdo ≠ s.tap.tdo) : st = .shDR ∨ st = .shIR := by
  cases st <;> simp_all [shiftActionOf, runShift]

@[simp] theorem captureDR_sel (s : State) (acc : DtmAccess) : (captureDR acc s).tap.sel = s.tap.sel := by
  cases acc <;> rfl

@[simp] theorem captureDR_tdo (s : State) (acc : DtmAccess) : (captureDR acc s).tap.tdo = s.tap.tdo := by
  cases acc <;> rfl

/-- No entry action writes `tdo` (42_dtm_registers.md R177, R183). -/
@[simp] theorem runEntry_tdo (s : State) (act : EntryAction) : (runEntry act s).tap.tdo = s.tap.tdo := by
  cases act <;> simp [runEntry, resetRegs]

/-- An edge writes `tdo` only where it starts in a shift state (10_state.md R40). -/
theorem clock_tdo {s : State} {tms tdi : Bool} (h : (clock tms tdi s).tap.tdo ≠ s.tap.tdo) :
    s.tap.state = .shDR ∨ s.tap.state = .shIR :=
  runShift_tdo tdi (by simpa [clock] using h)

/-- The entry actions that write the selected instruction (10_state.md R39). -/
theorem runEntry_sel {s : State} {st : TapState} (h : (runEntry (entryActionOf st) s).tap.sel ≠ s.tap.sel) :
    st = .updIR ∧ (runEntry (entryActionOf st) s).tap.sel = s.tap.ir ∨
      st = .tlr ∧ (runEntry (entryActionOf st) s).tap.sel = s.params.idleIr := by
  cases st <;> simp_all [entryActionOf, runEntry, resetRegs]

/-- No edge into Update-IR shifts. -/
theorem no_shift_of_nextTap_updIR {st : TapState} {tms : Bool} (h : nextTap st tms = .updIR) :
    shiftActionOf st = .none := by
  cases st <;> cases tms <;> simp_all [nextTap, shiftActionOf]

/-- An edge writes the selected instruction in Update-IR and in Test-Logic-Reset only (10_state.md R39). -/
theorem clock_sel {s : State} {tms tdi : Bool} (h : (clock tms tdi s).tap.sel ≠ s.tap.sel) :
    (clock tms tdi s).tap.state = .updIR ∧ (clock tms tdi s).tap.sel = s.tap.ir ∨
      (clock tms tdi s).tap.state = .tlr ∧ (clock tms tdi s).tap.sel = s.params.idleIr := by
  have hent := runEntry_sel (st := nextTap s.tap.state tms)
    (s := (runShift (shiftActionOf s.tap.state) tdi s).setTapState (nextTap s.tap.state tms)) (by simpa [clock] using h)
  rw [clock_state]
  rcases hent with ⟨hst, hsel⟩ | ⟨hst, hsel⟩
  · exact .inl ⟨hst, hsel.trans (by simp [no_shift_of_nextTap_updIR hst, runShift])⟩
  · exact .inr ⟨hst, hsel.trans (by simp)⟩

/-! ### Widths -/

/-- Registers of another state with the same parameters. -/
theorem State.WidthsInv.congr {s t : State} (h : s.WidthsInv) (hp : t.params = s.params) (ht : t.tap = s.tap) :
    t.WidthsInv := by
  rw [State.WidthsInv, hp, ht]; exact h

/-- The legal idle values fit (10_state.md R48). -/
theorem idle_lt_of_wf {p : Params} (h : p.wf = true) : p.idleIr < 2 ^ p.irLen ∧ p.idleDr < 2 ^ p.dbits := by
  simp only [Params.wf, Bool.and_eq_true, decide_eq_true_eq] at h
  obtain ⟨⟨⟨⟨⟨⟨⟨⟨-, hir⟩, hdr⟩, -⟩, -⟩, -⟩, -⟩, -⟩, -⟩ := h
  exact ⟨hir, hdr⟩

theorem runShift_widths {s : State} (h : s.WidthsInv) (act : ShiftAction) (tdi : Bool) :
    (runShift act tdi s).WidthsInv := by
  obtain ⟨hir, hsel, hdr⟩ := h
  cases act with
  | none => exact ⟨hir, hsel, hdr⟩
  | dr => exact ⟨hir, hsel, shiftIn_lt _ _ _⟩
  | ir => exact ⟨shiftIn_lt _ _ _, hsel, hdr⟩

theorem setTapState_widths {s : State} (h : s.WidthsInv) (st : TapState) : (s.setTapState st).WidthsInv := h

theorem resetRegs_widths {s : State} (hp : s.params.wf = true) : (resetRegs s).WidthsInv := by
  obtain ⟨hir, hdr⟩ := idle_lt_of_wf hp
  exact ⟨hir, hir, hdr⟩

theorem captureDR_widths {s : State} (hp : s.params.wf = true) (h : s.WidthsInv) (acc : DtmAccess) :
    (captureDR acc s).WidthsInv := by
  obtain ⟨hir, hsel, -⟩ := h
  cases acc with
  | idle => exact ⟨hir, hsel, (idle_lt_of_wf hp).2⟩
  | read a => exact ⟨hir, hsel, dmRead_lt s a⟩
  | write a => exact ⟨hir, hsel, dmRead_lt s a⟩

theorem runEntry_widths {s : State} (hp : s.params.wf = true) (h : s.WidthsInv) (act : EntryAction) :
    (runEntry act s).WidthsInv := by
  obtain ⟨hir, hsel, hdr⟩ := id h
  cases act with
  | none => exact h
  | reset => exact resetRegs_widths hp
  | captureDR => exact captureDR_widths hp h _
  | captureIR => exact ⟨hsel, hsel, hdr⟩
  | latchIR => exact ⟨hir, hir, hdr⟩
  | updateDR => exact h.congr (updateDR_params s _) (updateDR_tap s _)

/-- An edge keeps the registers within their widths (42_dtm_registers.md R175 to R183). -/
theorem clock_widths {s : State} (hp : s.params.wf = true) (h : s.WidthsInv) (tms tdi : Bool) :
    (clock tms tdi s).WidthsInv :=
  runEntry_widths (by simpa using hp) (setTapState_widths (runShift_widths h _ tdi) _) _

/-! ### Steps and the TAP -/

/-- What a step does to the TAP: the edge its input causes, the TAP reset command, or nothing (10_state.md R20). -/
inductive TapStep (s : State) (x : Input) (t : State) : Prop
  | edge {tms tdi : Bool} (he : edgeTms s x = some tms) (ht : t.tap = (clock tms tdi s).tap)
  | reset {b : Byte} (hx : x = .byte b) (hd : bbDecode s.params b = .tapReset)
      (ht : t.tap = (resetRegs (s.setTapState .tlr)).tap)
  | held (he : edgeTms s x = none) (ht : t.tapHalf = s.tapHalf)

theorem clock_take_tap (s : State) (x : Input) (rest : List Input) (tms tdi : Bool) :
    (clock tms tdi (s.take x rest)).tap = (clock tms tdi s).tap :=
  (clock_same (s := s) (t := s.take x rest) ⟨rfl, rfl, rfl⟩ tms tdi).2.1

theorem Leaves.tapStep {s t : State} {x : Input} {rest : List Input} (h : Leaves (s.take x rest) x t) :
    TapStep s x t := by
  cases h with
  | construct => exact .held rfl (by simp)
  | attach => exact .held rfl (by simp)
  | register => exact .held rfl (by simp)
  | notify hn => exact .held rfl (notify_frame hn).1.2.1
  | access ha => exact .held rfl (access_frame ha).1.2.1
  | stats => exact .held rfl (by simp)
  | @clock tms tdi => exact .edge (tdi := tdi) rfl (clock_take_tap ..)
  | @instrEdge tms w _ _ he tdi =>
    exact .edge (tms := tms) (tdi := tdi) (by simpa [edgeTms] using ⟨w, he⟩) (clock_take_tap ..)
  | @clockByte b tms tdi _ hd =>
    exact .edge (tms := tms) (tdi := tdi) (by rw [State.take_params] at hd; simp [edgeTms, hd])
      (clock_take_tap s _ rest tms tdi)
  | sysReset _ hd => exact .held (by rw [State.take_params] at hd; simp [edgeTms, hd]) rfl
  | tapReset _ hd => exact .reset rfl hd rfl
  | malformed _ hd => exact .held (by rw [State.take_params] at hd; simp [edgeTms, hd]) rfl
  | connect => exact .held rfl rfl
  | disconnect => exact .held rfl rfl

/-- Every step keeps the registers within their widths (10_state.md R37 to R39). -/
theorem step_widths {s t : State} (hp : s.params.wf = true) (hs : s.WidthsInv) (h : step s = .next t) :
    t.WidthsInv := by
  have htp := step_params h
  cases hi : s.inputs with
  | nil => rw [step_nil hi] at h; cases h; exact hs
  | cons x rest =>
    cases (step_leaves hi h).tapStep with
    | @edge tms tdi he ht => exact (clock_widths hp hs tms tdi).congr (by simpa using htp) ht
    | reset hx hd ht => exact (resetRegs_widths (s := s.setTapState .tlr) hp).congr (by simpa using htp) ht
    | held he ht => exact hs.congr htp (State.tap_congr htp ht)

/-- Settles O42: a step does to the TAP registers what an edge does, what the TAP reset command does, or nothing. -/
theorem stepKeepsTheRegisterWidths : Obligations.StepKeepsTheRegisterWidths := by
  refine ⟨fun s t hp hs h => step_widths hp hs h, fun s t x rest hi h => ?_⟩
  have htp := step_params h
  cases (step_leaves hi h).tapStep with
  | @edge tms tdi he ht =>
    refine ⟨fun tms' he' => ?_, fun hnone => ?_, fun hsel => ?_, fun htdo => ?_⟩
    · cases he.symm.trans he'
      exact ⟨tdi, ht⟩
    · cases he.symm.trans hnone
    · rw [ht] at hsel ⊢
      exact clock_sel hsel
    · rw [ht] at htdo
      exact ⟨⟨tms, he⟩, clock_tdo htdo⟩
  | @reset b hx hd ht =>
    subst hx
    have he : edgeTms s (.byte b) = none := by simp [edgeTms, hd]
    refine ⟨fun tms he' => ?_, fun _ hb => absurd hd (hb b rfl), fun _ => .inr ?_, fun htdo => ?_⟩
    · cases he.symm.trans he'
    · rw [ht]; exact ⟨rfl, rfl⟩
    · rw [ht] at htdo; exact absurd rfl htdo
  | held he ht =>
    have htap : t.tap = s.tap := State.tap_congr htp ht
    refine ⟨fun tms he' => ?_, fun _ _ => ht, fun hsel => ?_, fun htdo => ?_⟩
    · cases he.symm.trans he'
    · exact absurd (by rw [htap]) hsel
    · exact absurd (by rw [htap]) htdo

/-! ### Reset -/

theorem reset_cache (c : CacheId) : State.reset.cache c = none := by cases c <;> rfl

/-- Settles O1: every field of the reset state is the value its construction names. -/
theorem resetIsTheUnbuiltBlock : Obligations.ResetIsTheUnbuiltBlock := by
  unfold Obligations.ResetIsTheUnbuiltBlock
  exact ⟨reset_cache, by decide⟩

/-- Settles O2: with no cache built the clauses on caches say nothing; the idle values fit their registers. -/
theorem resetMeetsTheInvariant : Obligations.ResetMeetsTheInvariant where
  params := by decide
  caches c k hc := by rw [reset_cache] at hc; cases hc
  chains c hc := by rw [reset_cache] at hc; cases hc
  tracers := by unfold State.TracersInv; decide
  tapHalf := by unfold State.TapHalfInv; decide
  widths := by unfold State.WidthsInv; decide

end Sys2Proof.Machine

/-! PROOFS. The step by its input, and the two halves: an input reads and writes its own half only, so that an input of
the cache half and one of the debug half commute. -/

namespace Sys2Proof.Machine

/-! ### The step -/

/-- Only a TAP edge asks for a client (43_remote_bitbang.md R211; log 27). -/
theorem admits_eq_false_iff {s : State} {x : Input} : s.admits x = false ↔
    s.bb.connected = false ∧ ((∃ tms tdi, x = .clock tms tdi) ∨ x = .instrEdge) := by
  cases x <;> simp [State.admits]

/-- Settles O3: the outcomes of a step by what is read from its input, and the two inputs that ask for a client. -/
theorem stepRunsTheDecodedInstruction : Obligations.StepRunsTheDecodedInstruction :=
  ⟨fun _ _ _ _ => step_ok, fun _ _ _ _ => step_illFormed, fun _ _ _ _ => step_reject, fun _ _ _ => step_notAdmitted,
    fun _ _ => admits_eq_false_iff, fun _ => step_nil⟩

/-! ### Outcomes that go alike -/

/-- Where `o` leaves a next state, `o'` leaves one that is `R` to it. -/
def Follows (R : State → State → Prop) (o o' : Result) : Prop := ∀ t, o = .next t → ∃ t', o' = .next t' ∧ R t t'

theorem Follows.next {R : State → State → Prop} {t t' : State} (h : R t t') : Follows R (.next t) (.next t') := by
  rintro _ ⟨⟩
  exact ⟨t', rfl, h⟩

theorem Follows.fault {R : State → State → Prop} {r : Fault} {o' : Result} : Follows R (.fault r) o' := by
  intro t h
  cases h

theorem Follows.refused {R : State → State → Prop} {r : Refusal} {o' : Result} : Follows R (.refused r) o' := by
  intro t h
  cases h

theorem Follows.andThen {R Q : State → State → Prop} {o o' : Result} {f f' : State → Result} (h : Follows R o o')
    (hf : ∀ t t', R t t' → Follows Q (f t) (f' t')) : Follows Q (andThen o f) (andThen o' f') := by
  intro u hu
  obtain ⟨t, ht, hu⟩ := andThen_eq_next hu
  obtain ⟨t', rfl, hR⟩ := h t ht
  exact hf t t' hR u hu

/-! ### The cache half -/

theorem sameBuilt.setCache {s s' : State} (h : sameBuilt s s') (c : CacheId) (k : Cache) :
    sameBuilt (s.setCache c k) (s'.setCache c k) := by
  obtain ⟨hp, hic, hdc, hl2, htr⟩ := h
  cases c <;> simp [sameBuilt, State.setCache, *]

/-- An access looks at the cache half alone, level by level (40_cache.md R118 to R122). -/
theorem accessChain_follows {fuel : Nat} {c : CacheId} {a : Addr} {w : Bool} {s s' : State} (h : sameBuilt s s') :
    Follows sameBuilt (accessChain fuel c a w s) (accessChain fuel c a w s') := by
  induction fuel generalizing c s s' with
  | zero => exact .fault
  | succ fuel ih =>
    rw [accessChain, accessChain, h.cache c]
    cases s.cache c with
    | none => exact .refused
    | some k =>
      simp only
      rcases k.touch a with ⟨k', _ | _⟩
      · cases k.next with
        | none => exact .next (h.setCache c k')
        | some u => exact ih (h.setCache c k')
      · exact .next (h.setCache c k')

theorem access_follows {c : CacheId} {a : Addr} {w : Bool} {s s' : State} (h : sameBuilt s s') :
    Follows sameBuilt (access c a w s) (access c a w s') :=
  (accessChain_follows h).andThen fun _ _ ht => .next ht

theorem notifyAll_follows {a : Addr} {kd : Kind} {cs : List CacheId} {s s' : State} (h : sameBuilt s s') :
    Follows sameBuilt (notifyAll a kd cs s) (notifyAll a kd cs s') := by
  induction cs generalizing s s' with
  | nil => exact .next h
  | cons c cs ih =>
    rw [notifyAll, notifyAll]
    cases accepts c kd with
    | none => exact ih h
    | some w => exact (access_follows h).andThen fun _ _ ht => ih ht

theorem notify_follows {hh : Nat} {a : Addr} {kd : Kind} {s s' : State} (h : sameBuilt s s') :
    Follows sameBuilt (notify hh a kd s) (notify hh a kd s') := by
  obtain ⟨-, -, -, -, htr⟩ := id h
  rw [notify, notify, htr]
  cases s.tracers[hh]? with
  | none => exact .refused
  | some cs => exact (notifyAll_follows h).andThen fun _ _ ht => .next ht

theorem execStats_follows {c : CacheId} {s s' : State} (h : sameBuilt s s') :
    Follows sameBuilt (execStats c s) (execStats c s') := by
  rw [execStats, execStats, h.cache c]
  cases s.cache c with
  | none => exact .refused
  | some k => exact .next h

/-- An input of the cache half looks at the cache half alone (00_scope.md R8). -/
theorem stepOn_follows_built {s s' : State} (h : sameBuilt s s') (rest rest' : List Input) {x : Input}
    (hx : isCacheInput x = true) (hb : isBuilding x = false) :
    Follows sameBuilt (stepOn s rest x) (stepOn s' rest' x) := by
  have hu : sameBuilt (s.take x rest) (s'.take x rest') := h
  cases x with
  | construct | attach | register => cases hb
  | clock | byte | connect | disconnect | instrEdge => cases hx
  | notify hh a kd =>
    rw [stepOn, stepOn, h.1]
    split
    · exact notify_follows hu
    · exact .refused
  | access c a w =>
    have hrow : accessRow s' c a = accessRow s c a := by rw [accessRow, accessRow, h.cache c]
    rw [stepOn, stepOn, hrow]
    cases hr : accessRow s c a with
    | none => exact .refused
    | some row =>
      have hru : accessRow (s.take (.access c a w) rest) c a = some row := by simpa [accessRow] using hr
      have hru' : accessRow (s'.take (.access c a w) rest') c a = some row := by
        simpa [accessRow] using hrow.trans hr
      simp only [exec_decodeAccess hru, exec_decodeAccess hru']
      exact access_follows hu
  | stats c => exact execStats_follows hu

/-! ### The debug half -/

/-- Two states alike in all of the debug half: TAP, session, debug port, bytes sent. -/
structure SameSerial (s t : State) : Prop where
  params : t.params = s.params
  tapHalf : t.tapHalf = s.tapHalf
  bb : t.bb = s.bb
  dm : t.dm = s.dm
  sent : t.sent = s.sent

theorem SameSerial.tap {s s' : State} (h : SameSerial s s') : s'.tap = s.tap := State.tap_congr h.params h.tapHalf

theorem State.tapHalf_of_isSome {s : State} (h : s.tapHalf.isSome = true) : s.tapHalf = some s.tap := by
  obtain ⟨t, ht⟩ := Option.isSome_iff_exists.1 h
  rw [ht, State.tap_of_some ht]

/-- An edge looks at the debug half alone (41_tap_fsm.md R150). -/
theorem clock_sameSerial {s s' : State} (h : SameSerial s s') (tms tdi : Bool) :
    SameSerial (clock tms tdi s) (clock tms tdi s') := by
  obtain ⟨hp, htap, hdm⟩ := clock_same ⟨h.params, h.tap, h.dm⟩ tms tdi
  refine ⟨hp, ?_, by simp [h.bb], hdm, by simp [h.sent]⟩
  rw [State.tapHalf_of_isSome (clock_isSome s tms tdi), State.tapHalf_of_isSome (clock_isSome s' tms tdi), htap]

theorem bbClock_sameSerial {s s' : State} (h : SameSerial s s') (tms tdi : Bool) :
    SameSerial (bbClock tms tdi s) (bbClock tms tdi s') := by
  have hc := clock_sameSerial h tms tdi
  refine ⟨hc.params, hc.tapHalf, ?_, hc.dm, ?_⟩
  · simp [bbClock, h.bb, hc.tap]
  · rw [bbClock_sent, bbClock_sent, hc.tap, h.params, h.sent]

theorem inSession_follows {s s' t t' : State} (hbb : s'.bb = s.bb) (ht : SameSerial t t') :
    Follows SameSerial (inSession s t) (inSession s' t') := by
  rw [inSession, inSession, hbb]
  split
  · exact .next ht
  · exact .refused

theorem withTapHalf_follows {s s' : State} {o o' : Result} (hh : s'.tapHalf = s.tapHalf)
    (ho : Follows SameSerial o o') : Follows SameSerial (withTapHalf s o) (withTapHalf s' o') := by
  rw [withTapHalf, withTapHalf, hh]
  split
  · exact ho
  · exact .refused

theorem execConnect_follows {s s' : State} (h : SameSerial s s') :
    Follows SameSerial (execConnect s) (execConnect s') := by
  rw [execConnect, execConnect, h.bb]
  split
  · exact .refused
  · exact withTapHalf_follows h.tapHalf <| .next { h with bb := rfl }

theorem bareEdge_sameSerial {s s' : State} (h : SameSerial s s') (tms tdi : Bool) :
    SameSerial (bareEdge tms tdi s) (bareEdge tms tdi s') := { clock_sameSerial h tms tdi with }

theorem sysReset_sameSerial {s s' : State} (h : SameSerial s s') :
    SameSerial ((clearLastTdo (dmReset s)).withRet .nothing) ((clearLastTdo (dmReset s')).withRet .nothing) := by
  constructor <;> simp [clearLastTdo, dmReset, h.params, h.tapHalf, h.bb, h.dm, h.sent]

theorem tapReset_sameSerial {s s' : State} (h : SameSerial s s') :
    SameSerial ((clearLastTdo (resetRegs (s.setTapState .tlr))).withRet .nothing)
      ((clearLastTdo (resetRegs (s'.setTapState .tlr))).withRet .nothing) := by
  constructor <;> simp [clearLastTdo, resetRegs, h.params, h.tap, h.bb, h.dm, h.sent]

/-- The row of an edge that the state selects looks at the debug half alone. -/
theorem exec_selectedClock_follows {s s' : State} (h : SameSerial s s') (tms tdi : Bool) :
    Follows SameSerial (exec (decodeClock s.tap.state tms tdi) s) (exec (decodeClock s'.tap.state tms tdi) s') := by
  intro t ht
  have hs := isSome_of_exec_decodeClock ht
  rw [exec_selectedClock hs] at ht
  rw [exec_selectedClock (h.tapHalf ▸ hs)]
  exact Follows.next (bareEdge_sameSerial h tms tdi) t ht

/-- So does the row of an instruction word that the state selects. -/
theorem exec_selectedIrWord_follows {s s' : State} (h : SameSerial s s') {tms : Bool} {w : Nat} {i : Instr}
    (he : instrEdge s.tap = some (tms, w)) (hd : decodeIrWord s.params w = .ok i) :
    Follows SameSerial (exec i s) (exec i s') := by
  intro t ht
  have hs := isSome_of_exec_decodeIrWord hd ht
  rw [exec_selectedIrWord hs he hd false] at ht
  rw [exec_selectedIrWord (h.tapHalf ▸ hs) (h.tap ▸ he) (h.params ▸ hd) false]
  exact Follows.next (bareEdge_sameSerial h tms false) t ht

/-- An input of the debug half looks at the debug half alone (00_scope.md R8). -/
theorem stepOn_follows_serial {s s' : State} (h : SameSerial s s') (rest rest' : List Input) {x : Input}
    (hx : isCacheInput x = false) : Follows SameSerial (stepOn s rest x) (stepOn s' rest' x) := by
  have hu : SameSerial (s.take x rest) (s'.take x rest') := { h with }
  cases x with
  | construct | attach | register | notify | access | stats => cases hx
  | clock tms tdi =>
    rw [stepOn, stepOn, h.bb]
    split
    · exact exec_selectedClock_follows hu tms tdi
    · exact .refused
  | byte b =>
    rw [stepOn, stepOn, h.params]
    refine inSession_follows h.bb ?_
    cases bbDecode s.params b with
    | clock tms tdi => exact bbClock_sameSerial hu tms tdi
    | sysReset => exact sysReset_sameSerial hu
    | tapReset => exact tapReset_sameSerial hu
    | malformed => exact { hu with }
  | connect => exact execConnect_follows hu
  | disconnect => exact inSession_follows h.bb { hu with bb := rfl }
  | instrEdge =>
    rw [stepOn, stepOn, h.bb, h.tap, h.params]
    split
    · cases he : instrEdge s.tap with
      | none => exact .refused
      | some e =>
        cases hd : decodeIrWord s.params e.2 with
        | ok i => simpa only [hd] using exec_selectedIrWord_follows hu he hd
        | reject r => simpa only [hd] using .refused
    · exact .refused

/-! ### Either half -/

/-- Two states alike in all of the half that an input belongs to: the cache half where `isCacheInput` says so. -/
def sameHalf : Bool → State → State → Prop
  | true => sameBuilt
  | false => SameSerial

theorem sameHalf.symm {b : Bool} {s t : State} (h : sameHalf b s t) : sameHalf b t s := by
  cases b <;>
  · obtain ⟨h₁, h₂, h₃, h₄, h₅⟩ := h
    exact ⟨h₁.symm, h₂.symm, h₃.symm, h₄.symm, h₅.symm⟩

theorem sameHalf.trans {b : Bool} {s t u : State} (h : sameHalf b s t) (h' : sameHalf b t u) : sameHalf b s u := by
  cases b <;>
  · obtain ⟨h₁, h₂, h₃, h₄, h₅⟩ := h
    obtain ⟨h₁', h₂', h₃', h₄', h₅'⟩ := h'
    exact ⟨h₁'.trans h₁, h₂'.trans h₂, h₃'.trans h₃, h₄'.trans h₄, h₅'.trans h₅⟩

theorem sameHalf_withInputs (b : Bool) (s : State) (xs : List Input) : sameHalf b s (s.withInputs xs) := by
  cases b <;> exact ⟨rfl, rfl, rfl, rfl, rfl⟩

/-- Two states alike in both halves, with the same inputs and in the same phase, differ in the returned value at most
(log 13). -/
theorem withRet_eq_of_sameHalf {b : Bool} {s t : State} (h : sameHalf b s t) (h' : sameHalf (!b) s t)
    (hi : t.inputs = s.inputs) (hr : t.running = s.running) (r : Returned) : t.withRet r = s.withRet r := by
  cases b <;>
  · obtain ⟨hp, h₁, h₂, h₃, h₄⟩ := h
    obtain ⟨-, h₁', h₂', h₃', h₄'⟩ := h'
    cases s
    cases t
    simp_all [State.withRet]

/-- An input of the run looks at its own half alone (20_memory.md R74). -/
theorem step_follows {s s' : State} {x : Input} {rest rest' : List Input} (hi : s.inputs = x :: rest)
    (hi' : s'.inputs = x :: rest') (hb : isBuilding x = false) (h : sameHalf (isCacheInput x) s s') :
    Follows (sameHalf (isCacheInput x)) (step s) (step s') := by
  rw [step_eq hi, step_eq hi']
  cases hx : isCacheInput x with
  | true => rw [hx] at h; exact stepOn_follows_built h rest rest' hx hb
  | false => rw [hx] at h; exact stepOn_follows_serial h rest rest' hx

/-- An input of the cache half leaves all of the debug half alone (20_memory.md R74). -/
theorem Leaves.sameDebugHalf {u t : State} {x : Input} (hx : isCacheInput x = true) (hb : isBuilding x = false)
    (h : Leaves u x t) : sameDebugHalf u t := by
  cases h with
  | construct | attach | register => cases hb
  | notify hn => exact (notify_frame hn).1
  | access ha => exact (access_frame ha).1
  | stats => exact sameDebugHalf_refl u
  | clock | instrEdge | clockByte | sysReset | tapReset | malformed | connect | disconnect => cases hx

/-- An input of the debug half leaves all of the cache half alone (20_memory.md R74). -/
theorem Leaves.sameCacheHalf {u t : State} {x : Input} (hx : isCacheInput x = false) (h : Leaves u x t) :
    sameCacheHalf u t := by
  cases h with
  | construct | attach | register | notify | access | stats => cases hx
  | clock | instrEdge | clockByte | sysReset | tapReset | malformed | connect | disconnect =>
    simp [Machine.sameCacheHalf, bareEdge, clearLastTdo]

/-- An input of the run leaves the other half alone, takes itself off and begins the run (20_memory.md R74). -/
structure OtherHalfKept (s : State) (x : Input) (rest : List Input) (t : State) : Prop where
  half : sameHalf (!isCacheInput x) s t
  inputs : t.inputs = rest
  running : t.running = (s.running || startsRun x)

theorem step_otherHalfKept {s t : State} {x : Input} {rest : List Input} (hi : s.inputs = x :: rest)
    (hb : isBuilding x = false) (h : step s = .next t) : OtherHalfKept s x rest t := by
  have hl := step_leaves hi h
  cases hx : isCacheInput x with
  | true =>
    obtain ⟨hp, hh, hbb, hdm, hsent, hin, hr⟩ := hl.sameDebugHalf hx hb
    exact ⟨hx ▸ ⟨hp, hh, hbb, hdm, hsent⟩, hin, hr⟩
  | false =>
    obtain ⟨hp, hic, hdc, hl2, htr, hin, hr⟩ := hl.sameCacheHalf hx
    exact ⟨hx ▸ ⟨hp, hic, hdc, hl2, htr⟩, hin, hr⟩

theorem run_two_eq_next {s t : State} : run 2 s = .next t ↔ ∃ u, step s = .next u ∧ step u = .next t := by
  constructor
  · intro h
    obtain ⟨u, hu, h⟩ := andThen_eq_next h
    obtain ⟨v, hv, h⟩ := andThen_eq_next h
    cases h
    exact ⟨u, hu, hv⟩
  · rintro ⟨u, hu, ht⟩
    simp [run, hu, ht]

/-- Settles O58: each input finds its own half as it would find it coming first, since the other leaves it alone. -/
theorem cacheAndDebugInputsCommute : Obligations.CacheAndDebugInputsCommute := by
  intro s t x y hne hbx hby h
  have hy : isCacheInput y = !isCacheInput x := Bool.eq_not_of_ne hne.symm
  have hx : isCacheInput x = !isCacheInput y := Bool.eq_not_of_ne hne
  obtain ⟨u, hu, ht⟩ := (run_two_eq_next (s := s.withInputs [x, y])).1 h
  have keptX := step_otherHalfKept rfl hbx hu
  have keptY := step_otherHalfKept keptX.inputs hby ht
  have halfY : sameHalf (isCacheInput y) u (s.withInputs [y, x]) :=
    (hy ▸ keptX.half.symm).trans (sameHalf_withInputs _ _ _)
  obtain ⟨u', hu', htu'⟩ := step_follows keptX.inputs (rest' := [x]) rfl hby halfY t ht
  have keptY' := step_otherHalfKept rfl hby hu'
  have halfX : sameHalf (isCacheInput x) (s.withInputs [x, y]) u' :=
    (sameHalf_withInputs _ _ [y, x]).trans (hx ▸ keptY'.half)
  obtain ⟨t', ht', hut'⟩ := step_follows rfl keptY'.inputs hbx halfX u hu
  have keptX' := step_otherHalfKept keptY'.inputs hbx ht'
  refine ⟨t', run_two_eq_next.2 ⟨u', hu', ht'⟩, withRet_eq_of_sameHalf (b := isCacheInput x) ?_ ?_ ?_ ?_ .nothing⟩
  · exact (hx ▸ keptY.half.symm).trans hut'
  · exact (hy ▸ htu').trans keptX'.half
  · rw [keptX'.inputs, keptY.inputs]
  · rw [keptX'.running, keptY'.running, keptY.running, keptX.running]
    exact Bool.or_right_comm s.running (startsRun y) (startsRun x)

end Sys2Proof.Machine

/-! PROOFS. The encoding: the reference codec by its bytes and by its bits, the instruction word by its two fields, and
the two round trips between instructions and operation words. -/

namespace Sys2Proof

/-! ### The reference codec -/

/-- The reference codec by its six command bytes (30_encoding.md R100). -/
theorem referenceDecode_cases (b : Byte) :
    (∃ tms tdi, b = clockByte tms tdi ∧ referenceDecode b = .clock tms tdi) ∨
      (b = 0x73#8 ∧ referenceDecode b = .sysReset) ∨ (b = 0x74#8 ∧ referenceDecode b = .tapReset) ∨
      ((∀ tms tdi, b ≠ clockByte tms tdi) ∧ b ≠ 0x73#8 ∧ b ≠ 0x74#8 ∧ referenceDecode b = .malformed) := by
  by_cases hclock : ∃ tms tdi, b = clockByte tms tdi
  · obtain ⟨tms, tdi, rfl⟩ := hclock
    exact .inl ⟨tms, tdi, rfl, referenceDecode_clockByte tms tdi⟩
  by_cases hsys : b = 0x73#8
  · exact .inr (.inl ⟨hsys, by rw [hsys]; rfl⟩)
  by_cases htap : b = 0x74#8
  · exact .inr (.inr (.inl ⟨htap, by rw [htap]; rfl⟩))
  have hne : ∀ tms tdi, b ≠ clockByte tms tdi := fun tms tdi h => hclock ⟨tms, tdi, h⟩
  refine .inr (.inr (.inr ⟨hne, hsys, htap, ?_⟩))
  unfold referenceDecode
  split
  · next h => exact absurd (BitVec.eq_of_toNat_eq h) (hne false false)
  · next h => exact absurd (BitVec.eq_of_toNat_eq h) (hne false true)
  · next h => exact absurd (BitVec.eq_of_toNat_eq h) (hne true false)
  · next h => exact absurd (BitVec.eq_of_toNat_eq h) (hne true true)
  · next h => exact absurd (BitVec.eq_of_toNat_eq h) hsys
  · next h => exact absurd (BitVec.eq_of_toNat_eq h) htap
  · rfl

theorem referenceDecode_eq_clock_iff {b : Byte} {tms tdi : Bool} :
    referenceDecode b = .clock tms tdi ↔ b = clockByte tms tdi := by
  refine ⟨fun h => ?_, fun h => h ▸ referenceDecode_clockByte tms tdi⟩
  rcases referenceDecode_cases b with ⟨_, _, hb, hd⟩ | ⟨-, hd⟩ | ⟨-, hd⟩ | ⟨-, -, -, hd⟩ <;> cases h.symm.trans hd
  exact hb

theorem referenceDecode_eq_sysReset_iff {b : Byte} : referenceDecode b = .sysReset ↔ b = 0x73#8 := by
  refine ⟨fun h => ?_, fun h => by rw [h]; rfl⟩
  rcases referenceDecode_cases b with ⟨_, _, -, hd⟩ | ⟨hb, hd⟩ | ⟨-, hd⟩ | ⟨-, -, -, hd⟩ <;> cases h.symm.trans hd
  exact hb

theorem referenceDecode_eq_tapReset_iff {b : Byte} : referenceDecode b = .tapReset ↔ b = 0x74#8 := by
  refine ⟨fun h => ?_, fun h => by rw [h]; rfl⟩
  rcases referenceDecode_cases b with ⟨_, _, -, hd⟩ | ⟨-, hd⟩ | ⟨hb, hd⟩ | ⟨-, -, -, hd⟩ <;> cases h.symm.trans hd
  exact hb

theorem referenceDecode_eq_malformed_iff {b : Byte} :
    referenceDecode b = .malformed ↔ (∀ tms tdi, b ≠ clockByte tms tdi) ∧ b ≠ 0x73#8 ∧ b ≠ 0x74#8 := by
  refine ⟨fun h => ?_, fun ⟨hclock, hsys, htap⟩ => ?_⟩
  · rcases referenceDecode_cases b with ⟨_, _, -, hd⟩ | ⟨-, hd⟩ | ⟨-, hd⟩ | ⟨hclock, hsys, htap, hd⟩ <;>
      cases h.symm.trans hd
    exact ⟨hclock, hsys, htap⟩
  · rcases referenceDecode_cases b with ⟨tms, tdi, hb, -⟩ | ⟨hb, -⟩ | ⟨hb, -⟩ | ⟨-, -, -, hd⟩
    · exact absurd hb (hclock tms tdi)
    · exact absurd hb hsys
    · exact absurd hb htap
    · exact hd

/-- A byte as the number of its bits 7..2, its bit 1 and its bit 0. -/
theorem byte_toNat_eq (b : Byte) :
    b.toNat = 4 * (b.extractLsb' 2 6).toNat + 2 * (b.getLsbD 1).toNat + (b.getLsbD 0).toNat := by
  have hb := b.isLt
  simp only [BitVec.extractLsb'_toNat, BitVec.getLsbD, Nat.shiftRight_eq_div_pow, Nat.toNat_testBit]
  omega

theorem clockByte_toNat (tms tdi : Bool) : (clockByte tms tdi).toNat = 0x30 + 2 * tms.toNat + tdi.toNat := by
  cases tms <;> cases tdi <;> rfl

/-- The clock bytes by their bits: 0b001100, then `tms`, then `tdi` (30_encoding.md R100). -/
theorem eq_clockByte_iff {b : Byte} {tms tdi : Bool} :
    b = clockByte tms tdi ↔ b.extractLsb' 2 6 = 0b001100#6 ∧ b.getLsbD 1 = tms ∧ b.getLsbD 0 = tdi := by
  constructor
  · rintro rfl
    cases tms <;> cases tdi <;> decide
  · rintro ⟨hhigh, rfl, rfl⟩
    apply BitVec.eq_of_toNat_eq
    rw [byte_toNat_eq b, hhigh, clockByte_toNat]
    rfl

theorem forall_ne_clockByte_iff {b : Byte} :
    (∀ tms tdi, b ≠ clockByte tms tdi) ↔ b.extractLsb' 2 6 ≠ 0b001100#6 := by
  simp only [ne_eq, eq_clockByte_iff]
  exact ⟨fun h hhigh => h _ _ ⟨hhigh, rfl, rfl⟩, fun h _ _ hbits => h hbits.1⟩

/-- Settles O8: the six command bytes of the reference codec, the clock bytes by their bits. -/
theorem referenceCodecByItsBits : Obligations.ReferenceCodecByItsBits := by
  intro p b hp
  rw [bbDecode_reference hp]
  refine ⟨fun tms tdi => referenceDecode_eq_clock_iff.trans eq_clockByte_iff, referenceDecode_eq_sysReset_iff,
    referenceDecode_eq_tapReset_iff, ?_⟩
  rw [referenceDecode_eq_malformed_iff, forall_ne_clockByte_iff]

/-! ### Client bytes -/

/-- The encoding of the class row of a clock command decodes to the byte row of its word (log 9). -/
theorem decodeByte_clockByte {p : Params} (hp : p.bbOverride = []) (tms tdi : Bool) :
    decodeByte p (clockByte tms tdi) = (Instr.bbClock tms tdi).canonical := by
  rw [decodeByte, bbDecode_reference hp, referenceDecode_clockByte]
  cases tms <;> cases tdi <;> rfl

/-- A byte is the encoding of the row it decodes to, which is no class row (30_encoding.md R108; log 9). -/
theorem encode_decodeByte {p : Params} (hp : p.bbOverride = []) (b : Byte) :
    encode p (decodeByte p b) = .byte b ∧ (decodeByte p b).canonical = decodeByte p b := by
  rcases referenceDecode_cases b with ⟨tms, tdi, rfl, -⟩ | ⟨rfl, hd⟩ | ⟨rfl, hd⟩ | ⟨-, -, -, hd⟩
  · rw [decodeByte_clockByte hp]
    cases tms <;> cases tdi <;> exact ⟨rfl, rfl⟩
  all_goals
    rw [decodeByte, bbDecode_reference hp, hd]
    exact ⟨rfl, rfl⟩

/-! ### Instruction words -/

/-- The row of an instruction word by its two fields (30_encoding.md R96, R108). -/
def irRow (addr op : Nat) : Instr :=
  match op with
  | 0 => .dtmIdle addr
  | 1 => .dtmRead addr
  | 2 => .dtmWrite addr
  | _ => .dtmReserved addr

theorem irOp_lt (w : Nat) : irOp w < 4 := Nat.mod_lt w (by decide)

theorem decodeIrWord_of_lt {p : Params} {w : Nat} (hw : w < 2 ^ p.irLen) :
    decodeIrWord p w = .ok (irRow (w / 4) (irOp w)) := by
  have ho := irOp_lt w
  rw [decodeIrWord, if_pos hw]
  interval_cases irOp w <;> rfl

/-- A word that decodes fits in `IR_LEN` bits, and decodes to the row of its fields. -/
theorem decodeIrWord_eq_ok {p : Params} {w : Nat} {i : Instr} (h : decodeIrWord p w = .ok i) :
    i = irRow (w / 4) (irOp w) := by
  by_cases hw : w < 2 ^ p.irLen
  · rw [decodeIrWord_of_lt hw] at h
    cases h
    rfl
  · rw [decodeIrWord, if_neg hw] at h
    cases h

/-- The word `{addr, op}` of a register address decodes to the row of `op` (30_encoding.md R96). -/
theorem decodeIrWord_irWord {p : Params} {addr op : Nat} (ha : addr < 2 ^ p.abits) (ho : op < 4) :
    decodeIrWord p (irWord addr op) = .ok (irRow addr op) := by
  rw [decodeIrWord_of_lt (irWord_lt ha ho), irWord_div addr op ho, irOp_irWord addr op ho]

theorem encode_irRow (p : Params) (addr : Nat) {op : Nat} (ho : op < 4) :
    encode p (irRow addr op) = .irWord (irWord addr op) := by
  interval_cases op <;> rfl

theorem canonical_irRow (addr op : Nat) : (irRow addr op).canonical = irRow addr op := by
  unfold irRow
  split <;> rfl

/-! ### The other rows -/

theorem encode_decodeClock (p : Params) (st : TapState) (tms tdi : Bool) :
    encode p (decodeClock st tms tdi) = .clock st tms tdi ∧
      (decodeClock st tms tdi).canonical = decodeClock st tms tdi := by
  cases st <;> cases tms <;> exact ⟨rfl, rfl⟩

theorem encode_decodeNotify (p : Params) (h : Nat) (a : Addr) (k : Kind) :
    encode p (decodeNotify h a k) = .notify h a k ∧ (decodeNotify h a k).canonical = decodeNotify h a k := by
  cases k <;> exact ⟨rfl, rfl⟩

theorem encode_decodeAccess (p : Params) (c : CacheId) (a : Addr) (w : Bool) (row : AccessRow) :
    encode p (decodeAccess c a w row) = .access c a w row ∧
      (decodeAccess c a w row).canonical = decodeAccess c a w row := by
  cases row <;> exact ⟨rfl, rfl⟩

theorem encode_of_decodeResponse {p : Params} {b : Byte} {i : Instr} (h : decodeResponse p b = .ok i) :
    encode p i = .response b ∧ i.canonical = i := by
  unfold decodeResponse at h
  split at h
  · next hb => cases h; exact ⟨by rw [hb]; rfl, rfl⟩
  · split at h
    · next hb => cases h; exact ⟨by rw [hb]; rfl, rfl⟩
    · cases h

/-! ### The round trips -/

/-- Settles O5: the rows that a call, an edge or an event names decode by definition; a byte decodes by the reference
codec, a response by its two bytes, an instruction word by its two fields. -/
theorem encodeThenDecodeGivesTheInstruction : Obligations.EncodeThenDecodeGivesTheInstruction := by
  intro p i hp hresp hwf
  cases i with
  | bbClock0 => exact congrArg Decoded.ok (decodeByte_clockByte hp false false)
  | bbClock1 => exact congrArg Decoded.ok (decodeByte_clockByte hp false true)
  | bbClock2 => exact congrArg Decoded.ok (decodeByte_clockByte hp true false)
  | bbClock3 => exact congrArg Decoded.ok (decodeByte_clockByte hp true true)
  | bbClock tms tdi => exact congrArg Decoded.ok (decodeByte_clockByte hp tms tdi)
  | bbSysreset | bbTapreset =>
    simp [encode, decode, decodeByte, bbDecode_reference hp, referenceDecode, Instr.canonical]
  | bbMalformed b =>
    have hb : bbDecode p b = .malformed := beq_iff_eq.1 hwf
    simp [encode, decode, decodeByte, hb, Instr.canonical]
  | bbResponse0 => simp [encode, decode, decodeResponse, Instr.canonical]
  | bbResponse1 => simp [encode, decode, decodeResponse, hresp.symm, Instr.canonical]
  | dtmIdle addr => exact decodeIrWord_irWord (op := 0) (of_decide_eq_true hwf) (by decide)
  | dtmRead addr => exact decodeIrWord_irWord (op := 1) (of_decide_eq_true hwf) (by decide)
  | dtmWrite addr => exact decodeIrWord_irWord (op := 2) (of_decide_eq_true hwf) (by decide)
  | dtmReserved addr => exact decodeIrWord_irWord (op := 3) (of_decide_eq_true hwf) (by decide)
  | _ => rfl

/-- Settles O6: each form of operation word is the encoding of the row it decodes to, and no byte of the reference codec
selects the class row of the clock commands. -/
theorem decodeThenEncodeGivesTheWord : Obligations.DecodeThenEncodeGivesTheWord := by
  intro p w i hp hd
  cases w with
  | notify h a k => cases hd; exact encode_decodeNotify p h a k
  | access c a isWrite row => cases hd; exact encode_decodeAccess p c a isWrite row
  | clock st tms tdi => cases hd; exact encode_decodeClock p st tms tdi
  | byte b => cases hd; exact encode_decodeByte hp b
  | response b => exact encode_of_decodeResponse hd
  | irWord w =>
    cases decodeIrWord_eq_ok hd
    rw [encode_irRow p (w / 4) (irOp_lt w), irWord_split]
    exact ⟨rfl, canonical_irRow _ _⟩
  | construct | attach | register | stats | connect | disconnect => cases hd; exact ⟨rfl, rfl⟩

/-- Settles O4: the words are read as log 8 says, and decoded. -/
theorem tableWordsDecodeToTheirRows : Obligations.TableWordsDecodeToTheirRows := by
  unfold Obligations.TableWordsDecodeToTheirRows
  decide

end Sys2Proof

/-! PROOFS. The cache spec string: three numerals between two colons, and which of the decimal ones `construct` accepts.
The address: set index and tag as the two fields of the block number. -/

namespace Sys2Proof

open Machine

/-! ### Numerals -/

/-- The parser's numerals are those of 30_encoding.md R82. -/
theorem numeral_eq_some_iff {t : Text} {n : Nat} : numeral t = some n ↔ IsNumeral t n := by
  cases t with
  | nil => simp [numeral, IsNumeral]
  | cons c cs => simp only [numeral, digits_eq_some, IsNumeral, ne_eq, reduceCtorEq, not_false_eq_true, true_and]

/-- No digit is a colon. -/
theorem no_colon_of_isNumeral {t : Text} {n : Nat} (h : IsNumeral t n) : ∀ c ∈ t, (c == ':') = false := by
  obtain ⟨-, hdigits, -⟩ := h
  intro c hc
  rw [beq_eq_false_iff_ne]
  rintro rfl
  exact absurd (hdigits ':' hc).2 (by decide)

/-! ### The three fields -/

/-- A text with two colons splits into its three fields. -/
theorem splitColons_three {x y z : Text} (hx : ∀ c ∈ x, (c == ':') = false) (hy : ∀ c ∈ y, (c == ':') = false)
    (hz : ∀ c ∈ z, (c == ':') = false) : splitColons (x ++ ':' :: (y ++ ':' :: z)) = [x, y, z] := by
  rw [splitColons_append hx, splitColons_append hy, splitColons_no_colon hz]

/-- A text that splits into several fields is the first, a colon, and a text that splits into the others. -/
theorem eq_append_of_splitColons {t f g : Text} {fs : List Text} (h : splitColons t = f :: g :: fs) :
    ∃ u, t = f ++ ':' :: u ∧ splitColons u = g :: fs := by
  obtain ⟨-, ⟨hnil, -⟩ | hu⟩ := splitColons_cons h
  · cases hnil
  · exact hu

theorem eq_of_splitColons_three {t x y z : Text} (h : splitColons t = [x, y, z]) :
    t = x ++ ':' :: (y ++ ':' :: z) := by
  obtain ⟨u, rfl, hu⟩ := eq_append_of_splitColons h
  obtain ⟨v, rfl, hv⟩ := eq_append_of_splitColons hu
  obtain ⟨-, ⟨-, rfl⟩ | ⟨_, -, hnil⟩⟩ := splitColons_cons hv
  · rfl
  · exact absurd hnil (splitColons_ne_nil _)

theorem parseSpec_eq_some_iff {t : Text} {S W B : Nat} : parseSpec t = some (S, W, B) ↔
    ∃ x y z, splitColons t = [x, y, z] ∧ numeral x = some S ∧ numeral y = some W ∧ numeral z = some B := by
  constructor
  · intro h
    unfold parseSpec at h
    split at h
    · next x y z hsplit =>
      split at h
      · next hx hy hz => cases h; exact ⟨x, y, z, hsplit, hx, hy, hz⟩
      · cases h
    · cases h
  · rintro ⟨x, y, z, hsplit, hx, hy, hz⟩
    simp only [parseSpec, hsplit, hx, hy, hz]

/-- Settles O7: the fields between the colons are read as numerals, and no numeral holds a colon. -/
theorem specStringsAreThreeNumerals : Obligations.SpecStringsAreThreeNumerals := by
  intro t S W B
  simp only [parseSpec_eq_some_iff, numeral_eq_some_iff]
  constructor
  · rintro ⟨x, y, z, hsplit, hnum⟩
    exact ⟨x, y, z, eq_of_splitColons_three hsplit, hnum⟩
  · rintro ⟨x, y, z, rfl, hx, hy, hz⟩
    refine ⟨x, y, z, splitColons_three ?_ ?_ ?_, hx, hy, hz⟩
    · exact no_colon_of_isNumeral hx
    · exact no_colon_of_isNumeral hy
    · exact no_colon_of_isNumeral hz

/-- A spec string written in decimal parses to its numbers (30_encoding.md R81, R82). -/
theorem parseSpec_specText (S W B : Nat) : parseSpec (specText S W B) = some (S, W, B) :=
  parseSpec_eq_some_iff.2 ⟨decimal S, decimal W, decimal B,
    splitColons_three (decimalFrom_no_colon _ _) (decimalFrom_no_colon _ _) (decimalFrom_no_colon _ _),
    numeral_decimal S, numeral_decimal W, numeral_decimal B⟩

end Sys2Proof

namespace Sys2Proof.Machine

/-- `construct` of a good spec string, before the run, leaves a fresh cache (40_cache.md R110). -/
theorem execConstruct_of_good {s : State} {c : CacheId} {spec label : Text} {S W B : Nat} (hr : s.running = false)
    (hc : s.cache c = none) (hp : parseSpec spec = some (S, W, B)) (hS : isPow2 S = true) (hB : isPow2 B = true)
    (hW : 1 ≤ W) : execConstruct c spec label s =
      .next ((s.setCache c (Cache.fresh S W B label)).withRet (.cache c)) := by
  have hW0 : W ≠ 0 := Nat.one_le_iff_ne_zero.1 hW
  simp [execConstruct, beforeRun_of_not_running hr, hp, hS, hB, hW0, hc]

/-- Settles O10: the decimal spec string parses to its three numbers, on which the checks of `construct` fall. -/
theorem constructAcceptsExactlyPowersOfTwo : Obligations.ConstructAcceptsExactlyPowersOfTwo := by
  intro s c label S W B hr hc
  rw [← isPow2_iff, ← isPow2_iff]
  constructor
  · rintro ⟨t, ht⟩
    have hleaves : Leaves s (.construct c (specText S W B) label) t := execConstruct_leaves ht
    cases hleaves with
    | construct _ hp hS hB hW =>
      cases (parseSpec_specText S W B).symm.trans hp
      exact ⟨hS, hB, hW⟩
  · rintro ⟨hS, hB, hW⟩
    exact ⟨_, execConstruct_of_good hr hc (parseSpec_specText S W B) hS hB hW⟩

/-! ### The address fields -/

/-- The set index is the low field of the block number (30_encoding.md R84). -/
theorem Cache.index_eq_block_mod (k : Cache) (a : Addr) : k.index a = k.block a % k.sets := rfl

/-- The tag is the high field of the block number (30_encoding.md R84). -/
theorem Cache.tag_eq_block_div (k : Cache) (a : Addr) : k.tag a = k.block a / k.sets :=
  (Nat.div_div_eq_div_mul _ _ _).symm

/-- Set index and tag rebuild the block number, and with the offset the address (30_encoding.md R85). -/
theorem Cache.blockBase_add_offset (k : Cache) (a : Addr) :
    k.blockBase (k.index a) (k.tag a) + k.offset a = a.toNat := by
  have hblock : k.tag a * k.sets + k.index a = k.block a := by
    rw [Cache.index_eq_block_mod, Cache.tag_eq_block_div, Nat.div_add_mod']
  rw [Cache.blockBase, hblock]
  exact Nat.div_add_mod' _ _

/-- Set index and tag are the two fields of the block number, and so decide it (30_encoding.md R85 (iv)). -/
theorem Cache.block_eq_iff (k : Cache) (a a' : Addr) :
    (k.index a' = k.index a ∧ k.tag a' = k.tag a) ↔ k.block a' = k.block a := by
  simp only [Cache.index_eq_block_mod, Cache.tag_eq_block_div]
  constructor
  · rintro ⟨hmod, hdiv⟩
    rw [← Nat.div_add_mod (k.block a') k.sets, hmod, hdiv, Nat.div_add_mod]
  · intro h
    rw [h]
    exact ⟨rfl, rfl⟩

/-- Settles O15: set index and tag are the two fields of the block number; a division by a power of two is a shift. -/
theorem addressSplitsIntoFields : Obligations.AddressSplitsIntoFields := by
  intro k a b n hb hn
  have htag : k.tag a = a.toNat >>> (b + n) := by
    rw [Cache.tag, hb, hn, ← pow_add, Nat.shiftRight_eq_div_pow]
  refine ⟨by rw [Cache.offset, hb], by rw [Cache.index, hb, hn, Nat.shiftRight_eq_div_pow], htag,
    k.blockBase_add_offset a, fun a' => k.block_eq_iff a a', fun h64 => ?_⟩
  have ha : a.toNat < 2 ^ (b + n) := Nat.lt_of_lt_of_le a.isLt (Nat.pow_le_pow_right (by decide) h64)
  rw [htag, Nat.shiftRight_eq_div_pow, Nat.div_eq_of_lt ha]

end Sys2Proof.Machine

/-! PROOFS. Rows of the operation table in the states that select them and in the others: the edges, the accesses, the
instruction words, the responses. -/

namespace Sys2Proof.Machine

/-! ### The response rows -/

/-- Settles O53: with a client connected a response row is the sending of its byte. -/
theorem responseRowsSendTheirByte : Obligations.ResponseRowsSendTheirByte :=
  fun _ hb => ⟨inSession_of_connected hb, inSession_of_connected hb⟩

/-! ### Rows that the state does not select -/

/-- An access row in a state that selects another one (30_encoding.md R108; log 6). -/
theorem exec_decodeAccess_of_ne {s : State} {c : CacheId} {a : Addr} {w : Bool} {row row' : AccessRow}
    (h : accessRow s c a = some row) (hne : row' ≠ row) :
    exec (decodeAccess c a w row') s = .refused .rowNotSelected := by
  unfold accessRow at h
  cases hc : s.cache c with
  | none => simp [hc] at h
  | some k =>
    cases hl : k.lookup a with
    | some way =>
      simp only [hc, hl, Option.some.injEq] at h
      subst h
      cases row' with
      | hit => exact absurd rfl hne
      | miss => simp [decodeAccess, exec, execAccessMiss, hc, hl]
      | missForward => simp [decodeAccess, exec, execAccessMissForward, hc, hl]
    | none =>
      cases hn : k.next with
      | none =>
        simp only [hc, hl, hn, Option.some.injEq] at h
        subst h
        cases row' with
        | hit => simp [decodeAccess, exec, execAccessHit, hc, hl]
        | miss => exact absurd rfl hne
        | missForward => simp [decodeAccess, exec, execAccessMissForward, hc, hl, hn]
      | some u =>
        simp only [hc, hl, hn, Option.some.injEq] at h
        subst h
        cases row' with
        | hit => simp [decodeAccess, exec, execAccessHit, hc, hl]
        | miss => simp [decodeAccess, exec, execAccessMiss, hc, hl, hn]
        | missForward => exact absurd rfl hne

theorem beforeRun_ne_rowNotSelected {s : State} {o : Result} (h : o ≠ .refused .rowNotSelected) :
    beforeRun s o ≠ .refused .rowNotSelected := by
  unfold beforeRun
  split
  · nofun
  · exact h

theorem inSession_ne_rowNotSelected (s t : State) : inSession s t ≠ .refused .rowNotSelected := by
  unfold inSession
  split <;> nofun

theorem execConstruct_ne_rowNotSelected (c : CacheId) (spec label : Text) (s : State) :
    execConstruct c spec label s ≠ .refused .rowNotSelected := by
  refine beforeRun_ne_rowNotSelected ?_
  repeat' split
  all_goals nofun

theorem execAttach_ne_rowNotSelected (lower upper : CacheId) (s : State) :
    execAttach lower upper s ≠ .refused .rowNotSelected := by
  refine beforeRun_ne_rowNotSelected ?_
  repeat' split
  all_goals nofun

theorem execRegister_ne_rowNotSelected (h : Nat) (c : CacheId) (s : State) :
    execRegister h c s ≠ .refused .rowNotSelected := by
  refine beforeRun_ne_rowNotSelected ?_
  repeat' split
  all_goals nofun

theorem execStats_ne_rowNotSelected (c : CacheId) (s : State) : execStats c s ≠ .refused .rowNotSelected := by
  unfold execStats
  split <;> nofun

theorem execConnect_ne_rowNotSelected (s : State) : execConnect s ≠ .refused .rowNotSelected := by
  unfold execConnect withTapHalf
  repeat' split
  all_goals nofun

theorem access_ne_rowNotSelected (c : CacheId) (a : Addr) (w : Bool) (s : State) :
    access c a w s ≠ .refused .rowNotSelected := by
  rcases access_outcomes (c := c) (a := a) (w := w) (s := s) with ⟨t, h⟩ | h | h <;> rw [h] <;> nofun

theorem notify_ne_rowNotSelected (h : Nat) (a : Addr) (k : Kind) (s : State) :
    notify h a k s ≠ .refused .rowNotSelected := by
  rcases notify_outcomes (h := h) (a := a) (k := k) (s := s) with ⟨t, ht⟩ | ht | ht | ht <;> rw [ht] <;> nofun

/-- The edge that the state selects is run, or there is no TAP half. -/
theorem exec_selectedClock_ne_rowNotSelected (s : State) (tms tdi : Bool) :
    exec (decodeClock s.tap.state tms tdi) s ≠ .refused .rowNotSelected := by
  cases hs : s.tapHalf with
  | none => rw [exec_decodeClock, clockRow_of_none hs]; nofun
  | some t => rw [exec_selectedClock (by rw [hs]; rfl)]; nofun

/-- So is the row of the instruction word that an edge of the state acts on. -/
theorem exec_selectedIrWord_ne_rowNotSelected {s : State} {tms : Bool} {w : Nat} {i : Instr}
    (he : instrEdge s.tap = some (tms, w)) (hd : decodeIrWord s.params w = .ok i) :
    exec i s ≠ .refused .rowNotSelected := by
  cases hs : s.tapHalf with
  | none => rw [exec_decodeIrWord hd, dtmRow, withTapHalf_of_none hs]; nofun
  | some t => rw [exec_selectedIrWord (by rw [hs]; rfl) he hd false]; nofun

/-- No step meets a row that the state does not select: it reads the row from the state (30_encoding.md R108). -/
theorem step_ne_rowNotSelected (s : State) : step s ≠ .refused .rowNotSelected := by
  cases hi : s.inputs with
  | nil => rw [step_nil hi]; nofun
  | cons x rest =>
    rw [step_eq hi]
    cases x with
    | construct c spec label => exact execConstruct_ne_rowNotSelected c spec label _
    | attach lower upper => exact execAttach_ne_rowNotSelected lower upper _
    | register h c =>
      rw [stepOn]
      split
      · exact execRegister_ne_rowNotSelected h c _
      · nofun
    | notify h a k =>
      rw [stepOn]
      split
      · exact notify_ne_rowNotSelected h a k _
      · nofun
    | access c a w =>
      rw [stepOn]
      split
      · next row hrow =>
        rw [exec_decodeAccess (by simpa [accessRow] using hrow)]
        exact access_ne_rowNotSelected c a w _
      · nofun
    | stats c => exact execStats_ne_rowNotSelected c _
    | clock tms tdi =>
      rw [stepOn]
      split
      · exact exec_selectedClock_ne_rowNotSelected (s.take (.clock tms tdi) rest) tms tdi
      · nofun
    | byte b => exact inSession_ne_rowNotSelected s _
    | connect => exact execConnect_ne_rowNotSelected _
    | disconnect => exact inSession_ne_rowNotSelected _ _
    | instrEdge =>
      rw [stepOn]
      split
      · split
        · nofun
        · next he =>
          split
          · next hd => exact exec_selectedIrWord_ne_rowNotSelected (s := s.take .instrEdge rest) he hd
          · nofun
      · nofun

/-- Settles O31: another row refuses, and the row that a step reads from the state does not. -/
theorem unselectedRowsStopByName : Obligations.UnselectedRowsStopByName := by
  refine ⟨fun s st tms tdi hs hne => ?_, fun s c a w row row' => exec_decodeAccess_of_ne, step_ne_rowNotSelected⟩
  rw [exec_decodeClock, clockRow_of_ne hs hne.symm]

/-! ### The rows of the instruction words -/

theorem accessOf_of_no_override {p : Params} (hp : p.irOverride = []) (w : Nat) (row : DtmAccess) :
    accessOf p w row = row := by
  simp [accessOf, hp]

section

variable {s : State} {addr op : Nat} {acc : DtmAccess} (hs : s.tapHalf.isSome = true)

include hs

/-- The edge into Update-IR latches the word that IR holds (42_dtm_registers.md R180). -/
theorem dtmRow_latch (hst : s.tap.state = .ex1IR ∨ s.tap.state = .ex2IR) (hw : s.tap.ir = irWord addr op) :
    dtmRow addr op acc s =
      .next ((s.setTap { s.tap with state := .updIR, sel := irWord addr op }).withRet (.tdo s.tap.tdo)) := by
  rw [dtmRow, withTapHalf_of_isSome hs, ← hw]
  rcases hst with hst | hst <;>
  · simp only [hst, if_true]
    rfl

/-- With the word selected, the edge into Capture-DR loads DR for its access (42_dtm_registers.md R178). -/
theorem dtmRow_capture (hp : s.params.irOverride = []) (hst : s.tap.state = .selDR)
    (hw : s.tap.sel = irWord addr op) : dtmRow addr op acc s = edgeInto .capDR (captureDR acc) s := by
  simp [dtmRow, withTapHalf_of_isSome hs, accessOf_of_no_override hp, hst, hw]

/-- With the word selected, the edge into Update-DR commits its access (42_dtm_registers.md R181). -/
theorem dtmRow_update (hp : s.params.irOverride = []) (hst : s.tap.state = .ex1DR ∨ s.tap.state = .ex2DR)
    (hw : s.tap.sel = irWord addr op) : dtmRow addr op acc s = edgeInto .updDR (updateDR acc) s := by
  rcases hst with hst | hst <;> simp [dtmRow, withTapHalf_of_isSome hs, accessOf_of_no_override hp, hst, hw]

/-- Where no edge of the present state acts on the word, its row is not selected (log 6, log 7). -/
theorem dtmRow_unselected (h : ∀ tms, instrEdge s.tap ≠ some (tms, irWord addr op)) :
    dtmRow addr op acc s = .refused .rowNotSelected := by
  rw [dtmRow, withTapHalf_of_isSome hs]
  simp only
  split
  case h_6 => rfl
  all_goals
    next hst =>
      simp only [instrEdge, hst] at h
      exact if_neg fun hw => h _ (by rw [hw])

end

/-- Settles O56: the row of a word is the edge that acts on it, and the table gives each word its access. -/
theorem instructionWordsActWhereTheyTakeEffect : Obligations.InstructionWordsActWhereTheyTakeEffect := by
  intro s addr hs hp
  refine ⟨fun hst => ?_, fun hst => ?_, fun hst => ?_, dtmRow_unselected (op := 0) hs, dtmRow_unselected hs,
    dtmRow_unselected hs, dtmRow_unselected hs⟩
  · exact ⟨dtmRow_latch (op := 0) hs hst, dtmRow_latch hs hst, dtmRow_latch hs hst, dtmRow_latch hs hst⟩
  · exact ⟨dtmRow_capture (op := 0) hs hp hst, dtmRow_capture hs hp hst, (dmRead addr s).1, dmRead_lt s addr,
      fun x xs hx => dmRead_scripted s hx addr, dtmRow_capture hs hp hst, dtmRow_capture hs hp hst⟩
  · exact ⟨dtmRow_update (op := 0) hs hp hst, dtmRow_update hs hp hst, dtmRow_update hs hp hst,
      dtmRow_update hs hp hst⟩

end Sys2Proof.Machine

/-! PROOFS. The access: what each of its three rows changes, that `is_write` is never read, where a notification goes,
and the query `stats`. -/

namespace Sys2Proof.Machine

/-! ### The three rows -/

/-- Settles O19: the row that the state selects is the operation. -/
theorem accessRowsAreTheAccessOperation : Obligations.AccessRowsAreTheAccessOperation :=
  fun _ _ _ _ _ h => exec_decodeAccess h

theorem execAccessHit_of_lookup {s : State} {c : CacheId} {a : Addr} {k : Cache} {w : Nat} (hc : s.cache c = some k)
    (hl : k.lookup a = some w) (isWrite : Bool) :
    execAccessHit c a isWrite s = .next ((s.setCache c (k.hitAt a w)).withRet (.hit true)) := by
  simp [execAccessHit, hc, hl]

theorem execAccessMiss_of_lookup {s : State} {c : CacheId} {a : Addr} {k : Cache} (hc : s.cache c = some k)
    (hl : k.lookup a = none) (hn : k.next = none) (isWrite : Bool) :
    execAccessMiss c a isWrite s = .next ((s.setCache c (k.install a)).withRet (.hit false)) := by
  simp [execAccessMiss, hc, hl, hn]

theorem execAccessMissForward_of_lookup {s : State} {c u : CacheId} {a : Addr} {k : Cache} (hc : s.cache c = some k)
    (hl : k.lookup a = none) (hn : k.next = some u) (isWrite : Bool) :
    execAccessMissForward c a isWrite s =
      andThen (accessChain (maxLevels - 1) u a isWrite (s.setCache c (k.install a)))
        fun t => .next (t.withRet (.hit false)) := by
  simp [execAccessMissForward, hc, hl, hn]

/-- No stamp is greater than the count of accesses (10_state.md R32 (ii), (iii)). -/
theorem Cache.lastUsed_le_accesses {k : Cache} (h : k.Inv) (i j : Nat) : (k.line i j).lastUsed ≤ k.accesses := by
  cases hv : (k.line i j).valid with
  | true => exact (h.validStamp i j hv).2
  | false => rw [(h.invalidZero i j hv).1]; exact Nat.zero_le _

/-- Settles O16: the scan finds the line, the hit path restamps it, and every older stamp is at most the old count. -/
theorem accessHitRestampsItsLine : Obligations.AccessHitRestampsItsLine := by
  intro s c a isWrite k w hc hinv hv htag
  have hline := Cache.line_hitAt (a := a) hinv (Cache.way_lt_of_valid hinv hv)
  refine ⟨k.hitAt a w, execAccessHit_of_lookup hc (Cache.lookup_eq_some hinv hv htag) isWrite,
    ⟨rfl, rfl, rfl, rfl, rfl⟩, rfl, rfl, fun i j => ?_, fun i j hne => ?_⟩
  · rw [hline]
    split
    · next h => rw [h.1, h.2]
    · rfl
  · rw [hline i j, if_neg (by rwa [not_and_or]), hline, if_pos ⟨rfl, rfl⟩]
    exact Nat.lt_succ_of_le (Cache.lastUsed_le_accesses hinv i j)

/-- The miss path writes the victim of the set and no other line (40_cache.md R121). -/
theorem Cache.install_missedInto {k : Cache} (h : k.Inv) (a : Addr) :
    k.missedInto a (victimWay (k.set (k.index a))) (k.install a) := by
  have hlt := Cache.victim_lt h (k.index a)
  have hlen := Cache.set_length h (k.index a)
  exact ⟨hlt, fun w hw => victimWay_le (hlen ▸ hw), fun w hw => victimWay_lowest hw (hlen ▸ hw.trans hlt),
    ⟨rfl, rfl, rfl, rfl, rfl⟩, rfl, rfl, Cache.line_install h⟩

/-- Settles O17: the scan fails, and the miss path writes the victim. -/
theorem accessMissReplacesTheLeastRecent : Obligations.AccessMissReplacesTheLeastRecent := by
  intro s c a isWrite k hc hinv hnone hn
  exact ⟨k.install a, _, execAccessMiss_of_lookup hc (Cache.lookup_eq_none hinv hnone) hn isWrite,
    Cache.install_missedInto hinv a⟩

/-- The chain of a miss handler is one level shorter. -/
theorem chainEnds_of_next {s : State} {c u : CacheId} {k : Cache} {n : Nat} (hc : s.cache c = some k)
    (hn : k.next = some u) (h : chainEnds s (n + 1) c = true) : chainEnds s n u = true := by
  simpa [chainEnds, hc, hn] using h

theorem Cache.touch_fst_of_lookup_none {k : Cache} {a : Addr} (hl : k.lookup a = none) :
    (k.touch a).1 = k.install a := by
  simp [Cache.touch, hl]

/-- Settles O18: the rest of the chain completes on the fuel that is left, and so `access` completes there alike. -/
theorem accessMissForwardsTheSameAccess : Obligations.AccessMissForwardsTheSameAccess := by
  intro s c u a isWrite k hchains hc hinv hnone hn
  have hl := Cache.lookup_eq_none hinv hnone
  have hends : chainEnds (s.setCache c (k.install a)) (maxLevels - 1) u = true := by
    rw [← Cache.touch_fst_of_lookup_none hl, chainEnds_touch hc]
    exact chainEnds_of_next hc hn (hchains c (by rw [hc]; rfl))
  obtain ⟨t, ht⟩ := accessChain_completes hends a isWrite
  have hfull : accessChain maxLevels u a isWrite (s.setCache c (k.install a)) = .next t := accessChain_fuel ht
  have haccess : access u a isWrite (s.setCache c (k.install a)) =
      .next (t.withRet (.hit (wouldHit (s.setCache c (k.install a)) u a))) := by
    rw [access, hfull, andThen_next]
  refine ⟨k.install a, _, _, Cache.install_missedInto hinv a, haccess, ?_⟩
  show execAccessMissForward c a isWrite s = _
  rw [execAccessMissForward_of_lookup hc hl hn, ht]
  rfl

/-! ### `is_write` -/

/-- No level of a chain reads `is_write` (40_cache.md R124). -/
theorem accessChain_isWrite (fuel : Nat) (c : CacheId) (a : Addr) (w w' : Bool) (s : State) :
    accessChain fuel c a w s = accessChain fuel c a w' s := by
  induction fuel generalizing c s with
  | zero => rfl
  | succ fuel ih => simp only [accessChain, ih]

/-- Settles O20: only the forwarding row passes `is_write` on, and no level of the chain reads it. -/
theorem isWriteChangesNothing : Obligations.IsWriteChangesNothing := by
  intro s c a w w'
  refine ⟨?_, rfl, rfl, ?_⟩
  · simp only [access, accessChain_isWrite _ c a w w']
  · simp only [exec, execAccessMissForward, accessChain_isWrite _ _ a w w']

/-! ### Notifications -/

/-- `IC` takes the fetches and `DC` the loads and stores (30_encoding.md R87). -/
theorem eq_of_accepts {c : CacheId} {kd : Kind} {w : Bool} (h : accepts c kd = some w) :
    c = if kd = .fetch then .ic else .dc := by
  unfold accepts at h
  split at h <;> cases h <;> rfl

theorem accepts_of_ne {c d : CacheId} {kd : Kind} {w : Bool} (hc : accepts c kd = some w) (hne : d ≠ c) :
    accepts d kd = none := by
  cases hd : accepts d kd with
  | none => rfl
  | some w' => exact absurd ((eq_of_accepts hd).trans (eq_of_accepts hc).symm) hne

/-- Where a tracer takes the kind, a notification is one access of it, if it is registered (40_cache.md R116, R117). -/
theorem notify_of_accepts {s : State} {h : Nat} {a : Addr} {kd : Kind} {ts : List CacheId} {c : CacheId} {w : Bool}
    (hts : s.tracers[h]? = some ts) (hnd : ts.Nodup) (hc : accepts c kd = some w) :
    notify h a kd s =
      if c ∈ ts then andThen (access c a w s) fun t => .next (t.withRet .nothing) else .next (s.withRet .nothing) := by
  simp only [notify, hts, notifyAll_one hnd hc fun _ => accepts_of_ne hc]
  split <;> rfl

/-- Settles O21: each kind is taken by one tracer alone. -/
theorem notifyRoutesByKind : Obligations.NotifyRoutesByKind :=
  fun _ _ _ _ hts hnd =>
    ⟨notify_of_accepts hts hnd rfl, notify_of_accepts hts hnd rfl, notify_of_accepts hts hnd rfl⟩

/-! ### `stats` -/

theorem execStats_of_cache {s : State} {c : CacheId} {k : Cache} (hc : s.cache c = some k) :
    execStats c s = .next (s.withRet (.stats k.accesses k.hits)) := by
  simp [execStats, hc]

/-- Settles O23: the counters of a built cache, which are 0 in the fresh cache that `construct` leaves. -/
theorem statsReturnsTheCounters : Obligations.StatsReturnsTheCounters := by
  refine ⟨fun s c k hc => ⟨execStats_of_cache hc, by rw [hc]; rfl⟩, fun s t c spec label h => ?_⟩
  have hleaves : Leaves s (.construct c spec label) t := execConstruct_leaves h
  cases hleaves with
  | @construct c spec label S W B =>
    have hfresh : ((s.setCache c (Cache.fresh S W B label)).withRet (.cache c)).cache c =
        some (Cache.fresh S W B label) := by simp
    exact execStats_of_cache hfresh

end Sys2Proof.Machine

/-! PROOFS. Building: what each of the three calls does before the run, and the tree that the orchestrator's sequence
leaves. -/

namespace Sys2Proof.Machine

/-! ### `construct` -/

theorem execConstruct_malformed {s : State} {c : CacheId} {spec label : Text} (hr : s.running = false)
    (hp : parseSpec spec = none) :
    execConstruct c spec label s = .fault (.configError .malformedCacheSpec) := by
  rw [execConstruct, beforeRun_of_not_running hr, hp]
  rfl

theorem execConstruct_nonPowerOfTwo {s : State} {c : CacheId} {spec label : Text} {S W B : Nat}
    (hr : s.running = false) (hp : parseSpec spec = some (S, W, B)) (hne : ¬(isPow2 S = true ∧ isPow2 B = true)) :
    execConstruct c spec label s = .fault (.configError .nonPowerOfTwoGeometry) := by
  have hcond : (!isPow2 S || !isPow2 B) = true := by simpa [imp_iff_not_or] using hne
  simp [execConstruct, beforeRun_of_not_running hr, hp, hcond, raiseConfigError]

theorem execConstruct_zeroWays {s : State} {c : CacheId} {spec label : Text} {S B : Nat} (hr : s.running = false)
    (hp : parseSpec spec = some (S, 0, B)) (hS : isPow2 S = true) (hB : isPow2 B = true) :
    execConstruct c spec label s = .fault (.configError .zeroWays) := by
  simp [execConstruct, beforeRun_of_not_running hr, hp, hS, hB, raiseConfigError]

theorem execConstruct_cacheExists {s : State} {c : CacheId} {spec label : Text} {S W B : Nat} (hr : s.running = false)
    (hp : parseSpec spec = some (S, W, B)) (hS : isPow2 S = true) (hB : isPow2 B = true) (hW : 1 ≤ W)
    (hc : s.cache c ≠ none) : execConstruct c spec label s = .refused .cacheExists := by
  obtain ⟨k, hk⟩ := Option.ne_none_iff_exists'.1 hc
  have hW0 : W ≠ 0 := Nat.one_le_iff_ne_zero.1 hW
  simp [execConstruct, beforeRun_of_not_running hr, hp, hS, hB, hW0, hk]

/-- Settles O9: the checks of `construct` in their order, with the powers of two by their exponents. -/
theorem constructChecksThenBuilds : Obligations.ConstructChecksThenBuilds := by
  intro s c spec label hr
  refine ⟨execConstruct_malformed hr, fun S W B hp => ?_⟩
  simp only [← isPow2_iff]
  refine ⟨execConstruct_nonPowerOfTwo hr hp, fun hS hB hW => ?_, fun hS hB hW hc => ?_,
    execConstruct_cacheExists hr hp⟩
  · subst hW
    exact execConstruct_zeroWays hr hp hS hB
  · exact ⟨_, execConstruct_of_good hr hc hp hS hB hW, rfl, rfl, rfl, rfl, rfl, rfl, rfl, Cache.fresh_line S W B label⟩

/-! ### `attach` -/

section
variable {s : State} {lower upper : CacheId} {k ku : Cache} (hr : s.running = false) (hl : s.cache lower = some k)
  (hu : s.cache upper = some ku)
include hr hl hu

theorem execAttach_cyclic (hcyc : chainReaches s maxLevels upper lower = true) :
    execAttach lower upper s = .refused .cyclicAttach := by
  simp [execAttach, beforeRun_of_not_running hr, hl, hu, hcyc]

/-- A cache that the walk from `upper` does not find is another one than `upper` (40_cache.md R113 step 1). -/
theorem execAttach_unreached (hcyc : chainReaches s maxLevels upper lower = false) :
    execAttach lower upper s =
      if k.next ≠ none then .refused .alreadyAttached
      else if k.accesses ≠ 0 then .refused .attachAfterAccess
      else .next ((s.setCache lower { k with next := some upper }).withRet .nothing) := by
  have hne : upper ≠ lower := by
    rintro rfl
    simp [chainReaches, maxLevels] at hcyc
  simp [execAttach, beforeRun_of_not_running hr, hl, hu, hcyc, hne]

end

/-- Settles O11: on chains that end the walk finds what is reached, and decides the first check. -/
theorem attachLinksOrRefuses : Obligations.AttachLinksOrRefuses := by
  intro s lower upper k ku hr hchains hl hu
  have hiff := chainReaches_iff (d := lower) (hchains upper (by rw [hu]; rfl))
  have hunreached (hn : ¬NextReaches s upper lower) :=
    execAttach_unreached hr hl hu (Bool.eq_false_of_not_eq_true (hn ∘ hiff.1))
  refine ⟨fun h => execAttach_cyclic hr hl hu (hiff.2 h), fun h hn => ?_, fun h hn ha => ?_, fun h hn ha => ?_⟩
  · exact (hunreached h).trans (if_pos hn)
  · exact (hunreached h).trans ((if_neg (not_not.2 hn)).trans (if_pos ha))
  · exact (hunreached h).trans ((if_neg (not_not.2 hn)).trans (if_neg (not_not.2 ha)))

/-! ### `register` -/

theorem execRegister_l2 {s : State} (h : Nat) (hr : s.running = false) :
    execRegister h .l2 s = .refused .notATracer := by
  simp [execRegister, beforeRun_of_not_running hr]

/-- `register` of a built L1 on a hart that exists (40_cache.md R115). -/
theorem execRegister_of_built {s : State} {h : Nat} {c : CacheId} {cs : List CacheId} (hr : s.running = false)
    (hcs : s.tracers[h]? = some cs) (hne : c ≠ .l2) (hc : (s.cache c).isSome = true) :
    execRegister h c s =
      if c ∈ cs then .refused .alreadyRegistered else .next ((s.setTracers h (cs ++ [c])).withRet .nothing) := by
  obtain ⟨k, hk⟩ := Option.isSome_iff_exists.1 hc
  simp [execRegister, beforeRun_of_not_running hr, hne, hcs, hk]

theorem execRegister_noSuchHart {s : State} {h : Nat} {c : CacheId} (hr : s.running = false) (hne : c ≠ .l2)
    (hcs : s.tracers[h]? = none) : execRegister h c s = .refused .noSuchHart := by
  simp [execRegister, beforeRun_of_not_running hr, hne, hcs]

theorem execRegister_noSuchCache {s : State} {h : Nat} {c : CacheId} {cs : List CacheId} (hr : s.running = false)
    (hcs : s.tracers[h]? = some cs) (hne : c ≠ .l2) (hc : s.cache c = none) :
    execRegister h c s = .refused .noSuchCache := by
  simp [execRegister, beforeRun_of_not_running hr, hne, hcs, hc]

/-- Settles O12: the checks of `register` in their order. -/
theorem registerAppendsOnce : Obligations.RegisterAppendsOnce := by
  refine ⟨fun s h t ts hr hts hne hc hmem => ?_, fun s h t ts hr hts hne hc hmem => ?_,
    fun s h hr => execRegister_l2 h hr, fun s h t hr hne hts => execRegister_noSuchHart hr hne hts,
    fun s h t ts hr hts hne hc => execRegister_noSuchCache hr hts hne hc⟩
  · exact (execRegister_of_built hr hts hne hc).trans (if_neg hmem)
  · exact (execRegister_of_built hr hts hne hc).trans (if_pos hmem)

/-! ### Sequences of building calls -/

/-- The inputs `xs`, taken first, lead from `s` to `t` (20_memory.md R72). -/
def LeadsTo (xs : List Input) (s t : State) : Prop :=
  ∀ rest, run xs.length (s.withInputs (xs ++ rest)) = .next (t.withInputs rest)

theorem run_add (m n : Nat) (s : State) : run (m + n) s = andThen (run m s) (run n) := by
  induction m generalizing s with
  | zero => rw [Nat.zero_add]; rfl
  | succ m ih =>
    rw [Nat.succ_add, run, run]
    cases step s with
    | next t => exact ih t
    | fault | refused => rfl

theorem LeadsTo.nil (s : State) : LeadsTo [] s s := fun _ => rfl

theorem LeadsTo.append {xs ys : List Input} {s t u : State} (h : LeadsTo xs s t) (h' : LeadsTo ys t u) :
    LeadsTo (xs ++ ys) s u := by
  intro rest
  rw [List.length_append, run_add, List.append_assoc, h, andThen_next, h']

theorem LeadsTo.cons {x : Input} {xs : List Input} {s t u : State} (h : LeadsTo [x] s t) (h' : LeadsTo xs t u) :
    LeadsTo (x :: xs) s u := h.append h'

/-- A building call is executed in the state with the input taken and no run begun (log 15). -/
theorem take_of_isBuilding {x : Input} (hx : isBuilding x = true) (s : State) (rest : List Input) :
    (s.withInputs (x :: rest)).take x rest = s.withInputs rest := by
  have hrun : startsRun x = false := by
    cases x with
    | construct | attach | register => rfl
    | notify | access | stats | clock | byte | connect | disconnect | instrEdge => cases hx
  simp [State.take, State.withInputs, hrun]

theorem leadsTo_of_stepOn {x : Input} {s t : State}
    (h : ∀ rest, stepOn (s.withInputs (x :: rest)) rest x = .next (t.withInputs rest)) : LeadsTo [x] s t := by
  intro rest
  show andThen (step (s.withInputs (x :: rest))) (run 0) = _
  rw [step_eq (State.withInputs_inputs s (x :: rest)), h]
  rfl

theorem leadsTo_construct {s : State} {c : CacheId} {spec label : Text} {S W B : Nat} (hr : s.running = false)
    (hc : s.cache c = none) (hp : parseSpec spec = some (S, W, B)) (hS : isPow2 S = true) (hB : isPow2 B = true)
    (hW : 1 ≤ W) :
    LeadsTo [.construct c spec label] s ((s.setCache c (Cache.fresh S W B label)).withRet (.cache c)) := by
  refine leadsTo_of_stepOn fun rest => ?_
  have hc' : (s.withInputs rest).cache c = none := by simpa using hc
  show execConstruct c spec label ((s.withInputs _).take _ rest) = _
  rw [take_of_isBuilding rfl, execConstruct_of_good (s := s.withInputs rest) hr hc' hp hS hB hW]
  cases c <;> rfl

/-- `attach` of a new L1 to an `L2` that is a last level (40_cache.md R114). -/
theorem leadsTo_attach {s : State} {c : CacheId} {k m : Cache} (hr : s.running = false) (hne : c ≠ .l2)
    (hk : s.cache c = some k) (hn : k.next = none) (ha : k.accesses = 0) (hm : s.cache .l2 = some m)
    (hmn : m.next = none) :
    LeadsTo [.attach c .l2] s ((s.setCache c { k with next := some .l2 }).withRet .nothing) := by
  refine leadsTo_of_stepOn fun rest => ?_
  have hk' : (s.withInputs rest).cache c = some k := by simpa using hk
  have hm' : (s.withInputs rest).cache .l2 = some m := by simpa using hm
  have hcyc : chainReaches (s.withInputs rest) maxLevels .l2 c = false := by
    simp [chainReaches, maxLevels, hm', hmn, Ne.symm hne]
  show execAttach c .l2 ((s.withInputs _).take _ rest) = _
  rw [take_of_isBuilding rfl, execAttach_unreached (s := s.withInputs rest) hr hk' hm' hcyc,
    if_neg (not_not.2 hn), if_neg (not_not.2 ha)]
  cases c <;> rfl

theorem leadsTo_register {s : State} {h : Nat} {c : CacheId} {cs : List CacheId} (hr : s.running = false)
    (hh : h < s.params.nharts) (hcs : s.tracers[h]? = some cs) (hne : c ≠ .l2) (hc : (s.cache c).isSome = true)
    (hmem : c ∉ cs) : LeadsTo [.register h c] s ((s.setTracers h (cs ++ [c])).withRet .nothing) := by
  refine leadsTo_of_stepOn fun rest => ?_
  have hc' : ((s.withInputs rest).cache c).isSome = true := by simpa using hc
  have hguard : h < (s.withInputs (.register h c :: rest)).params.nharts ∧ c ≠ .l2 := ⟨hh, hne⟩
  simp only [stepOn, if_pos hguard]
  rw [take_of_isBuilding rfl, execRegister_of_built (s := s.withInputs rest) hr hcs hne hc', if_neg hmem]
  rfl

/-! ### The orchestrator's caches -/

theorem sameDebugHalf_trans {s t u : State} (h : sameDebugHalf s t) (h' : sameDebugHalf t u) : sameDebugHalf s u := by
  obtain ⟨hp, hth, hbb, hdm, hsent, hin, hrun⟩ := h
  obtain ⟨hp', hth', hbb', hdm', hsent', hin', hrun'⟩ := h'
  exact ⟨hp'.trans hp, hth'.trans hth, hbb'.trans hbb, hdm'.trans hdm, hsent'.trans hsent, hin'.trans hin,
    hrun'.trans hrun⟩

theorem not_running_of_sameDebugHalf {s t : State} (h : sameDebugHalf s t) (hr : s.running = false) :
    t.running = false := by
  obtain ⟨-, -, -, -, -, -, hrun⟩ := h
  exact hrun.trans hr

theorem params_of_sameDebugHalf {s t : State} (h : sameDebugHalf s t) : t.params = s.params := h.1

/-- `t` is `s` with `o` for the cache `c`, up to the returned value. -/
structure Places (c : CacheId) (o : Option Cache) (s t : State) : Prop where
  self : t.cache c = o
  others : ∀ d, d ≠ c → t.cache d = s.cache d
  tracers : t.tracers = s.tracers
  half : sameDebugHalf s t

theorem places_setCache (s : State) (c : CacheId) (k : Cache) (r : Returned) :
    Places c (some k) s ((s.setCache c k).withRet r) where
  self := by simp
  others d hd := by simpa using State.setCache_cache_ne s hd k
  tracers := by simp
  half := by simp [sameDebugHalf]

theorem Places.trans {s t u : State} {c : CacheId} {o o' : Option Cache} (h : Places c o s t) (h' : Places c o' t u) :
    Places c o' s u where
  self := h'.self
  others d hd := (h'.others d hd).trans (h.others d hd)
  tracers := h'.tracers.trans h.tracers
  half := sameDebugHalf_trans h.half h'.half

/-- A good spec string is one that `construct` builds from (60_exceptions.md R222). -/
theorem parseSpec_of_good {t : Text} (h : specError t = none) :
    ∃ S W B, parseSpec t = some (S, W, B) ∧ isPow2 S = true ∧ isPow2 B = true ∧ 1 ≤ W := by
  unfold specError at h
  split at h
  · cases h
  · next S W B hp =>
    split at h
    · cases h
    · next hpow =>
      split at h
      · cases h
      · next hW =>
        simp only [Bool.or_eq_true, Bool.not_eq_true', not_or, Bool.not_eq_false] at hpow
        exact ⟨S, W, B, hp, hpow.1, hpow.2, Nat.one_le_iff_ne_zero.2 hW⟩

/-- One cache of the tree: built from its spec string, if it has one, and attached to an `L2` that exists
(70_reset_and_hazards.md R256 steps 1 to 3). -/
theorem leadsTo_buildL1 {s : State} {c : CacheId} {spec : Option Text} {hasL2 : Bool} (label : Text)
    (hr : s.running = false) (hc : s.cache c = none) (hgood : ∀ t, spec = some t → specError t = none)
    (hl2 : hasL2 = true → c ≠ .l2 ∧ ∃ m, s.cache .l2 = some m ∧ m.next = none) :
    ∃ t, LeadsTo (buildL1 c label spec hasL2) s t ∧
      Places c (builtCache label (if hasL2 then some .l2 else none) spec) s t := by
  cases spec with
  | none => exact ⟨s, .nil s, hc, fun _ _ => rfl, rfl, sameDebugHalf_refl s⟩
  | some text =>
    obtain ⟨S, W, B, hp, hS, hB, hW⟩ := parseSpec_of_good (hgood text rfl)
    have hbuilt (next : Option CacheId) :
        builtCache label next (some text) = some { Cache.fresh S W B label with next := next } := by
      simp [builtCache, hp]
    have hcons := leadsTo_construct (label := label) hr hc hp hS hB hW
    have hplaces := places_setCache s c (Cache.fresh S W B label) (.cache c)
    rw [hbuilt]
    cases hasL2 with
    | false => exact ⟨_, hcons, hplaces⟩
    | true =>
      obtain ⟨hne, m, hm, hmn⟩ := hl2 rfl
      have hm' := (hplaces.others .l2 hne.symm).trans hm
      have hatt := leadsTo_attach (by simpa using hr) hne hplaces.self rfl rfl hm' hmn
      exact ⟨_, hcons.cons hatt, hplaces.trans (places_setCache ..)⟩

/-! ### The orchestrator's tracers -/

/-- `t` is `s` with the tracer lists `ts`, up to the returned value. -/
structure Registers (ts : List (List CacheId)) (s t : State) : Prop where
  tracers : t.tracers = ts
  caches : ∀ d, t.cache d = s.cache d
  half : sameDebugHalf s t

theorem Registers.trans {s t u : State} {ts ts' : List (List CacheId)} (h : Registers ts s t)
    (h' : Registers ts' t u) : Registers ts' s u where
  tracers := h'.tracers
  caches d := (h'.caches d).trans (h.caches d)
  half := sameDebugHalf_trans h.half h'.half

/-- The registration of a cache that may be asked for or not. -/
theorem leadsTo_registerIf {s : State} {h : Nat} {c : CacheId} {cs : List CacheId} (b : Bool)
    (hr : s.running = false) (hh : h < s.params.nharts) (hcs : s.tracers[h]? = some cs) (hne : c ≠ .l2)
    (hc : b = true → (s.cache c).isSome = true) (hmem : c ∉ cs) : ∃ t, LeadsTo (if b then [.register h c] else []) s t ∧
      Registers (s.tracers.set h (cs ++ if b then [c] else [])) s t := by
  cases b with
  | false =>
    refine ⟨s, .nil s, ?_, fun _ => rfl, sameDebugHalf_refl s⟩
    obtain ⟨hlt, rfl⟩ := List.getElem?_eq_some_iff.1 hcs
    simp
  | true => exact ⟨_, leadsTo_register hr hh hcs hne (hc rfl) hmem, rfl, fun d => by simp, by simp [sameDebugHalf]⟩

/-- The tracers of every hart, in their order (70_reset_and_hazards.md R256 step 4). -/
def Plan.tracers (plan : Plan) : List CacheId :=
  (if plan.ic.isSome then [.ic] else []) ++ if plan.dc.isSome then [.dc] else []

theorem leadsTo_registerHart {s : State} {plan : Plan} {h : Nat} (hr : s.running = false) (hh : h < s.params.nharts)
    (hts : s.tracers[h]? = some []) (hic : plan.ic.isSome = true → (s.cache .ic).isSome = true)
    (hdc : plan.dc.isSome = true → (s.cache .dc).isSome = true) :
    ∃ t, LeadsTo (registerHart plan h) s t ∧ Registers (s.tracers.set h plan.tracers) s t := by
  obtain ⟨t, hst, ht⟩ := leadsTo_registerIf plan.ic.isSome hr hh hts (by decide) hic (by simp)
  have hp := params_of_sameDebugHalf ht.half
  have hrt := not_running_of_sameDebugHalf ht.half hr
  have hts' : t.tracers[h]? = some ([] ++ if plan.ic.isSome then [.ic] else []) := by
    rw [ht.tracers]
    exact List.getElem?_set_self (List.getElem?_eq_some_iff.1 hts).1
  obtain ⟨u, htu, hu⟩ := leadsTo_registerIf (c := .dc) plan.dc.isSome hrt (hp ▸ hh) hts' (by decide)
    (by rw [ht.caches]; exact hdc) (by split <;> simp)
  rw [ht.tracers, List.set_set] at hu
  exact ⟨u, hst.append htu, ht.trans hu⟩

/-- The first `n` harts have their tracers, the others none yet. -/
theorem leadsTo_registerHarts {s : State} {plan : Plan} {n : Nat} (hr : s.running = false) (hn : n ≤ s.params.nharts)
    (hts : s.tracers = List.replicate s.params.nharts [])
    (hic : plan.ic.isSome = true → (s.cache .ic).isSome = true)
    (hdc : plan.dc.isSome = true → (s.cache .dc).isSome = true) :
    ∃ t, LeadsTo ((List.range n).flatMap (registerHart plan)) s t ∧
      Registers (List.replicate n plan.tracers ++ List.replicate (s.params.nharts - n) []) s t := by
  induction n with
  | zero => exact ⟨s, .nil s, by simpa using hts, fun _ => rfl, sameDebugHalf_refl s⟩
  | succ n ih =>
    obtain ⟨t, hst, ht⟩ := ih (Nat.le_of_succ_le hn)
    have hp := params_of_sameDebugHalf ht.half
    have hrt := not_running_of_sameDebugHalf ht.half hr
    have hsplit : List.replicate (s.params.nharts - n) ([] : List CacheId) =
        [] :: List.replicate (s.params.nharts - (n + 1)) [] := by
      rw [← List.replicate_succ]
      congr 1
      omega
    have htn := ht.tracers
    rw [hsplit] at htn
    obtain ⟨u, htu, hu⟩ := leadsTo_registerHart (plan := plan) (h := n) hrt (hp ▸ hn) (by simp [htn])
      (by rw [ht.caches]; exact hic) (by rw [ht.caches]; exact hdc)
    refine ⟨u, ?_, ?_⟩
    · rw [List.range_succ, List.flatMap_append, List.flatMap_singleton]
      exact hst.append htu
    · have hset : t.tracers.set n plan.tracers =
          List.replicate (n + 1) plan.tracers ++ List.replicate (s.params.nharts - (n + 1)) [] := by
        rw [htn, List.replicate_succ', List.append_assoc]
        simp
      exact hset ▸ ht.trans hu

/-! ### The orchestrator's tree -/

/-- `L2` is built as an L1 with nothing below it (70_reset_and_hazards.md R256 step 1). -/
theorem bootInputs_eq (p : Params) (plan : Plan) : bootInputs p plan =
    buildL1 .l2 "L2$".toList plan.l2 false ++ buildL1 .ic "I$".toList plan.ic plan.l2.isSome ++
      buildL1 .dc "D$".toList plan.dc plan.l2.isSome ++ (List.range p.nharts).flatMap (registerHart plan) := by
  unfold bootInputs
  cases plan.l2 <;> rfl

/-- Every cache asked for with a good spec string is built (40_cache.md R114). -/
theorem exists_builtCache {label : Text} {next : Option CacheId} {spec : Option Text} (hs : spec.isSome = true)
    (hgood : ∀ t, spec = some t → specError t = none) : ∃ m, builtCache label next spec = some m ∧ m.next = next := by
  obtain ⟨t, rfl⟩ := Option.isSome_iff_exists.1 hs
  obtain ⟨S, W, B, hp, -⟩ := parseSpec_of_good (hgood t rfl)
  exact ⟨{ Cache.fresh S W B label with next := next }, by simp [builtCache, hp], rfl⟩

/-- The caches of the tree, each L1 attached to an `L2` that exists (70_reset_and_hazards.md R256 steps 1 to 3). -/
theorem leadsTo_caches {s : State} {plan : Plan} (hr : s.running = false) (hnone : ∀ c, s.cache c = none)
    (hgood : ∀ t, plan.l2 = some t ∨ plan.ic = some t ∨ plan.dc = some t → specError t = none) :
    ∃ t, LeadsTo (buildL1 .l2 "L2$".toList plan.l2 false ++ buildL1 .ic "I$".toList plan.ic plan.l2.isSome ++
        buildL1 .dc "D$".toList plan.dc plan.l2.isSome) s t ∧
      t.l2 = builtCache "L2$".toList none plan.l2 ∧
      t.ic = builtCache "I$".toList (if plan.l2.isSome then some .l2 else none) plan.ic ∧
      t.dc = builtCache "D$".toList (if plan.l2.isSome then some .l2 else none) plan.dc ∧
      t.tracers = s.tracers ∧ sameDebugHalf s t := by
  have hgoodL2 (x : Text) (h : plan.l2 = some x) : specError x = none := hgood x (.inl h)
  have hgoodIc (x : Text) (h : plan.ic = some x) : specError x = none := hgood x (.inr (.inl h))
  have hgoodDc (x : Text) (h : plan.dc = some x) : specError x = none := hgood x (.inr (.inr h))
  obtain ⟨t, hst, ht⟩ := leadsTo_buildL1 (hasL2 := false) "L2$".toList hr (hnone .l2) hgoodL2 nofun
  have hlast (hs : plan.l2.isSome = true) : ∃ m, t.cache .l2 = some m ∧ m.next = none := by
    rw [ht.self]
    exact exists_builtCache hs hgoodL2
  have hrt := not_running_of_sameDebugHalf ht.half hr
  obtain ⟨u, htu, hu⟩ := leadsTo_buildL1 (hasL2 := plan.l2.isSome) "I$".toList hrt
    ((ht.others .ic (by decide)).trans (hnone .ic)) hgoodIc fun hs => ⟨by decide, hlast hs⟩
  have hul2 : u.cache .l2 = t.cache .l2 := hu.others .l2 (by decide)
  have hudc : u.cache .dc = none := ((hu.others .dc (by decide)).trans (ht.others .dc (by decide))).trans (hnone .dc)
  obtain ⟨v, huv, hv⟩ := leadsTo_buildL1 (hasL2 := plan.l2.isSome) "D$".toList
    (not_running_of_sameDebugHalf hu.half hrt) hudc hgoodDc fun hs => ⟨by decide, hul2 ▸ hlast hs⟩
  exact ⟨v, (hst.append htu).append huv, ((hv.others .l2 (by decide)).trans hul2).trans ht.self,
    (hv.others .ic (by decide)).trans hu.self, hv.self, (hv.tracers.trans hu.tracers).trans ht.tracers,
    sameDebugHalf_trans ht.half (sameDebugHalf_trans hu.half hv.half)⟩

/-- Settles O13: the three caches one after the other, then the tracers hart by hart. -/
theorem bootBuildsTheTree : Obligations.BootBuildsTheTree := by
  intro p plan _ hgood
  obtain ⟨t, hst, hl2, hic, hdc, htr, hhalf⟩ :=
    leadsTo_caches (s := State.init p) rfl (fun c => by cases c <;> rfl) hgood
  have htp : t.params = p := params_of_sameDebugHalf hhalf
  have hicSome (hs : plan.ic.isSome = true) : (t.cache .ic).isSome = true := by
    obtain ⟨k, hk, -⟩ := exists_builtCache hs fun x hx => hgood x (.inr (.inl hx))
    rw [State.cache_ic, hic, hk]
    rfl
  have hdcSome (hs : plan.dc.isSome = true) : (t.cache .dc).isSome = true := by
    obtain ⟨k, hk, -⟩ := exists_builtCache hs fun x hx => hgood x (.inr (.inr hx))
    rw [State.cache_dc, hdc, hk]
    rfl
  obtain ⟨u, htu, hu⟩ := leadsTo_registerHarts (not_running_of_sameDebugHalf hhalf rfl) (Nat.le_refl _)
    (htp.symm ▸ htr) hicSome hdcSome
  obtain ⟨hp, hth, hbb, hdm, hsent, -, hrun⟩ := sameDebugHalf_trans hhalf hu.half
  have hboot : boot p plan = .next (u.withInputs []) := by
    have h := (hst.append htu) []
    rwa [List.append_nil, htp, ← bootInputs_eq] at h
  refine ⟨u.withInputs [], hboot, hp, (hu.caches .l2).trans hl2, (hu.caches .ic).trans hic, (hu.caches .dc).trans hdc,
    ?_, hth, hbb, hdm, hsent, rfl, hrun⟩
  rw [State.withInputs_tracers, hu.tracers, htp, Nat.sub_self, List.replicate_zero, List.append_nil]
  rfl

end Sys2Proof.Machine

/-! PROOFS. The LRU law: the stamps of a cache are the times of the last accesses of its blocks, and a block is gone
from its set when every line there was accessed later. -/

namespace Sys2Proof.Machine

variable {k : Cache} {a b : Addr}

/-! ### Blocks -/

@[simp] theorem Cache.touch_index (x : Addr) : (k.touch a).1.index x = k.index x := by simp [Cache.index]

@[simp] theorem Cache.touch_tag (x : Addr) : (k.touch a).1.tag x = k.tag x := by simp [Cache.tag]

@[simp] theorem Cache.touch_block (x : Addr) : (k.touch a).1.block x = k.block x := by simp [Cache.block]

/-- The number of the block at a set index and tag (30_encoding.md R84). -/
def Cache.blockOf (k : Cache) (i t : Nat) : Nat := t * k.sets + i

theorem Cache.blockOf_index_tag (k : Cache) (a : Addr) : k.blockOf (k.index a) (k.tag a) = k.block a := by
  rw [Cache.blockOf, Cache.index_eq_block_mod, Cache.tag_eq_block_div, Nat.div_add_mod']

/-- A block is in the cache when a valid line of its set has its tag (40_cache.md R119). -/
theorem Cache.isSome_lookup_iff (h : k.Inv) : (k.lookup a).isSome = true ↔
    ∃ w, (k.line (k.index a) w).valid = true ∧ (k.line (k.index a) w).tag = k.tag a := by
  constructor
  · intro hl
    obtain ⟨w, hw⟩ := Option.isSome_iff_exists.1 hl
    exact ⟨w, (Cache.lookup_some h hw).2⟩
  · rintro ⟨w, hv, ht⟩
    rw [Cache.lookup_eq_some h hv ht]
    rfl

/-- Each valid line has a block of its own. -/
theorem Cache.blockOf_injOn (h : k.Inv) (i : Nat) {w w' : Nat} (hv : (k.line i w).valid = true)
    (hv' : (k.line i w').valid = true) (he : k.blockOf i (k.line i w).tag = k.blockOf i (k.line i w').tag) : w = w' :=
  h.tagsDiffer i w w' hv hv' (Nat.eq_of_mul_eq_mul_right (isPow2_pos h.setsPow2) (Nat.add_right_cancel he))

/-- A line with a stamp is valid (10_state.md R32 (ii)). -/
theorem Cache.valid_of_stamp_pos (h : k.Inv) {i w : Nat} (hpos : 0 < (k.line i w).lastUsed) :
    (k.line i w).valid = true := by
  by_contra hv
  rw [(h.invalidZero i w (Bool.eq_false_of_not_eq_true hv)).1] at hpos
  exact Nat.lt_irrefl 0 hpos

/-- A valid victim is older than every other line of its set, since the stamps differ (40_cache.md R121). -/
theorem Cache.victim_lastUsed_lt (h : k.Inv) (i : Nat) (hv : (k.line i (victimWay (k.set i))).valid = true) {w : Nat}
    (hw : w < k.ways) (hne : w ≠ victimWay (k.set i)) :
    (k.line i (victimWay (k.set i))).lastUsed < (k.line i w).lastUsed := by
  have hle : (k.line i (victimWay (k.set i))).lastUsed ≤ (k.line i w).lastUsed :=
    victimWay_le (Cache.set_length h i ▸ hw)
  have hvw := Cache.valid_of_stamp_pos h (Nat.lt_of_lt_of_le (h.validStamp _ _ hv).1 hle)
  exact Nat.lt_of_le_of_ne hle fun he => hne (h.stampsDiffer _ _ _ _ hvw hv he.symm).2

/-- An access writes one line, which then has its tag and the new stamp: the line of its block, or else the line of the
smallest stamp (40_cache.md R120, R121). -/
theorem Cache.touch_line (h : k.Inv) (a : Addr) : ∃ v < k.ways,
    (∀ i j, (k.touch a).1.line i j =
      if i = k.index a ∧ j = v then ⟨true, k.tag a, k.accesses + 1⟩ else k.line i j) ∧
    (∀ w, (k.line (k.index a) w).valid = true → (k.line (k.index a) w).tag = k.tag a → w = v) ∧
    ((k.line (k.index a) v).valid = true → (k.line (k.index a) v).tag ≠ k.tag a →
      ∀ w < k.ways, w ≠ v → (k.line (k.index a) v).lastUsed < (k.line (k.index a) w).lastUsed) := by
  rcases k.touch_cases a with ⟨v, hl, ht⟩ | ⟨hl, ht⟩
  · obtain ⟨hv, hvalid, htag⟩ := Cache.lookup_some h hl
    have hown w (hw : (k.line (k.index a) w).valid = true) (hwt : (k.line (k.index a) w).tag = k.tag a) : w = v :=
      h.tagsDiffer _ w v hw hvalid (hwt.trans htag.symm)
    refine ⟨v, hv, fun i j => ?_, hown, fun _ hne => absurd htag hne⟩
    simp only [ht, Cache.line_hitAt h hv, hvalid, htag]
  · refine ⟨victimWay (k.set (k.index a)), Cache.victim_lt h _, fun i j => ?_,
      fun w hw hwt => absurd hwt (Cache.lookup_none hl w hw), fun hvalid _ _ => Cache.victim_lastUsed_lt h _ hvalid⟩
    rw [ht, Cache.line_install h]

/-- A block that an access leaves out of the cache is not the one it accessed (40_cache.md R120, R121). -/
theorem Cache.block_ne_of_touch (h : k.Inv) (hno : ((k.touch b).1.lookup a).isSome = false) :
    k.block b ≠ k.block a := by
  intro he
  obtain ⟨hi, ht⟩ := (k.block_eq_iff a b).2 he
  obtain ⟨v, -, hline, -⟩ := Cache.touch_line h b
  rw [(Cache.isSome_lookup_iff (Cache.touch_inv h b)).2 ⟨v, by simp [hline, hi], by simp [hline, hi, ht]⟩] at hno
  cases hno

/-! ### The time of the last access -/

/-- When the block of `a` was last accessed, counting accesses from 1; 0 if it never was. -/
def Cache.lastTime (k : Cache) (history : List Addr) (a : Addr) : Nat :=
  history.length - (sinceLast k history a).length

theorem sinceLast_append_singleton (history : List Addr) :
    sinceLast k (history ++ [b]) a = if k.block b = k.block a then [] else b :: sinceLast k history a := by
  rw [sinceLast, List.reverse_append, List.reverse_singleton, List.singleton_append, List.takeWhile_cons]
  by_cases h : k.block b = k.block a <;> simp [h, sinceLast]

theorem Cache.lastTime_le (history : List Addr) : k.lastTime history a ≤ history.length := Nat.sub_le _ _

@[simp] theorem Cache.lastTime_nil : k.lastTime [] a = 0 := rfl

theorem Cache.lastTime_append_singleton (history : List Addr) :
    k.lastTime (history ++ [b]) a = if k.block b = k.block a then history.length + 1 else k.lastTime history a := by
  simp only [Cache.lastTime, sinceLast_append_singleton]
  split <;> simp

theorem Cache.lastTime_congr {a' : Addr} (h : k.block a' = k.block a) (history : List Addr) :
    k.lastTime history a' = k.lastTime history a := by
  simp [Cache.lastTime, sinceLast, h]

@[simp] theorem Cache.lastTime_touch (history : List Addr) (x : Addr) :
    (k.touch b).1.lastTime history x = k.lastTime history x := by
  simp [Cache.lastTime, sinceLast]

theorem Cache.lastTime_pos_iff (history : List Addr) :
    0 < k.lastTime history a ↔ ∃ x ∈ history, k.block x = k.block a := by
  induction history using List.reverseRecOn with
  | nil => simp
  | append_singleton history b ih =>
    rw [Cache.lastTime_append_singleton]
    by_cases hb : k.block b = k.block a
    · simp [hb]
    · simp [hb, ih]

/-- The blocks accessed since the last access to the block of `a` are those accessed later than it. -/
theorem Cache.lastTime_lt_iff (history : List Addr) {c : Addr} :
    k.lastTime history a < k.lastTime history c ↔ ∃ x ∈ sinceLast k history a, k.block x = k.block c := by
  induction history using List.reverseRecOn with
  | nil => simp [sinceLast]
  | append_singleton history b ih =>
    rw [Cache.lastTime_append_singleton, Cache.lastTime_append_singleton, sinceLast_append_singleton]
    have hle := k.lastTime_le (a := c) history
    have hla := k.lastTime_le (a := a) history
    by_cases hba : k.block b = k.block a
    · simp only [if_pos hba, List.not_mem_nil, false_and, exists_false, iff_false, Nat.not_lt]
      split <;> omega
    · rw [if_neg hba, if_neg hba, List.exists_mem_cons_iff]
      by_cases hbc : k.block b = k.block c
      · rw [if_pos hbc]
        exact iff_of_true (Nat.lt_succ_of_le hla) (.inl hbc)
      · rw [if_neg hbc, ih, or_iff_right hbc]

/-! ### Stamps and recency -/

/-- The cache `k` after the accesses of `history`: a valid line has the last access of its block for its stamp, and
every line of the set of a block that was accessed and is gone has a later one (10_state.md R28, 40_cache.md R121). -/
structure Cache.Recency (k : Cache) (history : List Addr) : Prop where
  inv : k.Inv
  accesses : k.accesses = history.length
  stamps : ∀ i w, (k.line i w).valid = true →
    ∃ x, k.index x = i ∧ k.tag x = (k.line i w).tag ∧ (k.line i w).lastUsed = k.lastTime history x
  gone : ∀ a, (k.lookup a).isSome = false → 0 < k.lastTime history a →
    ∀ w < k.ways, k.lastTime history a < (k.line (k.index a) w).lastUsed

/-- The stamp of the line that holds a block. -/
theorem Cache.Recency.stamp_eq {history : List Addr} (h : k.Recency history) {w : Nat}
    (hv : (k.line (k.index a) w).valid = true) (ht : (k.line (k.index a) w).tag = k.tag a) :
    (k.line (k.index a) w).lastUsed = k.lastTime history a := by
  obtain ⟨x, hi, hxt, hstamp⟩ := h.stamps _ w hv
  rw [hstamp, Cache.lastTime_congr ((k.block_eq_iff a x).1 ⟨hi, hxt.trans ht⟩)]

theorem Cache.recency_fresh {S W B : Nat} (label : Text) (hS : isPow2 S = true) (hB : isPow2 B = true) (hW : 1 ≤ W) :
    (Cache.fresh S W B label).Recency [] where
  inv := Cache.fresh_inv label hS hB hW
  accesses := rfl
  stamps i w hv := by rw [Cache.fresh_line] at hv; cases hv
  gone a _ hpos := absurd hpos (Nat.lt_irrefl 0)

/-- The access that takes a block away wrote its line, which had the smallest stamp of the set. -/
theorem Cache.lastUsed_lt_of_evicted (h : k.Inv) {w₀ : Nat} (hv : (k.line (k.index a) w₀).valid = true)
    (ht : (k.line (k.index a) w₀).tag = k.tag a) (hno : ((k.touch b).1.lookup a).isSome = false) {w : Nat}
    (hw : w < k.ways) : (k.line (k.index a) w₀).lastUsed < ((k.touch b).1.line (k.index a) w).lastUsed := by
  obtain ⟨v, -, hline, -, hleast⟩ := Cache.touch_line h b
  rw [hline]
  split
  · exact Nat.lt_succ_of_le (Cache.lastUsed_le_accesses h _ _)
  · next hiw =>
    have hnot (hline₀ : (k.touch b).1.line (k.index a) w₀ = k.line (k.index a) w₀) : False := by
      rw [(Cache.isSome_lookup_iff (Cache.touch_inv h b)).2 ⟨w₀, by simp [hline₀, hv], by simp [hline₀, ht]⟩] at hno
      cases hno
    have hvictim : k.index a = k.index b ∧ w₀ = v := by
      by_contra hne
      exact hnot (by rw [hline, if_neg hne])
    obtain ⟨hi, rfl⟩ := hvictim
    have hba : k.tag a ≠ k.tag b := fun hab =>
      Cache.block_ne_of_touch h hno ((k.block_eq_iff a b).1 ⟨hi.symm, hab.symm⟩)
    rw [hi] at hv ht hiw ⊢
    exact hleast hv (ht.symm ▸ hba) w hw fun hww => hiw ⟨rfl, hww⟩

/-- One more access stamps the line of its block. -/
theorem Cache.Recency.stamps_touch {history : List Addr} (h : k.Recency history) (b : Addr) {i w : Nat}
    (hvalid : ((k.touch b).1.line i w).valid = true) :
    ∃ x, k.index x = i ∧ k.tag x = ((k.touch b).1.line i w).tag ∧
      ((k.touch b).1.line i w).lastUsed = k.lastTime (history ++ [b]) x := by
  obtain ⟨v, -, hline, hown, -⟩ := Cache.touch_line h.inv b
  rw [hline] at hvalid ⊢
  split at hvalid
  · next hiw =>
    rw [if_pos hiw]
    exact ⟨b, hiw.1.symm, rfl, by rw [Cache.lastTime_append_singleton, if_pos rfl, h.accesses]⟩
  · next hiw =>
    rw [if_neg hiw]
    obtain ⟨x, rfl, htag, hstamp⟩ := h.stamps i w hvalid
    refine ⟨x, rfl, htag, hstamp.trans ?_⟩
    rw [Cache.lastTime_append_singleton, if_neg]
    intro he
    obtain ⟨hi, ht⟩ := (k.block_eq_iff x b).2 he
    rw [← hi] at hvalid htag hiw
    exact hiw ⟨rfl, hown w hvalid (htag.symm.trans ht.symm)⟩

/-- One more access leaves later stamps where a block is gone. -/
theorem Cache.Recency.gone_touch {history : List Addr} (h : k.Recency history) (b : Addr)
    (hno : ((k.touch b).1.lookup a).isSome = false) (hpos : 0 < k.lastTime (history ++ [b]) a) {w : Nat}
    (hw : w < k.ways) : k.lastTime (history ++ [b]) a < ((k.touch b).1.line (k.index a) w).lastUsed := by
  rw [Cache.lastTime_append_singleton, if_neg (Cache.block_ne_of_touch h.inv hno)] at hpos ⊢
  cases hl : (k.lookup a).isSome with
  | true =>
    obtain ⟨w₀, hv, ht⟩ := (Cache.isSome_lookup_iff h.inv).1 hl
    rw [← h.stamp_eq hv ht]
    exact Cache.lastUsed_lt_of_evicted h.inv hv ht hno hw
  | false =>
    obtain ⟨v, -, hline, -⟩ := Cache.touch_line h.inv b
    rw [hline]
    split
    · exact Nat.lt_succ_of_le (h.accesses ▸ Cache.lastTime_le history)
    · exact h.gone a hl hpos w hw

theorem Cache.Recency.touch {history : List Addr} (h : k.Recency history) (b : Addr) :
    (k.touch b).1.Recency (history ++ [b]) where
  inv := Cache.touch_inv h.inv b
  accesses := by simp [h.accesses]
  stamps i w hv := by simpa using h.stamps_touch b hv
  gone a hno hpos w hw := by
    rw [Cache.lastTime_touch] at hpos ⊢
    rw [Cache.touch_index]
    exact h.gone_touch b hno hpos (by simpa using hw)

/-- The stamps after any sequence of accesses. -/
theorem Cache.Recency.touchAll {history : List Addr} (h : k.Recency history) (later : List Addr) :
    (k.touchAll later).Recency (history ++ later) := by
  induction later generalizing k history with
  | nil => rwa [List.append_nil]
  | cons b later ih =>
    rw [List.append_cons]
    exact ih (h.touch b)

/-! ### The law -/

/-- The blocks that R127 (ii) counts. -/
def Cache.othersSince (k : Cache) (history : List Addr) (a : Addr) : List Nat :=
  ((sinceLast k history a).filter fun x => k.index x == k.index a).map k.block

theorem Cache.mem_othersSince {history : List Addr} {x : Addr} (hi : k.index x = k.index a) :
    k.block x ∈ k.othersSince history a ↔ k.lastTime history a < k.lastTime history x := by
  rw [Cache.lastTime_lt_iff]
  simp only [Cache.othersSince, List.mem_map, List.mem_filter, beq_iff_eq]
  constructor
  · rintro ⟨y, ⟨hy, -⟩, hb⟩
    exact ⟨y, hy, hb⟩
  · rintro ⟨y, hy, hb⟩
    exact ⟨y, ⟨hy, ((k.block_eq_iff x y).2 hb).1.trans hi⟩, hb⟩

/-- A block that is held: every other block of its set accessed since is held by another way, so there are fewer of them
than ways. -/
theorem Cache.Recency.othersSince_lt_of_held {history : List Addr} (h : k.Recency history) {w : Nat}
    (hv : (k.line (k.index a) w).valid = true) (ht : (k.line (k.index a) w).tag = k.tag a) :
    (k.othersSince history a).dedup.length < k.ways := by
  have hw := Cache.way_lt_of_valid h.inv hv
  have hstamp := h.stamp_eq hv ht
  have hsub : (k.othersSince history a).toFinset ⊆
      ((Finset.range k.ways).erase w).image fun j => k.blockOf (k.index a) (k.line (k.index a) j).tag := by
    intro n hn
    obtain ⟨x, hx, rfl⟩ := List.mem_map.1 (List.mem_toFinset.1 hn)
    have hi : k.index x = k.index a := by simpa using (List.mem_filter.1 hx).2
    have hlt := (Cache.mem_othersSince hi).1 (List.mem_toFinset.1 hn)
    have hheld : (k.lookup x).isSome = true := by
      by_contra hno
      have hgone := h.gone x (Bool.eq_false_of_not_eq_true hno) (Nat.zero_lt_of_lt hlt) w hw
      rw [hi, hstamp] at hgone
      exact Nat.lt_asymm hlt hgone
    obtain ⟨j, hvj, htj⟩ := (Cache.isSome_lookup_iff h.inv).1 hheld
    have hsj := h.stamp_eq hvj htj
    rw [← Cache.blockOf_index_tag k x, ← htj, hi]
    rw [hi] at hvj hsj
    refine Finset.mem_image_of_mem _ (Finset.mem_erase.2 ⟨?_, Finset.mem_range.2 (Cache.way_lt_of_valid h.inv hvj)⟩)
    rintro rfl
    exact Nat.lt_irrefl _ (hstamp ▸ hsj ▸ hlt)
  rw [← List.card_toFinset]
  calc (k.othersSince history a).toFinset.card ≤ ((Finset.range k.ways).erase w).card :=
        (Finset.card_le_card hsub).trans Finset.card_image_le
    _ < k.ways := by
        rw [Finset.card_erase_of_mem (Finset.mem_range.2 hw), Finset.card_range]
        exact Nat.sub_one_lt_of_lt hw

/-- A block that is gone: every way of its set holds a block accessed since, each another one. -/
theorem Cache.Recency.le_othersSince_of_gone {history : List Addr} (h : k.Recency history)
    (hno : (k.lookup a).isSome = false) (hpos : 0 < k.lastTime history a) :
    k.ways ≤ (k.othersSince history a).dedup.length := by
  have hvalid : ∀ w < k.ways, (k.line (k.index a) w).valid = true := fun w hw =>
    Cache.valid_of_stamp_pos h.inv (Nat.zero_lt_of_lt (h.gone a hno hpos w hw))
  have hmem : ∀ w ∈ Finset.range k.ways,
      k.blockOf (k.index a) (k.line (k.index a) w).tag ∈ (k.othersSince history a).toFinset := by
    intro w hw
    have hw := Finset.mem_range.1 hw
    obtain ⟨x, hi, htag, hstamp⟩ := h.stamps _ w (hvalid w hw)
    rw [← htag, ← hi, Cache.blockOf_index_tag, List.mem_toFinset, Cache.mem_othersSince hi, ← hstamp]
    exact h.gone a hno hpos w hw
  have hcard := Finset.card_le_card_of_injOn _ hmem fun w hw w' hw' he =>
    Cache.blockOf_injOn h.inv _ (hvalid w (by simpa using hw)) (hvalid w' (by simpa using hw')) he
  rwa [Finset.card_range, List.card_toFinset] at hcard

/-- The LRU law of a cache whose stamps are those of its history (40_cache.md R127). -/
theorem Cache.Recency.isSome_lookup_iff {history : List Addr} (h : k.Recency history) (a : Addr) :
    (k.lookup a).isSome = true ↔ lruHits k history a := by
  rw [lruHits, ← Cache.lastTime_pos_iff]
  constructor
  · intro hl
    obtain ⟨w, hv, ht⟩ := (Cache.isSome_lookup_iff h.inv).1 hl
    refine ⟨?_, h.othersSince_lt_of_held hv ht⟩
    rw [← h.stamp_eq hv ht]
    exact (h.inv.validStamp _ _ hv).1
  · rintro ⟨hpos, hlt⟩
    by_contra hno
    exact Nat.not_le_of_lt hlt (h.le_othersSince_of_gone (Bool.eq_false_of_not_eq_true hno) hpos)

theorem lruHits_touchAll (history later : List Addr) :
    lruHits (k.touchAll later) history a ↔ lruHits k history a := by
  induction later generalizing k with
  | nil => rfl
  | cons b later ih =>
    refine (ih (k := (k.touch b).1)).trans ?_
    have hblock : (k.touch b).1.block = k.block := funext Cache.touch_block
    simp [lruHits, sinceLast, hblock]

/-- Settles O26: the stamps of a fresh cache are those of its history, and each access keeps them so. -/
theorem hitsAreExactlyLeastRecentlyUsed : Obligations.HitsAreExactlyLeastRecentlyUsed := by
  intro S W B label history a hS hB hW
  have h : ((Cache.fresh S W B label).touchAll history).Recency history :=
    (Cache.recency_fresh label hS hB hW).touchAll history
  rw [Cache.touch_snd, h.isSome_lookup_iff, lruHits_touchAll]

end Sys2Proof.Machine

/-! PROOFS. The TAP's state machine: its rows are the one operation `clock`, its next state is that of the table of R90,
a run of a client's edges is a bare TAP driven with them, and five edges with `tms = 1` reset it. -/

namespace Sys2Proof.Machine

/-! ### The rows of an edge -/

/-- Settles O30: each row carries the actions that R150 gives its (state, tms) pair. -/
theorem clockRowsAreTheClockOperation : Obligations.ClockRowsAreTheClockOperation :=
  fun _ tms tdi hs => exec_selectedClock hs tms tdi

/-- An edge row that answers moves the TAP along the table of 30_encoding.md R90. -/
theorem exec_selectedClock_state {s t : State} {tms tdi : Bool}
    (h : exec (decodeClock s.tap.state tms tdi) s = .next t) : t.tap.state = nextTap s.tap.state tms := by
  rw [exec_selectedClock (isSome_of_exec_decodeClock h)] at h
  cases h
  exact clock_state s tms tdi

/-- Settles O41: the next state is read from the table of R90, which knows the state and `tms` alone. -/
theorem nextStateDependsOnStateAndTms : Obligations.NextStateDependsOnStateAndTms := by
  intro s s' t t' tms tdi tdi' hst ht ht'
  rw [exec_selectedClock_state ht, exec_selectedClock_state ht', hst]

/-! ### Steps with an edge -/

/-- A client's edge is a bare edge (41_tap_fsm.md R150, 43_remote_bitbang.md R211). -/
theorem step_clock {s : State} {tms tdi : Bool} {rest : List Input} (hi : s.inputs = .clock tms tdi :: rest)
    (hb : s.bb.connected = true) (hs : s.tapHalf.isSome = true) :
    step s = .next (bareEdge tms tdi (s.take (.clock tms tdi) rest)) := by
  rw [step_eq hi, stepOn, if_pos hb]
  exact exec_selectedClock (s := s.take (.clock tms tdi) rest) hs tms tdi

/-- So is an edge named by the instruction word it acts on, where the word has its width (log 7). -/
theorem step_instrEdge {s : State} {tms : Bool} {w : Nat} {rest : List Input} (hi : s.inputs = .instrEdge :: rest)
    (hb : s.bb.connected = true) (hs : s.tapHalf.isSome = true) (he : instrEdge s.tap = some (tms, w))
    (hw : w < 2 ^ s.params.irLen) (tdi : Bool) :
    step s = .next (bareEdge tms tdi (s.take .instrEdge rest)) := by
  have hd := decodeIrWord_of_lt hw
  rw [step_eq hi, stepOn, if_pos hb]
  simp only [he, hd]
  exact exec_selectedIrWord (s := s.take .instrEdge rest) hs he hd tdi

/-- Settles O57: the row of the word and the row of the edge are one bare edge, and so are the steps with them. -/
theorem entryActionsRunTheInstructionWord : Obligations.EntryActionsRunTheInstructionWord := by
  intro s tms tdi w hs he
  refine ⟨fun i hd => ?_, fun hw rest => ?_⟩
  · rw [exec_selectedIrWord hs he hd tdi, exec_selectedClock hs]
  · cases hb : s.bb.connected with
    | true =>
      rw [step_instrEdge (s := { s with inputs := .instrEdge :: rest }) rfl hb hs he hw tdi,
        step_clock (s := { s with inputs := .clock tms tdi :: rest }) rfl hb hs]
      rfl
    | false =>
      rw [step_notAdmitted (s := { s with inputs := .instrEdge :: rest }) rfl hb,
        step_notAdmitted (s := { s with inputs := .clock tms tdi :: rest }) rfl hb]

/-! ### Runs of edges -/

/-- The bare edge of a step is the edge of the state before it: taking the input off is nothing an edge looks at. -/
theorem clock_sameTap_bareEdge_take (s : State) (x : Input) (rest : List Input) (tms tdi : Bool) :
    sameTap (clock tms tdi s) (bareEdge tms tdi (s.take x rest)) :=
  clock_same (s := s) (t := s.take x rest) ⟨rfl, rfl, rfl⟩ tms tdi

/-- A run of a client's edges ends as a bare TAP driven with them (43_remote_bitbang.md R214). -/
theorem run_asEdges {s : State} {es : List (Bool × Bool)} {rest : List Input} (hi : s.inputs = asEdges es ++ rest)
    (hb : s.bb.connected = true) (hs : s.tapHalf.isSome = true) :
    ∃ t, run es.length s = .next t ∧ sameTap (bareTap es s).1 t ∧ t.inputs = rest := by
  induction es generalizing s with
  | nil => exact ⟨s, rfl, ⟨rfl, rfl, rfl⟩, hi⟩
  | cons e es ih =>
    obtain ⟨t, hrun, ht, hin⟩ := ih (s := bareEdge e.1 e.2 (s.take (.clock e.1 e.2) (asEdges es ++ rest)))
      (clock_inputs _ _ _) (by simpa [bareEdge] using hb) (clock_isSome _ _ _)
    refine ⟨t, ?_, (bareTap_same (clock_sameTap_bareEdge_take s _ _ e.1 e.2)).1.trans ht, hin⟩
    rw [List.length_cons, run, step_clock hi hb hs]
    exact hrun

theorem bareTap_params (es : List (Bool × Bool)) (s : State) : (bareTap es s).1.params = s.params := by
  induction es generalizing s with
  | nil => rfl
  | cons e es ih => exact (ih _).trans (clock_params s e.1 e.2)

/-- A bare TAP walks the table of 30_encoding.md R90 along the `tms` values (41_tap_fsm.md R169). -/
theorem bareTap_state (es : List (Bool × Bool)) (s : State) :
    (bareTap es s).1.tap.state = (es.map Prod.fst).foldl nextTap s.tap.state := by
  induction es generalizing s with
  | nil => rfl
  | cons e es ih => rw [bareTap, ih, clock_state]; rfl

/-- The last edge of a sequence is an edge from where the others end. -/
theorem bareTap_append_singleton (es : List (Bool × Bool)) (e : Bool × Bool) (s : State) :
    (bareTap (es ++ [e]) s).1 = clock e.1 e.2 (bareTap es s).1 := by
  induction es generalizing s with
  | nil => rfl
  | cons e' es ih => exact ih _

/-! ### The escape -/

/-- Test-Logic-Reset is five edges with `tms = 1` away at most (30_encoding.md R91). -/
theorem nextTap_five_ones (st : TapState) : [true, true, true, true, true].foldl nextTap st = .tlr := by
  cases st <;> rfl

/-- An edge into Test-Logic-Reset idles the registers, whatever it shifted (42_dtm_registers.md R183). -/
theorem clock_into_reset {s : State} {tms : Bool} (tdi : Bool) (h : nextTap s.tap.state tms = .tlr) :
    (clock tms tdi s).tap.ir = s.params.idleIr ∧ (clock tms tdi s).tap.dr = s.params.idleDr ∧
      (clock tms tdi s).tap.sel = s.params.idleIr := by
  simp [clock, h, entryActionOf, runEntry, resetRegs]

/-- A sequence whose last edge enters Test-Logic-Reset leaves the registers idle. -/
theorem bareTap_into_reset {es : List (Bool × Bool)} {e : Bool × Bool} {s : State}
    (h : (bareTap (es ++ [e]) s).1.tap.state = .tlr) :
    (bareTap (es ++ [e]) s).1.tap.ir = s.params.idleIr ∧ (bareTap (es ++ [e]) s).1.tap.dr = s.params.idleDr ∧
      (bareTap (es ++ [e]) s).1.tap.sel = s.params.idleIr := by
  rw [bareTap_append_singleton] at h ⊢
  rw [clock_state] at h
  rw [← bareTap_params es s]
  exact clock_into_reset e.2 h

/-- Settles O40: the run is a bare TAP's walk along the table; its last edge enters Test-Logic-Reset. From Shift-DR four
edges lead through Exit1-DR, Update-DR and Select-DR to Select-IR. -/
theorem fiveOnesReachReset : Obligations.FiveOnesReachReset := by
  refine ⟨fun s b1 b2 b3 b4 b5 rest hs hb hi => ?_, fun s b1 b2 b3 b4 rest hs hb hst hi => ?_⟩
  · obtain ⟨t, hrun, ⟨-, htap, -⟩, hin⟩ :=
      run_asEdges (es := [(true, b1), (true, b2), (true, b3), (true, b4)] ++ [(true, b5)]) hi hb hs
    have hend := (bareTap_state ([(true, b1), (true, b2), (true, b3), (true, b4)] ++ [(true, b5)]) s).trans
      (nextTap_five_ones s.tap.state)
    obtain ⟨hir, hdr, hsel⟩ := bareTap_into_reset hend
    rw [← htap] at hend hir hdr hsel
    exact ⟨t, hrun, hend, hir, hdr, hsel, hin⟩
  · obtain ⟨t, hrun, ⟨-, htap, -⟩, -⟩ :=
      run_asEdges (es := [(true, b1), (true, b2), (true, b3), (true, b4)]) hi hb hs
    refine ⟨t, hrun, ?_⟩
    rw [htap, bareTap_state, hst]
    rfl

end Sys2Proof.Machine

/-! PROOFS. The calls on the debug module: those of an edge are those of its entry action, and those of a step are those
of its input. -/

namespace Sys2Proof.Machine

/-! ### The calls of an edge -/

/-- An edge shifts DR only where it starts in Shift-DR (42_dtm_registers.md R175). -/
theorem runShift_dr_of_ne {s : State} {st : TapState} (h : st ≠ .shDR) (tdi : Bool) :
    (runShift (shiftActionOf st) tdi s).tap.dr = s.tap.dr := by
  cases st with
  | shDR => exact absurd rfl h
  | _ => rfl

/-- The entry actions that call the debug module are those of Capture-DR and Update-DR (42_dtm_registers.md R193). -/
theorem runEntry_log (s : State) (st : TapState) :
    (runEntry (entryActionOf st) s).dm.log =
      s.dm.log ++ entryCalls st (instrDecode s.params s.tap.sel) s.tap.dr := by
  cases st with
  | capDR => exact captureDR_log s _
  | updDR => exact updateDR_log s _
  | _ => exact (List.append_nil s.dm.log).symm

/-- The calls of an edge are those of the action in its new state, on the registers as the edge finds them: no edge from
Shift-DR enters a state with a call (42_dtm_registers.md R193). -/
theorem clock_log (s : State) (tms tdi : Bool) :
    (clock tms tdi s).dm.log =
      s.dm.log ++ entryCalls (nextTap s.tap.state tms) (instrDecode s.params s.tap.sel) s.tap.dr := by
  rw [clock, runEntry_log]
  by_cases hst : s.tap.state = .shDR
  · cases tms <;> simp [hst, nextTap, entryCalls]
  · simp [runShift_dr_of_ne hst]

/-! ### The calls of a step -/

theorem inputCalls_of_edge {s : State} {x : Input} {tms : Bool} (h : edgeTms s x = some tms) :
    inputCalls s x = entryCalls (nextTap s.tap.state tms) (instrDecode s.params s.tap.sel) s.tap.dr := by
  simp [inputCalls, h]

/-- Taking an input off is nothing that the calls of an edge depend on. -/
theorem clock_take_log (s : State) (x : Input) (rest : List Input) (tms tdi : Bool) :
    (clock tms tdi (s.take x rest)).dm.log =
      s.dm.log ++ entryCalls (nextTap s.tap.state tms) (instrDecode s.params s.tap.sel) s.tap.dr :=
  clock_log (s.take x rest) tms tdi

/-- What an input leaves has the input's own calls, and no others, added to the record (42_dtm_registers.md R193). -/
theorem Leaves.log {s t : State} {x : Input} {rest : List Input} (h : Leaves (s.take x rest) x t) :
    t.dm.log = s.dm.log ++ inputCalls s x := by
  have silent {u : State} (hu : u.dm = s.dm) (hx : inputCalls s x = []) : u.dm.log = s.dm.log ++ inputCalls s x := by
    rw [hu, hx, List.append_nil]
  cases h with
  | construct | attach | register | stats => exact silent (by simp) rfl
  | notify hn =>
    obtain ⟨⟨-, -, -, hdm, -⟩, -⟩ := notify_frame hn
    exact silent hdm rfl
  | access ha =>
    obtain ⟨⟨-, -, -, hdm, -⟩, -⟩ := access_frame ha
    exact silent hdm rfl
  | connect | disconnect => exact silent rfl rfl
  | @clock tms tdi => exact clock_take_log ..
  | @instrEdge tms w _ _ he tdi =>
    rw [inputCalls_of_edge (tms := tms) (by simpa [edgeTms] using ⟨w, he⟩)]
    exact clock_take_log ..
  | @clockByte b tms tdi _ hd =>
    rw [State.take_params] at hd
    rw [inputCalls_of_edge (tms := tms) (by simp [edgeTms, hd])]
    exact clock_take_log s _ rest tms tdi
  | sysReset _ hd =>
    rw [State.take_params] at hd
    simp [inputCalls, edgeTms, hd, clearLastTdo]
  | tapReset _ hd | malformed _ hd =>
    rw [State.take_params] at hd
    exact silent rfl (by simp [inputCalls, edgeTms, hd])

/-- Settles O48: each kind of input leaves its own calls. -/
theorem debugModuleCallsAreExact : Obligations.DebugModuleCallsAreExact :=
  fun _ _ _ _ hi h => (step_leaves hi h).log

end Sys2Proof.Machine

/-! PROOFS. The edges of the TAP by what they do: hold, reset, shift, capture, latch, commit. -/

namespace Sys2Proof.Machine

/-! ### The actions of DR -/

/-- The capture for an instruction that accesses a register: the answer of one `DmRead` (42_dtm_registers.md R178). -/
theorem captureDR_of_access {s : State} {acc : DtmAccess} {a : Nat} (h : acc = .read a ∨ acc = .write a) :
    captureDR acc s = (dmRead a s).2.setTap { s.tap with dr := (dmRead a s).1 } := by
  rcases h with rfl | rfl <;> rfl

section

variable {s : State} {st st' : TapState} {tdi : Bool} (hs : s.tapHalf.isSome = true) (h : s.tap.state = st)

include hs h

/-- A row that neither shifts nor acts moves the TAP and returns the held bit (42_dtm_registers.md R177). -/
theorem clockRow_holds :
    clockRow st .none st' .none tdi s = .next ((s.setTap { s.tap with state := st' }).withRet (.tdo s.tap.tdo)) :=
  clockRow_of_state hs h

/-- A row that captures DR for the selected instruction (42_dtm_registers.md R178). -/
theorem clockRow_captures {acc : DtmAccess} (hacc : instrDecode s.params s.tap.sel = acc) :
    clockRow st .none st' .captureDR tdi s =
      .next ((captureDR acc (s.setTapState st')).withRet (.tdo s.tap.tdo)) := by
  subst hacc
  rw [clockRow_of_state hs h, runEntry_tdo]
  rfl

/-- A row that commits the access of the selected instruction (42_dtm_registers.md R181). -/
theorem clockRow_updates {acc : DtmAccess} (hacc : instrDecode s.params s.tap.sel = acc) :
    clockRow st .none st' .updateDR tdi s =
      .next ((updateDR acc (s.setTapState st')).withRet (.tdo s.tap.tdo)) := by
  subst hacc
  rw [clockRow_of_state hs h, runEntry_tdo]
  rfl

end

/-! ### The rows -/

/-- Settles O32: none of the 20 rows shifts or acts. -/
theorem holdingEdgesOnlyMove : Obligations.HoldingEdgesOnlyMove := by
  intro s tdi hs
  exact ⟨clockRow_holds hs, fun h => ⟨clockRow_holds hs h, clockRow_holds hs h⟩, clockRow_holds hs,
    fun h => ⟨clockRow_holds hs h, clockRow_holds hs h⟩, clockRow_holds hs,
    fun h => ⟨clockRow_holds hs h, clockRow_holds hs h⟩, clockRow_holds hs,
    fun h => ⟨clockRow_holds hs h, clockRow_holds hs h⟩, fun h => ⟨clockRow_holds hs h, clockRow_holds hs h⟩,
    clockRow_holds hs, fun h => ⟨clockRow_holds hs h, clockRow_holds hs h⟩, clockRow_holds hs,
    fun h => ⟨clockRow_holds hs h, clockRow_holds hs h⟩⟩

/-- Settles O33: both rows run the reset action in the new state. -/
theorem enteringResetIdlesTheRegisters : Obligations.EnteringResetIdlesTheRegisters :=
  fun _ _ hs => ⟨clockRow_of_state hs, clockRow_of_state hs⟩

/-- Settles O34: both rows shift DR before they move. -/
theorem drShiftEdges : Obligations.DrShiftEdges :=
  fun _ _ hs h => ⟨clockRow_of_state hs h, clockRow_of_state hs h⟩

/-- Settles O35: both rows shift IR before they move. -/
theorem irShiftEdges : Obligations.IrShiftEdges :=
  fun _ _ hs h => ⟨clockRow_of_state hs h, clockRow_of_state hs h⟩

/-- Settles O36: the row captures for the selected instruction; the answer of `DmRead` has `DBITS` bits and is the
scripted one where there is one. -/
theorem drCaptureEdges : Obligations.DrCaptureEdges := by
  refine fun s tdi hs h => ⟨clockRow_captures hs h, fun a ha => ?_⟩
  refine ⟨(dmRead a s).1, dmRead_lt s a, fun x xs hx => dmRead_scripted s hx a, ?_⟩
  exact (clockRow_captures hs h rfl).trans (by rw [captureDR_of_access ha]; rfl)

/-- Settles O37: the row runs the IR capture in the new state. -/
theorem irCaptureEdge : Obligations.IrCaptureEdge :=
  fun _ _ hs h => clockRow_of_state hs h

/-- Settles O38: both rows run the latch action in the new state. -/
theorem irUpdateEdges : Obligations.IrUpdateEdges :=
  fun _ _ hs => ⟨clockRow_of_state hs, clockRow_of_state hs⟩

/-- Settles O39: both rows commit the access of the selected instruction in the new state. -/
theorem drUpdateEdges : Obligations.DrUpdateEdges := by
  intro s tdi hs _ _ i hi
  have row {acc : DtmAccess} (hacc : instrDecode s.params s.tap.sel = acc) :
      exec i s = .next ((updateDR acc (s.setTapState .updDR)).withRet (.tdo s.tap.tdo)) := by
    rcases hi with ⟨rfl, h⟩ | ⟨rfl, h⟩
    · exact clockRow_updates hs h hacc
    · exact clockRow_updates hs h hacc
  exact ⟨row, fun _ => row, fun _ => row⟩

end Sys2Proof.Machine

/-! PROOFS. The shift registers: a register of `n` bits is a delay line, and so is DR or IR while the TAP shifts it. -/

namespace Sys2Proof.Machine

/-! ### The bits of a register -/

/-- The bits of a value from its two ends: all but the last are those of its half. -/
theorem msbFirst_succ (n v : Nat) : msbFirst (n + 1) v = msbFirst n (v / 2) ++ [v.testBit 0] := by
  induction n with
  | zero => rfl
  | succ n ih => rw [msbFirst, ih, Nat.testBit_succ]; rfl

@[simp] theorem length_msbFirst (n v : Nat) : (msbFirst n v).length = n := by
  induction n with
  | zero => rfl
  | succ n ih => rw [msbFirst, List.length_cons, ih]

/-- The last bit given out is the low bit. -/
theorem getLastD_msbFirst {n : Nat} (hn : 1 ≤ n) (v : Nat) (b : Bool) : (msbFirst n v).getLastD b = v.testBit 0 := by
  obtain ⟨n, rfl⟩ := Nat.exists_eq_add_of_le' hn
  rw [msbFirst_succ, List.getLastD_concat]

/-- The low `n` bits are all that is given out (20_memory.md R65). -/
theorem msbFirst_mod_two_pow (n v : Nat) : msbFirst n (v % 2 ^ n) = msbFirst n v := by
  induction n generalizing v with
  | zero => rfl
  | succ n ih =>
    have hdiv : v % 2 ^ (n + 1) / 2 = v / 2 % 2 ^ n := by rw [pow_succ, Nat.mod_mul_left_div_self]
    have hlow : (v % 2 ^ (n + 1)).testBit 0 = v.testBit 0 := by simp
    rw [msbFirst_succ, msbFirst_succ, hdiv, hlow, ih]

/-- A value of `n` bits is determined by them. -/
theorem msbFirst_injOn {n v w : Nat} (hv : v < 2 ^ n) (hw : w < 2 ^ n) (h : msbFirst n v = msbFirst n w) : v = w := by
  induction n generalizing v w with
  | zero => omega
  | succ n ih =>
    rw [msbFirst_succ, msbFirst_succ] at h
    obtain ⟨hhigh, hlow⟩ := List.append_inj' h rfl
    have hhalf : v / 2 = w / 2 := ih (by omega) (by omega) hhigh
    simp [Nat.testBit_zero] at hlow
    omega

/-! ### The delay line -/

/-- The bits that an `n`-bit register at `v` gives out while the bits `ds` are presented (42_dtm_registers.md R184). -/
def shiftOut (n : Nat) : Nat → List Bool → List Bool
  | _, [] => []
  | v, d :: ds => highBit n v :: shiftOut n (shiftIn n v d) ds

/-- The register after these shifts. -/
def shiftInAll (n v : Nat) (ds : List Bool) : Nat := ds.foldl (shiftIn n) v

/-- A shift takes the high bit off and puts the presented bit behind the others (42_dtm_registers.md R175, R176). -/
theorem highBit_cons_msbFirst_shiftIn {n : Nat} (hn : 1 ≤ n) (v : Nat) (d : Bool) :
    highBit n v :: msbFirst n (shiftIn n v d) = msbFirst n v ++ [d] := by
  obtain ⟨n, rfl⟩ := Nat.exists_eq_add_of_le' hn
  have hdiv : (2 * v + d.toNat) / 2 = v := by cases d <;> simp; omega
  have hlow : (2 * v + d.toNat).testBit 0 = d := by cases d <;> simp
  rw [shiftIn_eq, msbFirst_mod_two_pow, msbFirst_succ, hdiv, hlow]
  rfl

/-- The register is a delay line: its bits, then the presented ones, come out in order (42_dtm_registers.md R184). -/
theorem shiftOut_append {n : Nat} (hn : 1 ≤ n) (v : Nat) (ds : List Bool) :
    shiftOut n v ds ++ msbFirst n (shiftInAll n v ds) = msbFirst n v ++ ds := by
  induction ds generalizing v with
  | nil => exact (List.append_nil _).symm
  | cons d ds ih =>
    calc highBit n v :: (shiftOut n (shiftIn n v d) ds ++ msbFirst n (shiftInAll n (shiftIn n v d) ds))
      _ = highBit n v :: (msbFirst n (shiftIn n v d) ++ ds) := by rw [ih]
      _ = (msbFirst n v ++ [d]) ++ ds := by rw [← highBit_cons_msbFirst_shiftIn hn]; rfl
      _ = msbFirst n v ++ d :: ds := by simp

@[simp] theorem length_shiftOut (n v : Nat) (ds : List Bool) : (shiftOut n v ds).length = ds.length := by
  induction ds generalizing v with
  | nil => rfl
  | cons d ds ih => rw [shiftOut, List.length_cons, ih, List.length_cons]

theorem shiftOut_eq_take {n : Nat} (hn : 1 ≤ n) (v : Nat) (ds : List Bool) :
    shiftOut n v ds = (msbFirst n v ++ ds).take ds.length := by
  rw [← shiftOut_append hn, List.take_left' (length_shiftOut n v ds)]

theorem msbFirst_shiftInAll_eq_drop {n : Nat} (hn : 1 ≤ n) (v : Nat) (ds : List Bool) :
    msbFirst n (shiftInAll n v ds) = (msbFirst n v ++ ds).drop ds.length := by
  rw [← shiftOut_append hn, List.drop_left' (length_shiftOut n v ds)]

/-- One shift is enough to bring the register within its width. -/
theorem shiftInAll_lt (n v : Nat) {ds : List Bool} (hds : ds ≠ []) : shiftInAll n v ds < 2 ^ n := by
  obtain ⟨ds, d, rfl⟩ := (List.eq_nil_or_concat' ds).resolve_left hds
  rw [shiftInAll, List.foldl_concat]
  exact shiftIn_lt n _ d

/-- `n` shifts give the old value out and leave the presented one, whatever was there (42_dtm_registers.md R184). -/
theorem shiftOut_msbFirst {n : Nat} (hn : 1 ≤ n) (u v : Nat) : shiftOut n u (msbFirst n v) = msbFirst n u := by
  rw [shiftOut_eq_take hn, List.take_left' (by simp)]

theorem shiftInAll_msbFirst {n v : Nat} (hn : 1 ≤ n) (hv : v < 2 ^ n) (u : Nat) :
    shiftInAll n u (msbFirst n v) = v := by
  have hds : msbFirst n v ≠ [] := List.ne_nil_of_length_pos (by rwa [length_msbFirst])
  refine msbFirst_injOn (shiftInAll_lt n u hds) hv ?_
  rw [msbFirst_shiftInAll_eq_drop hn, List.drop_left' (by simp)]

/-! ### A register that the TAP shifts -/

/-- `put st v b`, the machine with the TAP in state `st`, `v` in a register of `n` bits and `tdo` at `b`, is shifted by
every edge from the state `stay`, and `tms = 1` leads out to `leave` (42_dtm_registers.md R175, R176). -/
structure ShiftedFrom (n : Nat) (stay leave : TapState) (put : TapState → Nat → Bool → State) : Prop where
  tdo : ∀ st v b, (put st v b).tap.tdo = b
  clock : ∀ tms tdi v b,
    clock tms tdi (put stay v b) = put (if tms then leave else stay) (shiftIn n v tdi) (highBit n v)

/-- `s` with the TAP in a state, a value in DR and a value of `tdo`. -/
def State.putDr (s : State) (st : TapState) (v : Nat) (b : Bool) : State :=
  s.setTap { s.tap with state := st, dr := v, tdo := b }

/-- `s` with the TAP in a state, a value in IR and a value of `tdo`. -/
def State.putIr (s : State) (st : TapState) (v : Nat) (b : Bool) : State :=
  s.setTap { s.tap with state := st, ir := v, tdo := b }

theorem shiftedFrom_putDr (s : State) : ShiftedFrom s.params.dbits .shDR .ex1DR s.putDr where
  tdo _ _ _ := rfl
  clock tms tdi v b := by cases tms <;> rfl

theorem shiftedFrom_putIr (s : State) : ShiftedFrom s.params.irLen .shIR .ex1IR s.putIr where
  tdo _ _ _ := rfl
  clock tms tdi v b := by cases tms <;> rfl

section

variable {n : Nat} {stay leave : TapState} {put : TapState → Nat → Bool → State}
  (h : ShiftedFrom n stay leave put)

include h

/-- While the TAP stays, the register shifts and its bits are given out (42_dtm_registers.md R184). -/
theorem ShiftedFrom.bareTap_stay (ds : List Bool) (v : Nat) (b : Bool) :
    bareTap (ds.map fun d => (false, d)) (put stay v b) =
      (put stay (shiftInAll n v ds) ((shiftOut n v ds).getLastD b), shiftOut n v ds) := by
  induction ds generalizing v b with
  | nil => rfl
  | cons d ds ih =>
    simp only [List.map_cons, bareTap, h.clock, h.tdo, Bool.false_eq_true, if_false, ih, shiftOut, List.getLastD_cons]
    rfl

/-- The shift edges of a scan shift the pattern in and leave by the last of them (30_encoding.md R107). -/
theorem ShiftedFrom.bareTap_shiftEdges (m v u : Nat) (b : Bool) :
    bareTap (shiftEdges (m + 1) v) (put stay u b) =
      (put leave (shiftInAll n u (msbFirst (m + 1) v)) ((shiftOut n u (msbFirst (m + 1) v)).getLastD b),
        shiftOut n u (msbFirst (m + 1) v)) := by
  induction m generalizing u b with
  | zero => simp [shiftEdges, bareTap, h.clock, h.tdo, msbFirst, shiftOut, shiftInAll]
  | succ m ih =>
    have hfirst : shiftEdges (m + 2) v = (false, v.testBit (m + 1)) :: shiftEdges (m + 1) v := rfl
    have hbits : msbFirst (m + 2) v = v.testBit (m + 1) :: msbFirst (m + 1) v := rfl
    simp only [hfirst, hbits, bareTap, h.clock, h.tdo, Bool.false_eq_true, if_false, ih, shiftOut, List.getLastD_cons]
    rfl

/-- A scan of the whole register gives the old value out and leaves the new one (42_dtm_registers.md R184). -/
theorem ShiftedFrom.bareTap_scan (hn : 1 ≤ n) {v : Nat} (hv : v < 2 ^ n) (u : Nat) (b : Bool) :
    bareTap (shiftEdges n v) (put stay u b) = (put leave v (u.testBit 0), msbFirst n u) := by
  obtain ⟨m, rfl⟩ := Nat.exists_eq_add_of_le' hn
  rw [h.bareTap_shiftEdges, shiftInAll_msbFirst hn hv, shiftOut_msbFirst hn, getLastD_msbFirst hn]

end

/-! ### A scan in pieces -/

/-- A walk through Pause, however long, and Ex2 back to Shift changes the state alone and gives out the held bit, since
no edge of it shifts or acts (42_dtm_registers.md R185). -/
theorem bareTap_pause {s : State} {st pause ex2 shift : TapState}
    (henter : ∀ d, clock false d (s.setTapState st) = s.setTapState pause)
    (hstay : ∀ d, clock false d (s.setTapState pause) = s.setTapState pause)
    (hleave : ∀ d, clock true d (s.setTapState pause) = s.setTapState ex2)
    (hback : ∀ d, clock false d (s.setTapState ex2) = s.setTapState shift) {ds : List Bool} (hds : ds ≠ [])
    (b b' : Bool) :
    bareTap ((ds.map fun d => (false, d)) ++ [(true, b), (false, b')]) (s.setTapState st) =
      (s.setTapState shift, List.replicate (ds.length + 2) s.tap.tdo) := by
  induction ds generalizing st with
  | nil => exact absurd rfl hds
  | cons d ds ih =>
    cases ds with
    | nil => simp [bareTap, henter, hleave, hback, List.replicate]
    | cons d' ds =>
      rw [List.map_cons, List.cons_append, bareTap, henter, ih hstay (List.cons_ne_nil d' ds)]
      rfl

theorem sameTap_setTapState {s : State} {st : TapState} (h : s.tap.state = st) : sameTap (s.setTapState st) s := by
  subst h
  exact ⟨rfl, rfl, rfl⟩

/-- Settles O45: the register and the bits it gives out are one delay line, and no edge of a pause shifts or acts. -/
theorem shiftRegistersAreDelayLines : Obligations.ShiftRegistersAreDelayLines := by
  refine ⟨fun s ds hst hn => ?_, fun s ds hst => ?_, fun s ds b b' hst hds => ?_⟩
  · obtain ⟨⟨-, htap, hdm⟩, hout⟩ := bareTap_same (s := s.putDr .shDR s.tap.dr s.tap.tdo)
      (es := ds.map fun d => (false, d)) (sameTap_setTapState hst)
    rw [(shiftedFrom_putDr s).bareTap_stay] at htap hdm hout
    simp only [htap, hdm, hout]
    exact ⟨shiftOut_eq_take hn _ _, msbFirst_shiftInAll_eq_drop hn _ _, rfl, rfl, rfl, rfl⟩
  · obtain ⟨⟨-, htap, hdm⟩, hout⟩ := bareTap_same (s := s.putIr .shIR s.tap.ir s.tap.tdo)
      (es := ds.map fun d => (false, d)) (sameTap_setTapState hst)
    have hn : 1 ≤ s.params.irLen := Nat.le_add_left 1 _
    rw [(shiftedFrom_putIr s).bareTap_stay] at htap hdm hout
    simp only [htap, hdm, hout]
    exact ⟨shiftOut_eq_take hn _ _, msbFirst_shiftInAll_eq_drop hn _ _, rfl, rfl, rfl, rfl⟩
  · rcases hst with hst | hst
    all_goals
      obtain ⟨⟨-, htap, hdm⟩, hout⟩ :=
        bareTap_same (es := (ds.map fun d => (false, d)) ++ [(true, b), (false, b')]) (sameTap_setTapState hst)
      rw [bareTap_pause (fun _ => rfl) (fun _ => rfl) (fun _ => rfl) (fun _ => rfl) hds] at htap hdm hout
      simp [htap, hdm, hout, hst, nextTap]

end Sys2Proof.Machine

/-! PROOFS. The escape: edges with `tms = 1` commit a half-finished DR scan where they pass Update-DR, and make no other
call on the debug module. -/

namespace Sys2Proof.Machine

/-- The states of a DR scan between capture and update (42_dtm_registers.md R186). -/
abbrev inDrScan (st : TapState) : Prop := st ∈ [TapState.capDR, .shDR, .ex1DR, .pauDR, .ex2DR]

/-- Outside a DR scan `tms = 1` leads to no state with a call, and not into a DR scan (30_encoding.md R90). -/
theorem nextTap_true_of_not_inDrScan {st : TapState} (h : ¬ inDrScan st) :
    nextTap st true ≠ .capDR ∧ nextTap st true ≠ .updDR ∧ ¬ inDrScan (nextTap st true) := by
  cases st <;> simp_all [nextTap]

/-- Only Capture-DR and Update-DR have calls (42_dtm_registers.md R193). -/
theorem entryCalls_of_ne {st : TapState} (hcap : st ≠ .capDR) (hupd : st ≠ .updDR) (acc : DtmAccess) (dr : Nat) :
    entryCalls st acc dr = [] := by
  cases st <;> simp_all [entryCalls]

/-- From outside a DR scan edges with `tms = 1` make no call. -/
theorem bareTap_ones_log_of_not_inDrScan {s : State} (h : ¬ inDrScan s.tap.state) (bs : List Bool) :
    (bareTap (bs.map fun b => (true, b)) s).1.dm.log = s.dm.log := by
  induction bs generalizing s with
  | nil => rfl
  | cons b bs ih =>
    obtain ⟨hcap, hupd, hout⟩ := nextTap_true_of_not_inDrScan h
    rw [List.map_cons, bareTap, ih (by rwa [clock_state]), clock_log, entryCalls_of_ne hcap hupd, List.append_nil]

/-- From Ex1-DR and Ex2-DR the first of them commits, and the others make no call. -/
theorem bareTap_ones_log_of_exitDR {s : State} (h : s.tap.state = .ex1DR ∨ s.tap.state = .ex2DR) (b : Bool)
    (bs : List Bool) :
    (bareTap ((b :: bs).map fun b => (true, b)) s).1.dm.log =
      s.dm.log ++ entryCalls .updDR (instrDecode s.params s.tap.sel) s.tap.dr := by
  have hupd : nextTap s.tap.state true = .updDR := by rcases h with h | h <;> rw [h] <;> rfl
  rw [List.map_cons, bareTap, bareTap_ones_log_of_not_inDrScan (by rw [clock_state, hupd]; decide), clock_log, hupd]

/-- From the other three states of a DR scan the first edge leads there, and shifts DR if it starts in Shift-DR. -/
theorem bareTap_ones_log_of_inDrScan {s : State} (h : inDrScan s.tap.state) (b b' : Bool) (bs : List Bool) :
    (bareTap ((b :: b' :: bs).map fun b => (true, b)) s).1.dm.log =
      s.dm.log ++ entryCalls .updDR (instrDecode s.params s.tap.sel)
        (if s.tap.state = .shDR then (2 * s.tap.dr + b.toNat) % 2 ^ s.params.dbits else s.tap.dr) := by
  have viaExit (hexit : nextTap s.tap.state true = .ex1DR ∨ nextTap s.tap.state true = .ex2DR) :
      (bareTap ((b :: b' :: bs).map fun b => (true, b)) s).1.dm.log =
        (clock true b s).dm.log ++
          entryCalls .updDR (instrDecode s.params (clock true b s).tap.sel) (clock true b s).tap.dr := by
    rw [List.map_cons, bareTap, bareTap_ones_log_of_exitDR (by rwa [clock_state]), clock_params]
  simp only [List.mem_cons, List.not_mem_nil, or_false] at h
  rcases h with h | h | h | h | h
  · rw [viaExit (by simp [h, nextTap])]
    simp [clock, h, nextTap, shiftActionOf, entryActionOf, runShift, runEntry]
  · rw [viaExit (by simp [h, nextTap])]
    simp [clock, h, nextTap, shiftActionOf, entryActionOf, runShift, runEntry, shiftIn_eq]
  · rw [bareTap_ones_log_of_exitDR (.inl h), if_neg (by simp [h])]
  · rw [viaExit (by simp [h, nextTap])]
    simp [clock, h, nextTap, shiftActionOf, entryActionOf, runShift, runEntry]
  · rw [bareTap_ones_log_of_exitDR (.inr h), if_neg (by simp [h])]

/-- Settles O46: the run is a bare TAP's; in a DR scan its first or second edge enters Update-DR, and no later one. -/
theorem escapeCommitsAHalfFinishedScan : Obligations.EscapeCommitsAHalfFinishedScan := by
  intro s b1 b2 b3 b4 b5 rest hs hb hi
  obtain ⟨t, hrun, ⟨-, htap, hdm⟩, -⟩ := run_asEdges (es := [b1, b2, b3, b4, b5].map fun b => (true, b)) hi hb hs
  refine ⟨t, hrun, ?_, ?_⟩
  · rw [htap, bareTap_state]
    exact nextTap_five_ones s.tap.state
  · rw [hdm]
    split
    · next h => exact bareTap_ones_log_of_inDrScan h b1 b2 [b3, b4, b5]
    · next h => rw [bareTap_ones_log_of_not_inDrScan h, List.append_nil]

end Sys2Proof.Machine

/-! PROOFS. The scans: a run of clock commands is a bare TAP's, a DR scan commits its pattern, an IR scan selects it,
and the two debugger procedures are one of each. -/

namespace Sys2Proof.Machine

/-! ### Runs of clock commands -/

/-- A clock command of a connected client (43_remote_bitbang.md R201). -/
theorem step_clockCommand {s : State} {b : Byte} {tms tdi : Bool} {rest : List Input}
    (hi : s.inputs = .byte b :: rest) (hb : s.bb.connected = true) (hd : bbDecode s.params b = .clock tms tdi) :
    step s = .next (bbClock tms tdi (s.take (.byte b) rest)) := by
  rw [step_eq hi, stepOn, inSession_of_connected hb]
  simp only [hd]

/-- A run of clock commands ends as a bare TAP driven with their pairs, under any codec, and sends the bits that it
returns (43_remote_bitbang.md R207, R214). -/
theorem run_clockCommands {s : State} {bs : List Byte} {es : List (Bool × Bool)} {rest : List Input}
    (hes : List.Forall₂ (fun b e => bbDecode s.params b = .clock e.1 e.2) bs es)
    (hi : s.inputs = bs.map .byte ++ rest) (hb : s.bb.connected = true) :
    ∃ t, run es.length s = .next t ∧ sameTap (bareTap es s).1 t ∧
      t.sent = s.sent ++ (bareTap es s).2.map (respByte s.params) ∧ t.inputs = rest := by
  generalize hp : s.params = p at hes
  induction hes generalizing s with
  | nil => exact ⟨s, rfl, ⟨rfl, rfl, rfl⟩, (List.append_nil _).symm, hi⟩
  | @cons b e bs es hd _ ih =>
    subst hp
    have hsame : sameTap (clock e.1 e.2 s) (bbClock e.1 e.2 (s.take (.byte b) (bs.map .byte ++ rest))) := by
      obtain ⟨-, htap, hdm⟩ :=
        clock_same (s := s) (t := s.take (.byte b) (bs.map .byte ++ rest)) ⟨rfl, rfl, rfl⟩ e.1 e.2
      exact ⟨by simp, htap, hdm⟩
    obtain ⟨hend, hbits⟩ := bareTap_same (es := es) hsame
    obtain ⟨t, hrun, ht, hsent, hin⟩ := ih (s := bbClock e.1 e.2 (s.take (.byte b) (bs.map .byte ++ rest)))
      (by simp) (by simpa using hb) (by simp)
    refine ⟨t, ?_, hend.trans ht, ?_, hin⟩
    · rw [List.length_cons, run, step_clockCommand hi hb hd]
      exact hrun
    · rw [hsent, hbits, bbClock_sent, clock_take_tap]
      simp [bareTap]

/-- The same of edges as the bytes of the reference codec (30_encoding.md R100). -/
theorem run_asBytes {s : State} {es : List (Bool × Bool)} (hp : s.params.bbOverride = []) (hi : s.inputs = asBytes es)
    (hb : s.bb.connected = true) :
    ∃ t, run es.length s = .next t ∧ sameTap (bareTap es s).1 t ∧
      t.sent = s.sent ++ (bareTap es s).2.map (respByte s.params) ∧ t.inputs = [] := by
  refine run_clockCommands (bs := es.map fun e => clockByte e.1 e.2) ?_ (by simp [hi, asBytes]) hb
  rw [List.forall₂_map_left_iff, List.forall₂_same]
  intro e _
  rw [bbDecode_reference hp, referenceDecode_clockByte]

/-! ### The scans -/

theorem bareTap_append (es es' : List (Bool × Bool)) (s : State) :
    bareTap (es ++ es') s =
      ((bareTap es' (bareTap es s).1).1, (bareTap es s).2 ++ (bareTap es' (bareTap es s).1).2) := by
  induction es generalizing s with
  | nil => rfl
  | cons e es ih => simp [bareTap, ih]

@[simp] theorem length_shiftEdges (n v : Nat) : (shiftEdges n v).length = n := by
  induction n with
  | zero => rfl
  | succ n ih => rw [shiftEdges, List.length_cons, ih]

theorem length_drScan (p : Params) (v : Nat) : (drScan p v).length = p.dbits + 5 := by
  simp [drScan]

theorem length_irScan (p : Params) (v : Nat) : (irScan p v).length = p.irLen + 6 := by
  simp [irScan]

/-- The way from Run-Test/Idle into Shift-DR captures on its way (30_encoding.md R107, 42_dtm_registers.md R178). -/
theorem bareTap_toShiftDR {s : State} {acc : DtmAccess} (hst : s.tap.state = .rti)
    (hacc : instrDecode s.params s.tap.sel = acc) :
    bareTap [(true, false), (false, false), (false, false)] s =
      ((captureDR acc s).putDr .shDR (captureDR acc s).tap.dr s.tap.tdo, [s.tap.tdo, s.tap.tdo, s.tap.tdo]) := by
  simp only [bareTap, clock, hst, nextTap, shiftActionOf, runShift, entryActionOf, runEntry, hacc,
    State.setTapState_tap, State.setTapState_params]
  cases acc <;> rfl

/-- The way from Ex1-DR back to Run-Test/Idle commits on its way (30_encoding.md R107, 42_dtm_registers.md R181). -/
theorem bareTap_fromEx1DR {s : State} {acc : DtmAccess} (hst : s.tap.state = .ex1DR)
    (hacc : instrDecode s.params s.tap.sel = acc) :
    bareTap [(true, false), (false, false)] s =
      ((updateDR acc s).setTapState .rti, [s.tap.tdo, s.tap.tdo]) := by
  simp only [bareTap, clock, hst, nextTap, shiftActionOf, runShift, entryActionOf, runEntry, hacc,
    State.setTapState_tap, State.setTapState_params]
  cases acc <;> rfl

/-- The way from Run-Test/Idle into Shift-IR captures the selected instruction (42_dtm_registers.md R179). -/
theorem bareTap_toShiftIR {s : State} (hst : s.tap.state = .rti) :
    bareTap [(true, false), (true, false), (false, false), (false, false)] s =
      (s.putIr .shIR s.tap.sel s.tap.tdo, [s.tap.tdo, s.tap.tdo, s.tap.tdo, s.tap.tdo]) := by
  simp only [bareTap, clock, hst]
  rfl

/-- Legal data registers have a bit (92_eei_decisions.md D15). -/
theorem dbits_pos_of_wf {p : Params} (h : p.wf = true) : 1 ≤ p.dbits := by
  simp only [Params.wf, Bool.and_eq_true, decide_eq_true_eq] at h
  obtain ⟨⟨⟨⟨⟨⟨⟨⟨⟨-, hd⟩, -⟩, -⟩, -⟩, -⟩, -⟩, -⟩, -⟩, -⟩ := h
  exact hd

/-- What a capture for `acc` may put into DR: the idle value, or an answer of the debug module, the next scripted one
where there is one (42_dtm_registers.md R178, R190). -/
structure Captured (p : Params) (answers : List Nat) (acc : DtmAccess) (c : Nat) : Prop where
  lt : c < 2 ^ p.dbits
  idle : acc = .idle → c = p.idleDr
  scripted : acc ≠ .idle → ∀ x xs, answers = x :: xs → c = x % 2 ^ p.dbits

theorem captured_captureDR {s : State} (hwf : s.params.wf = true) (acc : DtmAccess) :
    Captured s.params s.dm.answers acc (captureDR acc s).tap.dr := by
  cases acc with
  | idle => exact ⟨(idle_lt_of_wf hwf).2, fun _ => rfl, fun h => absurd rfl h⟩
  | read a => exact ⟨dmRead_lt s a, nofun, fun _ _ _ hx => dmRead_scripted s hx a⟩
  | write a => exact ⟨dmRead_lt s a, nofun, fun _ _ _ hx => dmRead_scripted s hx a⟩

/-- A DR scan gives the captured value out, leaves the presented one and makes the calls of both (42_dtm_registers.md
R181, R184). -/
theorem bareTap_drScan {s : State} {acc : DtmAccess} {v : Nat} (hwf : s.params.wf = true) (hst : s.tap.state = .rti)
    (hacc : instrDecode s.params s.tap.sel = acc) (hv : v < 2 ^ s.params.dbits) :
    ∃ c, Captured s.params s.dm.answers acc c ∧
      (bareTap (drScan s.params v) s).1.tap = { s.tap with dr := v, tdo := c.testBit 0 } ∧
      (bareTap (drScan s.params v) s).1.dm.log = s.dm.log ++
        (entryCalls .capDR acc s.tap.dr ++ entryCalls .updDR acc v) ∧
      (bareTap (drScan s.params v) s).2 = [s.tap.tdo, s.tap.tdo, s.tap.tdo] ++ msbFirst s.params.dbits c ++
        [c.testBit 0, c.testBit 0] := by
  have hp : (captureDR acc s).params = s.params := captureDR_params s acc
  have hsel : instrDecode (captureDR acc s).params (captureDR acc s).tap.sel = acc := by
    rw [hp, captureDR_sel, hacc]
  have hshift :=
    (shiftedFrom_putDr (captureDR acc s)).bareTap_scan (by rw [hp]; exact dbits_pos_of_wf hwf) (by rwa [hp])
  have hexit (b : Bool) := bareTap_fromEx1DR (s := (captureDR acc s).putDr .ex1DR v b) rfl hsel
  rw [hp] at hshift
  refine ⟨(captureDR acc s).tap.dr, captured_captureDR hwf acc, ?_⟩
  rw [drScan, bareTap_append, bareTap_append, bareTap_toShiftDR hst hacc, hshift, hexit]
  refine ⟨?_, ?_, rfl⟩
  · rw [← hst]
    cases acc <;> rfl
  · simp [updateDR_log, captureDR_log, State.putDr]

/-- `s` after an IR scan of `v`: back in Run-Test/Idle with `v` in IR and selected, `tdo` the low bit of the old
selection. -/
def State.irScanned (s : State) (v : Nat) : State :=
  s.setTap { s.tap with state := .rti, ir := v, sel := v, tdo := s.tap.sel.testBit 0 }

@[simp] theorem State.irScanned_params (s : State) (v : Nat) : (s.irScanned v).params = s.params := rfl
@[simp] theorem State.irScanned_tdo (s : State) (v : Nat) : (s.irScanned v).tap.tdo = s.tap.sel.testBit 0 := rfl

/-- An IR scan gives the selected instruction out and selects its pattern (42_dtm_registers.md R179, R180, R184). -/
theorem bareTap_irScan {s : State} {v : Nat} (hst : s.tap.state = .rti) (hv : v < 2 ^ s.params.irLen) :
    bareTap (irScan s.params v) s =
      (s.irScanned v, [s.tap.tdo, s.tap.tdo, s.tap.tdo, s.tap.tdo] ++ msbFirst s.params.irLen s.tap.sel ++
        [s.tap.sel.testBit 0, s.tap.sel.testBit 0]) := by
  have hn : 1 ≤ s.params.irLen := Nat.le_add_left 1 _
  rw [irScan, bareTap_append, bareTap_append, bareTap_toShiftIR hst, (shiftedFrom_putIr s).bareTap_scan hn hv]
  rfl

/-- Settles O43: the run is a bare TAP's scan. -/
theorem drScanDeliversThePattern : Obligations.DrScanDeliversThePattern := by
  intro s v hwf hp hb hst hv hi
  obtain ⟨t, hrun, ⟨-, htap, hdm⟩, hsent, hin⟩ := run_asBytes hp hi hb
  obtain ⟨c, hc, hreg, hlog, hbits⟩ := bareTap_drScan hwf hst rfl hv
  rw [length_drScan] at hrun
  refine ⟨t, c, hrun, hc.lt, hc.idle, hc.scripted, htap.trans hreg, ?_, ?_, hin⟩
  · rw [hdm, hlog]
    cases instrDecode s.params s.tap.sel <;> rfl
  · rw [hsent, hbits]

/-- Settles O44: the run is a bare TAP's scan, which starts from the old selection and ends in the latch. -/
theorem irScanSelectsTheInstruction : Obligations.IrScanSelectsTheInstruction := by
  intro s v hp hb hst hv hi
  obtain ⟨t, hrun, ⟨-, htap, hdm⟩, hsent, hin⟩ := run_asBytes hp hi hb
  rw [bareTap_irScan hst hv] at htap hdm hsent
  rw [length_irScan] at hrun
  exact ⟨t, hrun, htap.trans (by simp [State.irScanned, hst]), hdm, hsent, hin⟩

/-! ### The debugger -/

theorem instrDecode_readWord {p : Params} {a : Nat} (hp : p.irOverride = []) (ha : a < 2 ^ p.abits) :
    instrDecode p (irWord a 1) = .read a := by
  simp [instrDecode, accessOf_of_no_override hp, layoutDecode, irAddr, irWord_div, trunc_of_lt ha]

theorem instrDecode_writeWord {p : Params} {a : Nat} (hp : p.irOverride = []) (ha : a < 2 ^ p.abits) :
    instrDecode p (irWord a 2) = .write a := by
  simp [instrDecode, accessOf_of_no_override hp, layoutDecode, irAddr, irWord_div, trunc_of_lt ha]

/-- A debugger procedure: an instruction is selected, then a value is scanned for it (42_dtm_registers.md R195). -/
theorem run_irScan_drScan {s : State} {w v : Nat} {acc : DtmAccess} (hwf : s.params.wf = true)
    (hp : s.params.bbOverride = []) (hb : s.bb.connected = true) (hst : s.tap.state = .rti)
    (hw : w < 2 ^ s.params.irLen) (hacc : instrDecode s.params w = acc) (hv : v < 2 ^ s.params.dbits)
    (hi : s.inputs = asBytes (irScan s.params w ++ drScan s.params v)) :
    ∃ t c before, run s.inputs.length s = .next t ∧ t.tap.state = .rti ∧ t.tap.sel = w ∧
      t.dm.log = s.dm.log ++ (entryCalls .capDR acc s.tap.dr ++ entryCalls .updDR acc v) ∧
      Captured s.params s.dm.answers acc c ∧
      before.length = s.sent.length + (s.params.irLen + 6) + 3 ∧
      t.sent = before ++ (msbFirst s.params.dbits c ++ [c.testBit 0, c.testBit 0]).map (respByte s.params) := by
  obtain ⟨t, hrun, ⟨-, htap, hdm⟩, hsent, -⟩ := run_asBytes hp hi hb
  obtain ⟨c, hc, hreg, hlog, hbits⟩ := bareTap_drScan (s := s.irScanned w) hwf rfl hacc hv
  rw [State.irScanned_params] at hc hreg hlog hbits
  simp only [bareTap_append, bareTap_irScan hst hw, hbits] at htap hdm hsent
  rw [hreg] at htap
  refine ⟨t, c, s.sent ++ ([s.tap.tdo, s.tap.tdo, s.tap.tdo, s.tap.tdo] ++ msbFirst s.params.irLen s.tap.sel ++
    List.replicate 5 (s.tap.sel.testBit 0)).map (respByte s.params), ?_, ?_, ?_, ?_, hc, ?_, ?_⟩
  · rw [hi]; simpa [asBytes] using hrun
  · rw [htap]; rfl
  · rw [htap]; rfl
  · rw [hdm, hlog]; rfl
  · simp +arith
  · rw [hsent]; simp

/-- Settles O47: the word of the procedure asks for the access whose calls the data scan makes. -/
theorem debuggerReadsAndWritesARegister : Obligations.DebuggerReadsAndWritesARegister := by
  intro s a v hwf hir hp hb hst ha hv
  refine ⟨fun hi => ?_, fun hi => ?_⟩
  · obtain ⟨t, c, before, hrun, hrti, hsel, hlog, -⟩ :=
      run_irScan_drScan hwf hp hb hst (irWord_lt ha (by decide)) (instrDecode_writeWord hir ha) hv hi
    exact ⟨t, hrun, hrti, hsel, hlog⟩
  · obtain ⟨t, c, before, hrun, hrti, hsel, hlog, hc, hlen, hsent⟩ :=
      run_irScan_drScan hwf hp hb hst (irWord_lt ha (by decide)) (instrDecode_readWord hir ha) hv hi
    exact ⟨t, c, before, hrun, hrti, hsel, hlog, hc.lt, hc.scripted (by simp), hlen, hsent⟩

end Sys2Proof.Machine

/-! PROOFS. The bitbang layer: its commands and its sessions row by row, that nothing arrives without a client, that the
server is a bare TAP, and which steps send a byte. -/

namespace Sys2Proof.Machine

/-! ### The commands of a connected client -/

/-- A clock command of a connected client, field by field (43_remote_bitbang.md R201). -/
theorem bbClock_of_connected {s : State} (hb : s.bb.connected = true) (tms tdi : Bool) :
    bbClock tms tdi s = { clock tms tdi s with
      bb := { connected := true, lastTdo := (clock tms tdi s).tap.tdo }
      sent := s.sent ++ [respByte s.params (clock tms tdi s).tap.tdo]
      ret := .nothing } := by
  simp [bbClock, respond, State.send, State.setSession, State.withRet, hb]

/-- Settles O49: each of the five rows is the one clock command, of its own pair. -/
theorem clockCommandsAnswerOneByte : Obligations.ClockCommandsAnswerOneByte := by
  intro s hb
  have clocked (tms tdi : Bool) := (inSession_of_connected hb).trans (congrArg _ (bbClock_of_connected hb tms tdi))
  exact ⟨clocked _ _, clocked _ _, clocked _ _, clocked _ _, clocked⟩

/-- Settles O50: with a client connected each row is its operation. -/
theorem resetCommandsAndMalformedBytes : Obligations.ResetCommandsAndMalformedBytes :=
  fun _ hb => ⟨inSession_of_connected hb, inSession_of_connected hb, fun _ => inSession_of_connected hb⟩

/-! ### Sessions -/

theorem execConnect_of_connected {s : State} (hb : s.bb.connected = true) :
    execConnect s = .refused .sessionActive := if_pos hb

theorem execConnect_of_not_connected {s : State} (hb : s.bb.connected = false) (hs : s.tapHalf.isSome = true) :
    execConnect s = .next ((s.setSession { connected := true, lastTdo := false }).withRet .nothing) := by
  simp [execConnect, hb, withTapHalf_of_isSome hs]

/-- Settles O51: the two checks of `connect`, and the one of `disconnect`. -/
theorem sessionsOpenAndClose : Obligations.SessionsOpenAndClose :=
  ⟨fun _ hs hb => execConnect_of_not_connected hb hs, fun _ => execConnect_of_connected,
    fun _ => inSession_of_connected⟩

theorem inSession_of_not_connected {s t : State} (hb : s.bb.connected = false) :
    inSession s t = .refused .noSession := by
  simp [inSession, hb]

theorem step_byte_of_not_connected {s : State} {b : Byte} {rest : List Input} (hi : s.inputs = .byte b :: rest)
    (hb : s.bb.connected = false) : step s = .refused .noSession := by
  rw [step_eq hi]
  exact inSession_of_not_connected hb

/-- With no client an input of the debug half leaves a next state only where it opens a session; that, like the inputs
of the cache half, leaves the TAP, the debug module and the bytes sent alone (43_remote_bitbang.md R211). -/
theorem Leaves.serial_of_not_connected {u t : State} {x : Input} (h : Leaves u x t) (hu : u.bb.connected = false) :
    t.tapHalf = u.tapHalf ∧ t.dm = u.dm ∧ t.sent = u.sent := by
  cases h with
  | construct | attach | register | stats | connect => simp
  | notify hn =>
    obtain ⟨⟨-, htap, -, hdm, hsent, -⟩, -⟩ := notify_frame hn
    exact ⟨htap, hdm, hsent⟩
  | access ha =>
    obtain ⟨⟨-, htap, -, hdm, hsent, -⟩, -⟩ := access_frame ha
    exact ⟨htap, hdm, hsent⟩
  | clock hb | instrEdge hb | clockByte hb | sysReset hb | tapReset hb | malformed hb | disconnect hb =>
    rw [hu] at hb
    cases hb

/-- Settles O52: a step leaves what its input leaves with no client; the edges are refused by `step`, the rest by their
rows. -/
theorem nothingArrivesWithoutASession : Obligations.NothingArrivesWithoutASession := by
  refine ⟨fun s t hb h => ?_, fun s rest hb => ⟨fun tms tdi => ?_, ?_, fun b => ?_⟩, fun s hb => ?_⟩
  · cases hi : s.inputs with
    | nil => rw [step_nil hi] at h; cases h; exact ⟨rfl, rfl, rfl⟩
    | cons x rest => exact (step_leaves hi h).serial_of_not_connected hb
  · exact step_notAdmitted rfl hb
  · exact step_notAdmitted rfl hb
  · exact step_byte_of_not_connected rfl hb
  · have refused (t : State) : inSession s t = .refused .noSession := inSession_of_not_connected hb
    exact ⟨refused _, refused _, refused _, refused _, fun _ _ => refused _, refused _, refused _, fun _ => refused _,
      refused _, refused _, refused _⟩

/-! ### The server and the bare TAP -/

theorem clockPair_eq_some_iff {p : Params} {b : Byte} {e : Bool × Bool} :
    clockPair p b = some e ↔ bbDecode p b = .clock e.1 e.2 := by
  unfold clockPair
  cases bbDecode p b <;> simp [Prod.ext_iff]

/-- Bytes that are all clock commands, beside their pairs. -/
theorem forall₂_clockPairs {p : Params} {bs : List Byte} (h : ∀ b ∈ bs, (clockPair p b).isSome = true) :
    List.Forall₂ (fun b e => bbDecode p b = .clock e.1 e.2) bs (bs.filterMap (clockPair p)) := by
  induction bs with
  | nil => exact .nil
  | cons b bs ih =>
    obtain ⟨hb, hbs⟩ := List.forall_mem_cons.1 h
    obtain ⟨e, he⟩ := Option.isSome_iff_exists.1 hb
    rw [List.filterMap_cons_some he]
    exact .cons (clockPair_eq_some_iff.1 he) (ih hbs)

/-- Settles O54: the run of the bytes is a bare TAP's run of their pairs. -/
theorem bitbangServerIsABareTap : Obligations.BitbangServerIsABareTap := by
  intro s bs hb hi hclock
  have hpairs := forall₂_clockPairs hclock
  obtain ⟨t, hrun, ⟨-, htap, hdm⟩, hsent, -⟩ := run_clockCommands (rest := []) hpairs (by simpa using hi) hb
  exact ⟨t, hpairs.length_eq ▸ hrun, htap, hdm, hsent⟩

/-! ### The bytes sent -/

/-- A clock command sends the byte of the `tdo` that its own edge leaves (43_remote_bitbang.md R201). -/
theorem Leaves.sent_of_clock {u t : State} {b : Byte} (h : Leaves u (.byte b) t)
    (hc : (clockPair u.params b).isSome = true) : t.sent = u.sent ++ [respByte u.params t.tap.tdo] := by
  cases h with
  | clockByte => exact bbClock_sent u _ _
  | sysReset _ hd | tapReset _ hd | malformed _ hd => simp [clockPair, hd] at hc

/-- No other input sends a byte (43_remote_bitbang.md R207). -/
theorem Leaves.sent_of_not_clock {u t : State} {x : Input} (h : Leaves u x t)
    (hx : ∀ b, x = .byte b → clockPair u.params b = none) : t.sent = u.sent := by
  cases h with
  | notify hn =>
    obtain ⟨⟨-, -, -, -, hsent, -⟩, -⟩ := notify_frame hn
    exact hsent
  | access ha =>
    obtain ⟨⟨-, -, -, -, hsent, -⟩, -⟩ := access_frame ha
    exact hsent
  | clockByte _ hd =>
    have hnone := hx _ rfl
    simp [clockPair, hd] at hnone
  | construct | attach | register | stats | clock | instrEdge | sysReset | tapReset | malformed | connect
  | disconnect => simp [bareEdge, clearLastTdo]

theorem Leaves.connected_of_byte {u t : State} {b : Byte} (h : Leaves u (.byte b) t) : t.bb.connected = true := by
  cases h with
  | clockByte hb | sysReset hb | tapReset hb | malformed hb => simpa [clearLastTdo] using hb

/-- A byte of a connected client is taken, and is answered if it is a clock command (43_remote_bitbang.md R200, R207). -/
theorem step_byte {s : State} {b : Byte} {rest : List Input} (hi : s.inputs = .byte b :: rest)
    (hb : s.bb.connected = true) :
    ∃ t, step s = .next t ∧ t.params = s.params ∧ t.bb.connected = true ∧ t.inputs = rest ∧
      t.sent.length = s.sent.length + (clockPair s.params b).isSome.toNat := by
  obtain ⟨t, h⟩ : ∃ t, step s = .next t := ⟨_, (step_eq hi).trans (inSession_of_connected hb)⟩
  have hl := step_leaves hi h
  refine ⟨t, h, step_params h, hl.connected_of_byte, (step_otherHalfKept hi rfl h).inputs, ?_⟩
  cases hc : (clockPair s.params b).isSome with
  | true => simp [hl.sent_of_clock hc]
  | false =>
    have hnone : clockPair s.params b = none := by simpa using hc
    simp [hl.sent_of_not_clock (by rintro _ ⟨⟩; exact hnone)]

/-- After any bytes of a connected client as many are sent as were clock commands (43_remote_bitbang.md R207). -/
theorem run_bytes {s : State} {bs : List Byte} (hb : s.bb.connected = true) (hi : s.inputs = bs.map .byte) :
    ∃ t, run bs.length s = .next t ∧
      t.sent.length = s.sent.length + bs.countP fun b => (clockPair s.params b).isSome := by
  induction bs generalizing s with
  | nil => exact ⟨s, rfl, rfl⟩
  | cons b bs ih =>
    obtain ⟨u, hstep, hp, hub, hui, hlen⟩ := step_byte hi hb
    obtain ⟨t, hrun, ht⟩ := ih hub hui
    refine ⟨t, by rw [List.length_cons, run, hstep]; exact hrun, ?_⟩
    rw [ht, hlen, hp, List.countP_cons]
    cases (clockPair s.params b).isSome <;> simp +arith

/-- Settles O55: the count over a run, the byte of a clock command, and the silence of every other input. -/
theorem responsesAreAccountedFor : Obligations.ResponsesAreAccountedFor :=
  ⟨fun _ _ => run_bytes, fun _ _ _ _ hi h => (step_leaves hi h).sent_of_clock,
    fun _ _ _ _ hi h => (step_leaves hi h).sent_of_not_clock⟩

end Sys2Proof.Machine

/-! PROOFS. The phases of the machine: building comes before the run, and a step faults in building a cache or on a
chain that does not end. -/

namespace Sys2Proof.Machine

/-! ### What begins the run -/

theorem startsRun_iff {x : Input} : startsRun x = true ↔ isBuilding x = false ∧ ∀ c, x ≠ .stats c := by
  cases x <;> simp [startsRun, isBuilding]

/-- Executing an input does not touch the phase: that the run begins is part of taking the input off (log 15). -/
theorem Leaves.running {u t : State} {x : Input} (h : Leaves u x t) : t.running = u.running := by
  cases h with
  | notify hn =>
    obtain ⟨⟨-, -, -, -, -, -, hr⟩, -⟩ := notify_frame hn
    exact hr
  | access ha =>
    obtain ⟨⟨-, -, -, -, -, -, hr⟩, -⟩ := access_frame ha
    exact hr
  | construct | attach | register | stats | clock | instrEdge | clockByte | sysReset | tapReset | malformed | connect
  | disconnect => simp [bareEdge, clearLastTdo]

theorem not_running_of_take {s : State} {x : Input} {rest : List Input} (h : (s.take x rest).running = false) :
    s.running = false :=
  (Bool.or_eq_false_iff.1 h).1

/-- The run has begun after a step if it had before or the input begins it (log 15). -/
theorem step_running {s t : State} {x : Input} {rest : List Input} (hi : s.inputs = x :: rest)
    (h : step s = .next t) : t.running = (s.running || startsRun x) :=
  (step_leaves hi h).running

/-- A building call is taken before the run only (43_remote_bitbang.md R216). -/
theorem Leaves.not_running_of_isBuilding {u t : State} {x : Input} (h : Leaves u x t) (hx : isBuilding x = true) :
    u.running = false := by
  cases h with
  | construct hr | attach hr | register hr => exact hr
  | notify | access | stats | clock | instrEdge | clockByte | sysReset | tapReset | malformed | connect | disconnect =>
    cases hx

/-! ### What can fault -/

theorem beforeRun_eq_fault {s : State} {o : Result} {r : Fault} (h : beforeRun s o = .fault r) :
    s.running = false ∧ o = .fault r := by
  cases hr : s.running with
  | true => rw [beforeRun_of_running hr] at h; cases h
  | false => exact ⟨rfl, (beforeRun_of_not_running hr).symm.trans h⟩

theorem inSession_ne_fault (s t : State) (r : Fault) : inSession s t ≠ .fault r := by
  unfold inSession
  split <;> nofun

theorem specError_of_malformed {spec : Text} (hp : parseSpec spec = none) :
    specError spec = some .malformedCacheSpec := by
  simp only [specError, hp]

theorem specError_of_parseSpec {spec : Text} {S W B : Nat} (hp : parseSpec spec = some (S, W, B)) :
    specError spec = if !isPow2 S || !isPow2 B then some .nonPowerOfTwoGeometry
      else if W = 0 then some .zeroWays else none := by
  simp only [specError, hp]

/-- `construct` faults before the run, on a spec string that is refused (60_exceptions.md R221, R222). -/
theorem execConstruct_eq_fault {s : State} {c : CacheId} {spec label : Text} {r : Fault}
    (h : execConstruct c spec label s = .fault r) :
    s.running = false ∧ ∃ cause, r = .configError cause ∧ specError spec = some cause := by
  obtain ⟨hr, h⟩ := beforeRun_eq_fault h
  refine ⟨hr, ?_⟩
  split at h
  · next hp => cases h; exact ⟨_, rfl, specError_of_malformed hp⟩
  · next hp =>
    have hspec := specError_of_parseSpec hp
    split at h
    · next hpow => cases h; exact ⟨_, rfl, hspec.trans (if_pos hpow)⟩
    · next hpow =>
      split at h
      · next hw => cases h; exact ⟨_, rfl, hspec.trans ((if_neg hpow).trans (if_pos hw))⟩
      · split at h <;> cases h

theorem execAttach_ne_fault (lower upper : CacheId) (s : State) (r : Fault) : execAttach lower upper s ≠ .fault r := by
  refine fun h => absurd (beforeRun_eq_fault h).2 ?_
  repeat' split
  all_goals nofun

theorem execRegister_ne_fault (hh : Nat) (c : CacheId) (s : State) (r : Fault) : execRegister hh c s ≠ .fault r := by
  refine fun h => absurd (beforeRun_eq_fault h).2 ?_
  repeat' split
  all_goals nofun

theorem execStats_ne_fault (c : CacheId) (s : State) (r : Fault) : execStats c s ≠ .fault r := by
  unfold execStats
  split <;> nofun

theorem execConnect_ne_fault (s : State) (r : Fault) : execConnect s ≠ .fault r := by
  unfold execConnect withTapHalf
  repeat' split
  all_goals nofun

theorem access_eq_fault {c : CacheId} {a : Addr} {w : Bool} {s : State} {r : Fault}
    (h : access c a w s = .fault r) : r = .cyclicChain := by
  rcases access_outcomes (c := c) (a := a) (w := w) (s := s) with ⟨t, ht⟩ | ht | ht <;> rw [ht] at h <;> cases h
  rfl

theorem notify_eq_fault {hh : Nat} {a : Addr} {k : Kind} {s : State} {r : Fault}
    (h : notify hh a k s = .fault r) : r = .cyclicChain := by
  rcases notify_outcomes (h := hh) (a := a) (k := k) (s := s) with ⟨t, ht⟩ | ht | ht | ht <;> rw [ht] at h <;> cases h
  rfl

/-- The edge that the state selects is run, or there is no TAP half. -/
theorem exec_selectedClock_ne_fault (s : State) (tms tdi : Bool) (r : Fault) :
    exec (decodeClock s.tap.state tms tdi) s ≠ .fault r := by
  cases hs : s.tapHalf with
  | none => rw [exec_decodeClock, clockRow_of_none hs]; nofun
  | some t => rw [exec_selectedClock (by rw [hs]; rfl)]; nofun

/-- So is the row of the instruction word that an edge of the state acts on. -/
theorem exec_selectedIrWord_ne_fault {s : State} {tms : Bool} {w : Nat} {i : Instr}
    (he : instrEdge s.tap = some (tms, w)) (hd : decodeIrWord s.params w = .ok i) (r : Fault) :
    exec i s ≠ .fault r := by
  cases hs : s.tapHalf with
  | none => rw [exec_decodeIrWord hd, dtmRow, withTapHalf_of_none hs]; nofun
  | some t => rw [exec_selectedIrWord (by rw [hs]; rfl) he hd false]; nofun

/-- A step faults on a chain that does not end, or in `construct` before the run on a spec string that is refused
(60_exceptions.md R221). -/
theorem step_eq_fault {s : State} {r : Fault} (h : step s = .fault r) :
    r = .cyclicChain ∨ s.running = false ∧ ∃ cause c spec label rest, r = .configError cause ∧
      s.inputs = .construct c spec label :: rest ∧ specError spec = some cause := by
  cases hi : s.inputs with
  | nil => rw [step_nil hi] at h; cases h
  | cons x rest =>
    rw [step_eq hi] at h
    cases x with
    | construct c spec label =>
      obtain ⟨hr, cause, hcause, hspec⟩ := execConstruct_eq_fault h
      exact .inr ⟨not_running_of_take hr, cause, c, spec, label, rest, hcause, rfl, hspec⟩
    | attach lower upper => exact absurd h (execAttach_ne_fault lower upper _ r)
    | register hh c =>
      rw [stepOn] at h
      split at h
      · exact absurd h (execRegister_ne_fault hh c _ r)
      · cases h
    | notify hh a k =>
      rw [stepOn] at h
      split at h
      · exact .inl (notify_eq_fault h)
      · cases h
    | access c a w =>
      rw [stepOn] at h
      split at h
      · next row hrow =>
        rw [exec_decodeAccess (by simpa [accessRow] using hrow)] at h
        exact .inl (access_eq_fault h)
      · cases h
    | stats c => exact absurd h (execStats_ne_fault c _ r)
    | clock tms tdi =>
      rw [stepOn] at h
      split at h
      · exact absurd h (exec_selectedClock_ne_fault (s.take (.clock tms tdi) rest) tms tdi r)
      · cases h
    | byte b => exact absurd h (inSession_ne_fault s _ r)
    | connect => exact absurd h (execConnect_ne_fault _ r)
    | disconnect => exact absurd h (inSession_ne_fault _ _ r)
    | instrEdge =>
      rw [stepOn] at h
      split at h
      · split at h
        · cases h
        · next he =>
          split at h
          · next hd => exact absurd h (exec_selectedIrWord_ne_fault (s := s.take .instrEdge rest) he hd r)
          · cases h
      · cases h

/-- Settles O59: the guard of the three calls, what taking an input off does to the phase, and the faults of a step. -/
theorem buildingEndsWhenTheRunBegins : Obligations.BuildingEndsWhenTheRunBegins := by
  refine ⟨fun s hr => ⟨fun _ _ _ => beforeRun_of_running hr, fun _ _ => beforeRun_of_running hr,
    fun _ _ => beforeRun_of_running hr⟩, fun s t x rest hi h => ?_, fun s t x rest hi h hx => ?_, fun s cause h => ?_⟩
  · rw [step_running hi h, Bool.or_eq_true, startsRun_iff]
  · exact not_running_of_take ((step_leaves hi h).not_running_of_isBuilding hx)
  · obtain hcyc | ⟨hr, _, c, spec, label, rest, hcause, hi, hspec⟩ := step_eq_fault h
    · cases hcyc
    · cases hcause
      exact ⟨hr, c, spec, label, rest, hi, hspec⟩

end Sys2Proof.Machine

/-! PROOFS. The operations that cannot fail: on chains that end every access completes, and so a run can fault in
building a cache alone; the error that the orchestrator's sequence ends with. -/

namespace Sys2Proof.Machine

/-! ### Completion -/

/-- Each kind of access is taken by a tracer (30_encoding.md R87). -/
theorem exists_accepts (kd : Kind) : ∃ c w, accepts c kd = some w := by
  cases kd with
  | fetch => exact ⟨.ic, false, rfl⟩
  | load => exact ⟨.dc, false, rfl⟩
  | store => exact ⟨.dc, true, rfl⟩

/-- A notification is at most one access, of a cache that is built and whose chain ends (60_exceptions.md R227). -/
theorem notify_completes {s : State} (hc : s.ChainsInv) (ht : s.TracersInv) {h : Nat} (hh : h < s.params.nharts)
    (a : Addr) (kd : Kind) : ∃ t, notify h a kd s = .next t := by
  obtain ⟨hlen, hts⟩ := ht
  have hlt : h < s.tracers.length := hlen.symm ▸ hh
  obtain ⟨hnd, hbuilt⟩ := hts _ (List.getElem_mem hlt)
  obtain ⟨c, w, hacc⟩ := exists_accepts kd
  rw [notify_of_accepts (List.getElem?_eq_getElem hlt) hnd hacc]
  split
  · next hmem =>
    obtain ⟨t, hta⟩ := access_completes (hc c (hbuilt c hmem).2) a w
    exact ⟨t.withRet .nothing, by rw [hta, andThen_next]⟩
  · exact ⟨_, rfl⟩

theorem notify_completes_framed {s : State} (hs : s.Inv) {h : Nat} (hh : h < s.params.nharts) (a : Addr) (kd : Kind) :
    ∃ t, notify h a kd s = .next t ∧ sameDebugHalf s t ∧ t.tracers = s.tracers := by
  obtain ⟨t, ht⟩ := notify_completes hs.chains hs.tracers hh a kd
  exact ⟨t, ht, notify_frame ht⟩

/-- Settles O22: a notification is at most one access, an access ends with its chain, and an edge always completes; each
has its frame. -/
theorem operationsThatCannotFailComplete : Obligations.OperationsThatCannotFailComplete := by
  intro s hs
  refine ⟨fun h a hh => ?_, fun c a w hc => ?_, fun htap tms tdi => ?_⟩
  · exact ⟨notify_completes_framed hs hh a .fetch, notify_completes_framed hs hh a .load,
      notify_completes_framed hs hh a .store⟩
  · obtain ⟨t, ht⟩ := access_completes (hs.chains c hc) a w
    exact ⟨t, ht, access_frame ht⟩
  · exact ⟨bareEdge tms tdi s, exec_selectedClock htap tms tdi, clock_sameCacheHalf s tms tdi⟩

/-! ### The faults of a run -/

/-- A guard that refuses does not fault. -/
theorem eq_fault_of_guarded {P : Prop} [Decidable P] {o : Result} {q : Refusal} {r : Fault}
    (h : (if P then o else .refused q) = .fault r) : P ∧ o = .fault r := by
  split at h
  · next hP => exact ⟨hP, h⟩
  · cases h

/-- The row of an access is that of a built cache (30_encoding.md R108). -/
theorem isSome_of_accessRow {s : State} {c : CacheId} {a : Addr} {row : AccessRow} (h : accessRow s c a = some row) :
    (s.cache c).isSome = true := by
  cases hc : s.cache c with
  | none => simp [accessRow, hc] at h
  | some k => rfl

/-- A step that finds a chain without an end is a notification of an existing hart or an access to a built cache: no
other input walks a chain to its end (40_cache.md R113, R116, R122). -/
theorem step_eq_cyclicChain {s : State} {x : Input} {rest : List Input} (hi : s.inputs = x :: rest)
    (h : step s = .fault .cyclicChain) :
    (∃ hh a kd, hh < s.params.nharts ∧ notify hh a kd (s.take x rest) = .fault .cyclicChain) ∨
      ∃ c a w, (s.cache c).isSome = true ∧ access c a w (s.take x rest) = .fault .cyclicChain := by
  rw [step_eq hi] at h
  cases x with
  | notify hh a kd => exact .inl ⟨hh, a, kd, eq_fault_of_guarded h⟩
  | access c a w =>
    rw [stepOn] at h
    split at h
    · next row hrow =>
      rw [exec_decodeAccess (by simpa [accessRow] using hrow)] at h
      exact .inr ⟨c, a, w, isSome_of_accessRow hrow, h⟩
    · cases h
  | construct c spec label =>
    obtain ⟨-, cause, hcause, -⟩ := execConstruct_eq_fault h
    cases hcause
  | attach lower upper => exact absurd h (execAttach_ne_fault lower upper _ _)
  | register hh c => exact absurd (eq_fault_of_guarded h).2 (execRegister_ne_fault hh c _ _)
  | stats c => exact absurd h (execStats_ne_fault c _ _)
  | clock tms tdi => exact absurd (eq_fault_of_guarded h).2 (exec_selectedClock_ne_fault (s.take _ rest) tms tdi _)
  | byte b => exact absurd h (inSession_ne_fault s _ _)
  | connect => exact absurd h (execConnect_ne_fault _ _)
  | disconnect => exact absurd h (inSession_ne_fault _ _ _)
  | instrEdge =>
    obtain ⟨-, h⟩ := eq_fault_of_guarded h
    split at h
    · cases h
    · next he =>
      split at h
      · next hd => exact absurd h (exec_selectedIrWord_ne_fault (s := s.take .instrEdge rest) he hd _)
      · cases h

/-- On chains that end, with the tracer lists as registered, no step finds a chain without an end (40_cache.md R113). -/
theorem step_ne_cyclicChain {s : State} (hc : s.ChainsInv) (ht : s.TracersInv) : step s ≠ .fault .cyclicChain := by
  intro h
  cases hi : s.inputs with
  | nil => rw [step_nil hi] at h; cases h
  | cons x rest =>
    have hbuilt := sameBuilt_take s x rest
    have hcu : (s.take x rest).ChainsInv := hc.congr hbuilt.cache
    obtain ⟨hh, a, kd, hlt, hn⟩ | ⟨c, a, w, hsome, ha⟩ := step_eq_cyclicChain hi h
    · obtain ⟨t, htn⟩ := notify_completes hcu (ht.of_sameBuilt hbuilt) hlt a kd
      cases htn.symm.trans hn
    · obtain ⟨t, hta⟩ := access_completes (hcu c (hbuilt.cache c ▸ hsome)) a w
      cases hta.symm.trans ha

/-- What every step keeps of the chains and the tracer lists holds along a run, so none of its steps finds a chain
without an end. -/
theorem run_ne_cyclicChain (n : Nat) {s : State} (hc : s.ChainsInv) (ht : s.TracersInv) :
    run n s ≠ .fault .cyclicChain := by
  induction n generalizing s with
  | zero => nofun
  | succ n ih =>
    rw [run]
    cases hstep : step s with
    | next t => exact ih (chainsInv_kept.step hstep hc) (tracersInv_kept.step hstep ht)
    | fault r =>
      rintro ⟨⟩
      exact step_ne_cyclicChain hc ht hstep
    | refused q => nofun

/-- Settles O29: of the two faults the chain without an end is met by no run from a state of the invariant. -/
theorem runsFaultOnlyByConfigError : Obligations.RunsFaultOnlyByConfigError := by
  intro s n r hs h
  cases r with
  | configError cause => exact ⟨cause, rfl⟩
  | cyclicChain => exact absurd h (run_ne_cyclicChain n hs.chains hs.tracers)

/-! ### The first bad spec string -/

/-- The inputs `xs`, taken first, end in the fault `r` (60_exceptions.md R221). -/
def FaultsIn (xs : List Input) (s : State) (r : Fault) : Prop :=
  ∀ rest, run xs.length (s.withInputs (xs ++ rest)) = .fault r

/-- Nothing follows a fault (60_exceptions.md R231). -/
theorem FaultsIn.append {xs : List Input} {s : State} {r : Fault} (h : FaultsIn xs s r) (ys : List Input) :
    FaultsIn (xs ++ ys) s r := by
  intro rest
  rw [List.length_append, run_add, List.append_assoc, h]
  rfl

theorem LeadsTo.faultsIn {xs ys : List Input} {s t : State} {r : Fault} (h : LeadsTo xs s t) (h' : FaultsIn ys t r) :
    FaultsIn (xs ++ ys) s r := by
  intro rest
  rw [List.length_append, run_add, List.append_assoc, h, andThen_next, h']

/-- `construct` before the run raises the error of its spec string (60_exceptions.md R222, R230). -/
theorem execConstruct_of_specError {s : State} {c : CacheId} {spec label : Text} {cause : ConfigCause}
    (hr : s.running = false) (h : specError spec = some cause) :
    execConstruct c spec label s = .fault (.configError cause) := by
  cases hp : parseSpec spec with
  | none =>
    rw [specError_of_malformed hp] at h
    cases h
    exact execConstruct_malformed hr hp
  | some geometry =>
    obtain ⟨S, W, B⟩ := geometry
    rw [specError_of_parseSpec hp] at h
    split at h
    · next hne =>
      cases h
      exact execConstruct_nonPowerOfTwo hr hp (by simpa [imp_iff_not_or] using hne)
    · next hpow =>
      split at h
      · next hW =>
        cases h
        subst hW
        simp only [Bool.or_eq_true, Bool.not_eq_true', not_or, Bool.not_eq_false] at hpow
        exact execConstruct_zeroWays hr hp hpow.1 hpow.2
      · cases h

/-- A cache asked for with a bad spec string ends the sequence, before its attachment. -/
theorem faultsIn_buildL1 {s : State} {c : CacheId} {label : Text} {spec : Option Text} {hasL2 : Bool}
    {cause : ConfigCause} (hr : s.running = false) (h : spec.bind specError = some cause) :
    FaultsIn (buildL1 c label spec hasL2) s (.configError cause) := by
  obtain ⟨text, rfl, herr⟩ := Option.bind_eq_some_iff.1 h
  have hcons : FaultsIn [.construct c text label] s (.configError cause) := by
    intro rest
    have hstep : step (s.withInputs (.construct c text label :: rest)) = .fault (.configError cause) := by
      rw [step_eq (State.withInputs_inputs s _), stepOn, take_of_isBuilding rfl]
      exact execConstruct_of_specError (s := s.withInputs rest) hr herr
    show andThen (step (s.withInputs (.construct c text label :: rest))) (run 0) = _
    rw [hstep]
    rfl
  exact hcons.append _

/-- The caches of a plan whose spec strings are good are built, and the run has not begun. -/
theorem leadsTo_goodCaches {s : State} {plan : Plan} (hr : s.running = false) (hnone : ∀ c, s.cache c = none)
    (hl2 : plan.l2.bind specError = none) (hic : plan.ic.bind specError = none)
    (hdc : plan.dc.bind specError = none) :
    ∃ t, LeadsTo (buildL1 .l2 "L2$".toList plan.l2 false ++ buildL1 .ic "I$".toList plan.ic plan.l2.isSome ++
        buildL1 .dc "D$".toList plan.dc plan.l2.isSome) s t ∧ t.running = false := by
  have hgood (x : Text) (hx : plan.l2 = some x ∨ plan.ic = some x ∨ plan.dc = some x) : specError x = none := by
    obtain hx | hx | hx := hx
    · exact Option.bind_eq_none_iff.1 hl2 x hx
    · exact Option.bind_eq_none_iff.1 hic x hx
    · exact Option.bind_eq_none_iff.1 hdc x hx
  obtain ⟨t, hst, -, -, -, -, hhalf⟩ := leadsTo_caches hr hnone hgood
  exact ⟨t, hst, not_running_of_sameDebugHalf hhalf hr⟩

/-- The caches before the first bad spec string are those of a plan that asks for no more of them. -/
theorem faultsIn_bootInputs {p : Params} {s : State} {plan : Plan} {cause : ConfigCause} (hr : s.running = false)
    (hnone : ∀ c, s.cache c = none)
    (h : [plan.l2, plan.ic, plan.dc].findSome? (fun o => o.bind specError) = some cause) :
    FaultsIn (bootInputs p plan) s (.configError cause) := by
  rw [bootInputs_eq]
  refine FaultsIn.append ?_ _
  cases hl2 : plan.l2.bind specError with
  | some e =>
    obtain rfl : e = cause := by simpa [hl2] using h
    exact ((faultsIn_buildL1 hr hl2).append _).append _
  | none =>
    cases hic : plan.ic.bind specError with
    | some e =>
      obtain rfl : e = cause := by simpa [hl2, hic] using h
      obtain ⟨t, hst, hrt⟩ := leadsTo_goodCaches (plan := ⟨plan.l2, none, none⟩) hr hnone hl2 rfl rfl
      simp only [buildL1, List.append_nil] at hst
      exact (hst.faultsIn (faultsIn_buildL1 hrt hic)).append _
    | none =>
      have hdc : plan.dc.bind specError = some cause := by simpa [hl2, hic] using h
      obtain ⟨t, hst, hrt⟩ := leadsTo_goodCaches (plan := ⟨plan.l2, plan.ic, none⟩) hr hnone hl2 hic rfl
      rw [buildL1, List.append_nil] at hst
      exact hst.faultsIn (faultsIn_buildL1 hrt hdc)

/-- Settles O14: the good caches before the first bad spec string are built, and its `construct` faults. -/
theorem bootReportsTheFirstBadSpec : Obligations.BootReportsTheFirstBadSpec := by
  intro p plan cause h
  have hboot := faultsIn_bootInputs (p := p) (s := State.init p) rfl (fun c => by cases c <;> rfl) h []
  rwa [List.append_nil] at hboot

end Sys2Proof.Machine

/-! PROOFS. The TAP half, there or not there from construction on: its rows are refused where it is not, and every step
keeps it as it is. -/

namespace Sys2Proof.Machine

/-! ### The rows of a machine without a TAP half -/

theorem dtmRow_of_none {s : State} (hs : s.tapHalf = none) (addr op : Nat) (acc : DtmAccess) :
    dtmRow addr op acc s = .refused .noTapHalf := withTapHalf_of_none hs

theorem execConnect_of_none {s : State} (hb : s.bb.connected = false) (hs : s.tapHalf = none) :
    execConnect s = .refused .noTapHalf := by
  simp [execConnect, hb, withTapHalf_of_none hs]

/-! ### Steps and the TAP half -/

/-- No input takes the TAP half away (70_reset_and_hazards.md R257). -/
theorem Leaves.isSome_tapHalf {u t : State} {x : Input} (h : Leaves u x t) (hu : u.tapHalf.isSome = true) :
    t.tapHalf.isSome = true := by
  cases h with
  | construct | attach | register | stats | sysReset | malformed | connect | disconnect => simpa [clearLastTdo] using hu
  | notify hn =>
    obtain ⟨⟨-, htap, -⟩, -⟩ := notify_frame hn
    rwa [htap]
  | access ha =>
    obtain ⟨⟨-, htap, -⟩, -⟩ := access_frame ha
    rwa [htap]
  | clock | instrEdge | clockByte => simp [bareEdge, bbClock, respond]
  | tapReset => rfl

/-- With no TAP half, and so no client, the inputs that leave a next state are those of the cache half
(70_reset_and_hazards.md R257): an edge or a `connect` needs the one, a byte or a `disconnect` the other. -/
theorem Leaves.sameDebugHalf_of_no_tapHalf {u t : State} {x : Input} (h : Leaves u x t) (hu : u.tapHalf = none)
    (hb : u.bb.connected = false) : Machine.sameDebugHalf u t := by
  cases h with
  | construct | attach | register | stats => simp [Machine.sameDebugHalf]
  | notify hn => exact (notify_frame hn).1
  | access ha => exact (access_frame ha).1
  | clock _ hs | instrEdge _ hs | connect _ hs => simp [hu] at hs
  | clockByte hc | sysReset hc | tapReset hc | malformed hc | disconnect hc => simp [hb] at hc

theorem step_isSome_tapHalf {s t : State} (hs : s.tapHalf.isSome = true) (h : step s = .next t) :
    t.tapHalf.isSome = true := by
  cases hi : s.inputs with
  | nil => rw [step_nil hi] at h; cases h; exact hs
  | cons x rest => exact (step_leaves hi h).isSome_tapHalf hs

theorem step_of_no_tapHalf {s t : State} (hs : s.tapHalf = none) (hb : s.bb.connected = false)
    (h : step s = .next t) : t.tapHalf = none ∧ t.bb = s.bb ∧ t.dm = s.dm ∧ t.sent = s.sent := by
  cases hi : s.inputs with
  | nil => rw [step_nil hi] at h; cases h; exact ⟨hs, rfl, rfl, rfl⟩
  | cons x rest =>
    obtain ⟨-, htap, hbb, hdm, hsent, -⟩ := (step_leaves hi h).sameDebugHalf_of_no_tapHalf hs hb
    exact ⟨htap.trans hs, hbb, hdm, hsent⟩

/-- A client is connected only where the TAP half exists (70_reset_and_hazards.md R257). -/
theorem State.TapHalfInv.not_connected {s : State} (h : s.TapHalfInv) (hs : s.tapHalf = none) :
    s.bb.connected = false := by
  refine Bool.eq_false_of_not_eq_true fun hb => ?_
  simpa [hs] using h.2 hb

/-- Every step keeps the TAP half where a remote transport was requested, and a client where there is a TAP half. -/
theorem State.TapHalfInv.step {s t : State} (hs : s.TapHalfInv) (h : step s = .next t) : t.TapHalfInv := by
  have hp := step_params h
  have hremote : s.tapHalf.isSome = s.params.remote := hs.1
  cases htap : s.tapHalf with
  | none =>
    obtain ⟨ht, hbb, -⟩ := step_of_no_tapHalf htap (hs.not_connected htap) h
    exact ⟨by rw [ht, hp, ← hremote, htap], fun hc => by rw [hbb, hs.not_connected htap] at hc; cases hc⟩
  | some tap =>
    have ht := step_isSome_tapHalf (by simp [htap]) h
    exact ⟨by rw [ht, hp, ← hremote, htap]; rfl, fun _ => ht⟩

/-- Settles O60: construction reads `remote` alone, every row of the TAP half asks for it first, and with no TAP half and
no client a step leaves the debug half as it is. -/
theorem withoutATransportNoTapHalf : Obligations.WithoutATransportNoTapHalf := by
  refine ⟨fun p => ⟨fun hp => ?_, fun hp => ?_⟩, fun s hs => ⟨fun st tms tdi => ?_, fun addr => ?_, fun hb => ?_⟩,
    fun s t hinv h => ⟨hinv.step h, fun hs => step_of_no_tapHalf hs (hinv.not_connected hs) h⟩⟩
  · simp [State.init, hp]
  · simp [State.init, hp, Tap.idle]
  · rw [exec_decodeClock]
    exact clockRow_of_none hs
  · exact ⟨dtmRow_of_none hs addr 0 .idle, dtmRow_of_none hs addr 1 (.read addr), dtmRow_of_none hs addr 2 (.write addr),
      dtmRow_of_none hs addr 3 .idle⟩
  · exact execConnect_of_none hb hs

end Sys2Proof.Machine
